-- ==== Sys2Proof/Word.lean ====
section
/-! DEFINITION. The word types of the AED codec block: the 32-bit register word, the byte, and the bit sequence of rule R10. -/

namespace Sys2Proof

/-- A 32-bit register word (rule R47). -/
abbrev Word := BitVec 32

/-- A byte of the streams; also a Symbol and a colour channel (rules R7 and R12). -/
abbrev Byte := BitVec 8

/-- A bit sequence (rule R10), first bit at the head; `true` is 1. -/
abbrev Bits := List Bool

end Sys2Proof
end

