-- ==== Sys2Proof/Syntax.lean ====
section
/-! DEFINITION. The AEDC command set, version 1 (rule R92): one constructor per row of spec/opcode_table.json. No command has an operand field (rules R90 and R93). -/

namespace Sys2Proof

/-- A command, the block's instruction (rules R17 and R92). -/
inductive Instr where
  /-- NOP, rule R230. -/
  | nop
  /-- RESET, rule R231. -/
  | reset
  /-- FREQ_CLR, rule R120. -/
  | freqClr
  /-- FREQ_ACC, rule R121. -/
  | freqAcc
  /-- BUILD_TREE, rule R125. -/
  | buildTree
  /-- GEN_CODES, rule R133. -/
  | genCodes
  /-- DECODE_ONE, rule R138. -/
  | decodeOne
  /-- TREE_WR, rule R150. -/
  | treeWr
  /-- TREE_RD, rule R155. -/
  | treeRd
  /-- PACK, rule R165. -/
  | pack
  /-- UNPACK, rule R170. -/
  | unpack
  /-- ENC_FULL, rule R185. -/
  | encFull
  /-- DEC_FULL, rule R190. -/
  | decFull
  /-- ENC_DELTA, rule R195. -/
  | encDelta
  /-- DEC_DELTA, rule R200. -/
  | decDelta
  /-- PUT32, rule R210. -/
  | put32
  /-- GET32, rule R211. -/
  | get32
  deriving DecidableEq, Repr

end Sys2Proof
end

