-- ==== Sys2Proof/Decode.lean ====
section
/-! DEFINITION. Command words: the decoder (rules R90 to R92 and R94), total on every 32-bit word, and the encoder written from the same opcode map. -/

namespace Sys2Proof

/-- Why a word is no command (rule R94). -/
inductive DecodeReject where
  /-- `w[31:8] != 0`. -/
  | reservedBits
  /-- `w[7:0]` is not in the opcode map of rule R92. -/
  | unassignedOpcode
  deriving DecidableEq, Repr

/-- The `rsv` field, `w[31:8]` (rule R90). -/
def fieldRsv (w : Word) : BitVec 24 := w.extractLsb' 8 24

/-- The 8-bit opcode, `w[7:0]` (rule R90). -/
def fieldOpcode (w : Word) : Byte := w.extractLsb' 0 8

/-- The `grp` field, `w[7:4]` (rule R90). -/
def fieldGrp (w : Word) : BitVec 4 := w.extractLsb' 4 4

/-- The `fn` field, `w[3:0]` (rule R90). -/
def fieldFn (w : Word) : BitVec 4 := w.extractLsb' 0 4

/-- The opcode map of rule R92, in its order. -/
def opcodeMap : List (Byte × Instr) :=
  [(0x00, .nop), (0x01, .reset),
   (0x10, .freqClr), (0x11, .freqAcc), (0x12, .buildTree), (0x13, .genCodes), (0x14, .decodeOne),
   (0x20, .treeWr), (0x21, .treeRd),
   (0x30, .pack), (0x31, .unpack),
   (0x40, .encFull), (0x41, .decFull), (0x42, .encDelta), (0x43, .decDelta),
   (0x50, .put32), (0x51, .get32)]

/-- The command an opcode is assigned to, if any. -/
def opcodeInstr (op : Byte) : Option Instr :=
  (opcodeMap.find? fun row => row.1 == op).map (·.2)

/-- Decoding of a command word (rule R91, without the `FAULT` test, which is the dispatcher's). -/
def decode (w : Word) : Except DecodeReject Instr :=
  if fieldRsv w ≠ 0 then .error .reservedBits
  else match opcodeInstr (fieldOpcode w) with
    | some i => .ok i
    | none => .error .unassignedOpcode

/-- The word of a command (the column `word` of rule R92). -/
def encode : Instr → Word
  | .nop => 0x00000000
  | .reset => 0x00000001
  | .freqClr => 0x00000010
  | .freqAcc => 0x00000011
  | .buildTree => 0x00000012
  | .genCodes => 0x00000013
  | .decodeOne => 0x00000014
  | .treeWr => 0x00000020
  | .treeRd => 0x00000021
  | .pack => 0x00000030
  | .unpack => 0x00000031
  | .encFull => 0x00000040
  | .decFull => 0x00000041
  | .encDelta => 0x00000042
  | .decDelta => 0x00000043
  | .put32 => 0x00000050
  | .get32 => 0x00000051

/-- The word whose bits are `w` in the numbering of spec/opcode_table.json; the bits at and above `nbits` are 0. -/
def tableWord (nbits w : Nat) : Word := BitVec.ofNat 32 (w % 2 ^ nbits)

/-- What the decoder reads from a word of spec/opcode_table.json. -/
def decodeTableWord (nbits w : Nat) : Option Instr :=
  match decode (tableWord nbits w) with
  | .ok i => some i
  | .error _ => none

end Sys2Proof
end

