-- ==== Sys2Proof/Config.lean ====
section
/-! DEFINITION. The fixed sizes of the block, its open parameters (rule R7), and the free values the spec leaves unspecified (93_implementation_defined.md U1 and U2). -/

namespace Sys2Proof

/-- `FIELD_MAX`, the largest legal count (rule R7). -/
abbrev fieldMax : Nat := 2147483647

/-- `NODE_CAP`, the most nodes the tree store holds (rule R7). -/
abbrev nodeCap : Nat := 511

/-- The open parameters of rule R7: one value per part, fixed for its life.
Their constraints are `Config.WellFormed` in WellFormed.lean. -/
structure Config where
  /-- `CELL_CAP`, most cells in `CUR` and in `PREV`. -/
  cellCap : Nat
  /-- `BIT_CAP`, most bits in `BITS`. -/
  bitCap : Nat
  /-- `IN_CAP`, bytes in the IN window. -/
  inCap : Nat
  /-- `OUT_CAP`, bytes in the OUT window. -/
  outCap : Nat
  /-- `IN_BASE`, byte offset of `INB[0]`. -/
  inBase : Nat
  /-- `OUT_BASE`, byte offset of `OUTB[0]`. -/
  outBase : Nat
  /-- `CUR_BASE`, byte offset of `CURW[0]`. -/
  curBase : Nat
  deriving DecidableEq, Repr

/-- Rule R8's "unbounded capacities": the four capacities at their largest values.
DESIGN CHOICE (assumption 2): the three bases are the lowest word-aligned offsets that do not overlap. -/
def Config.unbounded : Config where
  cellCap := 2147483647
  bitCap := 2147483647
  inCap := 4294967295
  outCap := 4294967295
  inBase := 0x100
  outBase := 0x100000100
  curBase := 0x200000100

/-- The byte `INB[k]` holds after the `epoch`-th reset and before anything writes it: unspecified (rule R48, U1).
A free value (assumption 3): no proof can see it. -/
opaque Config.freeInByte : (epoch k : Nat) → Byte

/-- The byte a host read of `OUTB[k]` gives where no command has written since the `epoch`-th reset: unspecified (rule R45, U1, U2).
A free value (assumption 3). -/
opaque Config.freeOutByte : (epoch k : Nat) → Byte

/-- The word `CURW[i]` holds after the `epoch`-th reset and before anything writes it: unspecified (rule R48, U1).
A free value (assumption 3). -/
opaque Config.freeCurWord : (epoch i : Nat) → Word

end Sys2Proof
end

