-- ==== Sys2Proof/Machine/State.lean ====
section
/-! DEFINITION. The state of the block (10_state.md) as plain data, its reset value, the accesses a host makes, and the reasons a step can stop. -/

namespace Sys2Proof.Machine

/-- A cell: one symbol and one colour (rule R12). -/
structure Cell where
  sym : Byte
  r : Byte
  g : Byte
  b : Byte
  deriving DecidableEq, Repr

/-- A frame: an ordered sequence of cells (rule R12). -/
abbrev Frame := List Cell

/-- A node of the Huffman tree (rules R12 and R39): a leaf owns one symbol, an internal node exactly two children. -/
inductive Node where
  | leaf (sym : Byte)
  | internal (left right : Node)
  deriving DecidableEq, Repr

/-- A table with one entry for each of the 256 symbols (rules R38 and R40). -/
abbrev Table (α : Type) := Vector α 256

/-- A window's contents: the locations written since reset with their values, locations strictly rising (`Memory.wf`).
A location that is not listed holds no value of the model's choosing: reading it gives a free value (assumption 3).
The three windows are kept apart, `INB` and `OUTB` by byte and `CURW` by word (assumption 12).
`Memory 8` is a list of `Host.Cell`. -/
abbrev Memory (w : Nat) := List (Nat × BitVec w)

/-- The fault causes of rule R240. -/
inductive Cause where
  /-- Code 1, raised by BUILD_TREE. -/
  | emptyInput
  /-- Code 2, raised by GET32, TREE_RD, UNPACK, DEC_FULL, DEC_DELTA. -/
  | truncatedStream
  /-- Code 3, raised by DECODE_ONE, DEC_FULL, DEC_DELTA. -/
  | malformedTree
  /-- Code 4, raised by DEC_DELTA. -/
  | indexOutOfRange
  /-- Code 5, never raised by the block (rule R245). -/
  | invalidSource
  /-- Code 6, raised by ENC_FULL, ENC_DELTA. -/
  | missingCode
  /-- Code 7, raised by GET32, UNPACK, TREE_RD, DEC_FULL, DEC_DELTA. -/
  | reservedValue
  /-- Code 8, raised by every command that meets a capacity. -/
  | capacityExceeded
  /-- Code 9, raised by a write of an illegal word to `CMD`. -/
  | illegalCommand
  /-- Code 10, raised by GEN_CODES, TREE_WR, ENC_FULL, ENC_DELTA, DEC_DELTA. -/
  | illegalState
  deriving DecidableEq, Repr

/-- `raise K(a, b)` of rule R14: the cause and its two diagnostic words, not yet saturated. -/
structure Raise where
  cause : Cause
  info0 : Nat
  info1 : Nat
  deriving DecidableEq, Repr

/-- The registers of the map of rule R47, by name. -/
inductive Reg where
  | cmd | status | err | errInfo0 | errInfo1 | cnt | sym | bc | blen | clen | plen | ilen | ipos | olen
  deriving DecidableEq, Repr

/-- One access of the host to the register and window space (rules R46 and R62): `MemRead(addr, n)` or `MemWrite(addr, n, v)`.
`addr` is a byte offset from the block's base, `width` the number of bytes, and of `value` the low `8 * width` bits are written (assumption 9). -/
inductive HostAccess where
  | read (addr width : Nat)
  | write (addr width : Nat) (value : Word)
  deriving DecidableEq, Repr

/-- A step never stops with a fault: the block's own faults are next states (rule R250) and nothing in it is ever stuck (rule R290).
So this type has no constructor, which is safe: nothing raises one (assumption 10). -/
inductive Fault where
  deriving DecidableEq, Repr

/-- Why the model refuses a step. -/
inductive Refusal where
  /-- Raised by an arm of `exec` for a command without a meaning; no arm is left that does. Safe. -/
  | notModelled (mnemonic : String)
  /-- Raised by a host access to a register that is not an aligned 32-bit word (rule R34, U9 `refuse`). Safe. -/
  | registerAccessNotDefined
  /-- Raised by a host access to a window of another width or alignment than rule R62 gives it (U9 `refuse`). Safe. -/
  | windowAccessNotDefined
  /-- Raised by a host access outside the registers and the three windows, past a window's capacity included (U9 `refuse`). Safe. -/
  | addressNotMapped
  deriving DecidableEq, Repr

/-- The whole state of the block (rule R20), then the model's own fields. -/
structure State where
  /-- `STATUS` bit 0 (rule R22). -/
  treeV : Bool
  /-- `STATUS` bit 1 (rule R22). -/
  codeV : Bool
  /-- `STATUS` bit 2 (rule R22). -/
  prevV : Bool
  /-- `STATUS` bit 3 (rule R22). -/
  fault : Bool
  /-- `ERR`, bits 7 to 0 (rule R23). -/
  err : Byte
  /-- `ERRINFO0` (rule R24). -/
  errInfo0 : Word
  /-- `ERRINFO1` (rule R24). -/
  errInfo1 : Word
  /-- `CNT` (rule R25). -/
  cnt : Word
  /-- `SYM`, bits 7 to 0 (rule R26). -/
  sym : Byte
  /-- `BC` (rule R27). -/
  bc : Word
  /-- `BLEN` (rule R28). -/
  blen : Word
  /-- `CLEN` (rule R29). -/
  clen : Word
  /-- `PLEN` (rule R30). -/
  plen : Word
  /-- `ILEN` (rule R31). -/
  ilen : Word
  /-- `IPOS` (rule R32). -/
  ipos : Word
  /-- `OLEN` (rule R33). -/
  olen : Word
  /-- `FREQ` (rule R38). -/
  freq : Table (BitVec 64)
  /-- `TREE` (rule R39). -/
  tree : Option Node
  /-- `CODE` (rule R40). -/
  code : Table (Option Bits)
  /-- `BITS` (rule R41). -/
  bits : Bits
  /-- `CURW` (rule R42), keyed by word index. -/
  curw : Memory 32
  /-- `PREV` (rule R43). -/
  prev : Frame
  /-- `INB` (rule R44), keyed by byte index. -/
  inb : Memory 8
  /-- `OUTB` (rule R45), keyed by byte index. -/
  outb : Memory 8
  /-- The model's own: the part's open parameters (rule R7), which no step changes (assumption 2). -/
  cfg : Config
  /-- The model's own: the number of RESET commands since power-on, which selects the free window contents (assumption 3). -/
  epoch : Nat
  /-- The model's own: the host accesses still to come, the next one first (rule R77, assumption 1). -/
  hostQueue : List HostAccess
  /-- The model's own: the value the host's last read returned (rule R82, assumption 4). -/
  rdata : Word
  deriving DecidableEq, Repr

/-- The state after power-on (rules R48 and R270), with nothing asked of the block yet (rule R271).
DESIGN CHOICE: the parameters (assumption 2), the epoch (assumption 3) and the value last read (assumption 4). -/
def State.reset : State where
  treeV := false
  codeV := false
  prevV := false
  fault := false
  err := 0
  errInfo0 := 0
  errInfo1 := 0
  cnt := 0
  sym := 0
  bc := 0
  blen := 0
  clen := 0
  plen := 0
  ilen := 0
  ipos := 0
  olen := 0
  freq := Vector.replicate 256 0
  tree := none
  code := Vector.replicate 256 none
  bits := []
  curw := []
  prev := []
  inb := []
  outb := []
  cfg := Config.unbounded
  epoch := 0
  hostQueue := []
  rdata := 0

end Sys2Proof.Machine
end

