-- ==== Sys2Proof/Machine/Flags.lean ====
section
/-! DEFINITION. The four flags of `STATUS` (rules R22 and R37): the word they read as, and the updates that write them. -/

namespace Sys2Proof.Machine

/-- The `STATUS` word of four flags (rule R22). -/
def statusOf (treeV codeV prevV fault : Bool) : Word :=
  BitVec.ofNat 32 (treeV.toNat + 2 * codeV.toNat + 4 * prevV.toNat + 8 * fault.toNat)

/-- `STATUS` (rule R22). -/
def status (s : State) : Word := statusOf s.treeV s.codeV s.prevV s.fault

/-- `TREE <- t; TREE_V <- 1; CODE_V <- 0`: what BUILD_TREE and TREE_RD do (rules R37 and R80). -/
def State.setTree (s : State) (t : Node) : State :=
  { s with tree := some t, treeV := true, codeV := false }

/-- `CODE <- c; CODE_V <- 1`: what GEN_CODES does (rule R37). -/
def State.setCode (s : State) (c : Table (Option Bits)) : State := { s with code := c, codeV := true }

/-- `PREV <- f; PLEN <- n` (rule R43). -/
def State.setPrev (s : State) (f : Frame) (n : Word) : State := { s with prev := f, plen := n }

/-- `PREV_V <- 1`: what ENC_FULL and DEC_FULL do (rule R37). -/
def State.markPrev (s : State) : State := { s with prevV := true }

/-- The tree the flags say is held: none when `TREE_V = 0` (rule R22).
A state with `TREE_V = 1` and no tree is never reached (rule R49 (a)); DESIGN CHOICE (assumption 6). -/
def heldTree (s : State) : Option Node := if s.treeV then s.tree else none

end Sys2Proof.Machine
end

