-- ==== Sys2Proof/Machine/Operands.lean ====
section
/-! DEFINITION. How numbers, cells and tables are written as bits, bytes and words (rules R10 to R12, R42, R60 to R64), and how a table is read and made. -/

namespace Sys2Proof.Machine

/-- `bitsN(v)`: the `n` low bits of `v`, most significant first (rule R10). -/
def bitsN : Nat → Nat → Bits
  | 0, _ => []
  | n + 1, v => v.testBit n :: bitsN n v

/-- `bits8(v)` of a byte (rules R10 and R64). -/
def bits8 (v : Byte) : Bits := bitsN 8 v.toNat

/-- `bits32(v)` (rules R10 and R64). -/
def bits32 (v : Nat) : Bits := bitsN 32 v

/-- `val(b)`: the number whose binary digits are `b`, most significant first (rule R10). -/
def val : Bits → Nat
  | [] => 0
  | b :: bs => b.toNat * 2 ^ bs.length + val bs

/-- `le32(v)`: four bytes, least significant first (rules R11 and R60). -/
def le32 (v : Nat) : List Byte :=
  [BitVec.ofNat 8 v, BitVec.ofNat 8 (v / 256), BitVec.ofNat 8 (v / 65536), BitVec.ofNat 8 (v / 16777216)]

/-- `unle32(b0, b1, b2, b3)` (rule R11). -/
def unle32 (b0 b1 b2 b3 : Byte) : Nat :=
  b0.toNat + 256 * b1.toNat + 65536 * b2.toNat + 16777216 * b3.toNat

/-- `ceil(n/8)` (rule R9). -/
def ceil8 (n : Nat) : Nat := (n + 7) / 8

/-- Data byte `j` of the packed form of `b` (rule R166): bit `8j + i` of `b` is its bit `7 - i`, and bits past the end are 0. -/
def packByte (b : Bits) (j : Nat) : Byte :=
  BitVec.ofNat 8 (((List.range 8).map fun i => (b.getD (8 * j + i) false).toNat * 2 ^ (7 - i)).sum)

/-- `packBytes(b)` (rule R166). -/
def packBytes (b : Bits) : List Byte := (List.range (ceil8 b.length)).map (packByte b)

/-- `unpackBits(d, n)` (rule R171). -/
def unpackBits (d : List Byte) (n : Nat) : Bits :=
  (List.range n).map fun k => (d.getD (k / 8) 0).getLsbD (7 - k % 8)

/-- `cell(w)` (rule R42). -/
def cellOfWord (w : Word) : Cell where
  sym := w.extractLsb' 24 8
  r := w.extractLsb' 16 8
  g := w.extractLsb' 8 8
  b := w.extractLsb' 0 8

/-- `word(sym, r, g, b)` (rule R42). -/
def wordOfCell (c : Cell) : Word :=
  BitVec.ofNat 32 (16777216 * c.sym.toNat + 65536 * c.r.toNat + 256 * c.g.toNat + c.b.toNat)

/-- The 256 symbols in ascending order, as unsigned numbers. -/
def allSymbols : List Byte := (List.range 256).map (BitVec.ofNat 8)

/-- The entry of symbol `s`. -/
def Table.at {α : Type} (t : Table α) (s : Byte) : α := t[s.toNat]'s.isLt

/-- The table whose entry of symbol `s` is `f s`. -/
def Table.make {α : Type} (f : Byte → α) : Table α := ⟨(allSymbols.map f).toArray, by simp [allSymbols]⟩

/-- The table `t` with the entry of symbol `s` replaced. -/
def Table.put {α : Type} (t : Table α) (s : Byte) (x : α) : Table α := t.set s.toNat x s.isLt

/-- The number of nodes of a tree (rule R39). -/
def Node.size : Node → Nat
  | .leaf _ => 1
  | .internal l r => l.size + r.size + 1

/-- The symbols of a tree's leaves, left to right. -/
def Node.leaves : Node → List Byte
  | .leaf s => [s]
  | .internal l r => l.leaves ++ r.leaves

/-- The depth of a tree's deepest leaf. -/
def Node.depth : Node → Nat
  | .leaf _ => 0
  | .internal l r => max l.depth r.depth + 1

/-- The node reached from a node by following `left` on 0 and `right` on 1 (the walk of rule R17); none past a leaf. -/
def Node.follow : Node → Bits → Option Node
  | t, [] => some t
  | .leaf _, _ :: _ => none
  | .internal l r, b :: p => if b then r.follow p else l.follow p

/-- The symbol whose code is the whole of `p`: the leaf at the end of the path `p`, or in a single-leaf tree the one code `0` (rules R134 and R139). -/
def Node.symbolAt (t : Node) (p : Bits) : Option Byte :=
  match t with
  | .leaf s => if p = [false] then some s else none
  | .internal l r => match (Node.internal l r).follow p with
    | some (.leaf s) => some s
    | _ => none

/-- The path to the last leaf, left to right, that carries the symbol `x` (rule R134, last sentence). -/
def Node.lastPath (x : Byte) : Node → Option Bits
  | .leaf s => if s = x then some [] else none
  | .internal l r => match r.lastPath x with
    | some p => some (true :: p)
    | none => (l.lastPath x).map (false :: ·)

end Sys2Proof.Machine
end

