-- ==== Sys2Proof/Machine/Ops.lean ====
section
/-! DEFINITION. The operations the commands share: windows as memories, the stream primitives (20_memory.md rules R66 to R72), fault entry (rule R250), the sticky fault (rule R251) and reset (rule R231). -/

namespace Sys2Proof.Machine

/-- The canonical form of a window: locations strictly rising. -/
abbrev Memory.wf {w : Nat} (m : Memory w) : Prop := m.Pairwise fun a b => a.1 < b.1

/-- The value last written at `k`, none when nothing has been written there since reset. -/
def Memory.find? {w : Nat} : Memory w → Nat → Option (BitVec w)
  | [], _ => none
  | (a, v) :: m, k => if a = k then some v else Memory.find? m k

/-- The window after `v` is written at `k`. -/
def Memory.write {w : Nat} : Memory w → Nat → BitVec w → Memory w
  | [], k, v => [(k, v)]
  | (a, x) :: m, k, v =>
    if k < a then (k, v) :: (a, x) :: m
    else if k = a then (k, v) :: m
    else (a, x) :: Memory.write m k v

/-- The window after the values `vs` are written at `k`, `k + 1`, and on. -/
def Memory.writeRun {w : Nat} : Memory w → Nat → List (BitVec w) → Memory w
  | m, _, [] => m
  | m, k, v :: vs => Memory.writeRun (Memory.write m k v) (k + 1) vs

/-- `INB[k]` (rule R44); a free value where nothing has been written since reset (U1). -/
def inbByte (s : State) (k : Nat) : Byte := (Memory.find? s.inb k).getD (Config.freeInByte s.epoch k)

/-- `OUTB[k]` (rule R45); a free value at and above `OLEN` (U2). -/
def outbByte (s : State) (k : Nat) : Byte :=
  if k < s.olen.toNat then (Memory.find? s.outb k).getD (Config.freeOutByte s.epoch k)
  else Config.freeOutByte s.epoch k

/-- `CURW[i]` (rule R42); a free value where nothing has been written since reset (U1). -/
def curWord (s : State) (i : Nat) : Word := (Memory.find? s.curw i).getD (Config.freeCurWord s.epoch i)

/-- `CUR`, the frame `cell(CURW[0]), ..., cell(CURW[CLEN-1])` (rules R13 and R42). -/
def cur (s : State) : Frame := (List.range s.clen.toNat).map fun i => cellOfWord (curWord s i)

/-- The container or output stream so far, `OUTB[0..OLEN)` (rule R45). -/
def out (s : State) : List Byte := (List.range s.olen.toNat).map (outbByte s)

/-! ### Faults -/

/-- The code of a cause (rule R240). -/
def Cause.code : Cause → Byte
  | .emptyInput => 1
  | .truncatedStream => 2
  | .malformedTree => 3
  | .indexOutOfRange => 4
  | .invalidSource => 5
  | .missingCode => 6
  | .reservedValue => 7
  | .capacityExceeded => 8
  | .illegalCommand => 9
  | .illegalState => 10

/-- `min(a, 0xFFFFFFFF)`, the one saturating operation (rules R84 and R250). -/
def sat32 (a : Nat) : Word := BitVec.ofNat 32 (min a 0xFFFFFFFF)

/-- Fault entry (rule R250): the cause, its two words and the flag are written, and nothing else. -/
def State.raise (s : State) (r : Raise) : State :=
  { s with err := r.cause.code, errInfo0 := sat32 r.info0, errInfo1 := sat32 r.info1, fault := true }

/-- `require c else raise r` (rule R14). -/
def require (c : Prop) [Decidable c] (r : Raise) : Except Raise Unit := if c then .ok () else .error r

/-- One command as one atomic step (rules R15, R91 and R251).
While `FAULT = 1` it is ignored; otherwise its effect is done whole, or its first `raise` is the only thing done. -/
def runCommand (s : State) (effect : Except Raise State) : Host.Outcome State Fault Refusal :=
  if s.fault then .next s
  else match effect with
    | .ok t => .next t
    | .error r => .next (s.raise r)

/-- The fault of an illegal word (rules R91 and R249), entered as any other. -/
def illegalCommand (w : Word) (s : State) : Host.Outcome State Fault Refusal :=
  runCommand s (.error ⟨.illegalCommand, w.toNat, 0⟩)

/-- Reset, the only way out of a fault (rules R231, R256 and R270): every piece of state takes its reset value.
The parameters and the host's own side stay, and the windows' contents become unspecified anew (assumption 3). -/
def State.afterReset (s : State) : State :=
  { State.reset with cfg := s.cfg, epoch := s.epoch + 1, hostQueue := s.hostQueue, rdata := s.rdata }

/-! ### The input stream -/

/-- `InAvail()`, which clamps at 0 (rule R66). -/
def inAvail (s : State) : Nat := s.ilen.toNat - s.ipos.toNat

/-- `InByte(k)` (rule R67). -/
def inByte (s : State) (k : Nat) : Byte := inbByte s (s.ipos.toNat + k)

/-- `In32(k)` (rule R68). -/
def in32 (s : State) (k : Nat) : Nat := unle32 (inByte s k) (inByte s (k + 1)) (inByte s (k + 2)) (inByte s (k + 3))

/-- `InByte(k), ..., InByte(k + n - 1)`. -/
def inBytes (s : State) (k n : Nat) : List Byte := (List.range n).map fun i => inByte s (k + i)

/-- The input stream holds the bytes `bs` from offset `k` of `IPOS` on. -/
def holds (s : State) (k : Nat) (bs : List Byte) : Prop :=
  k + bs.length ≤ inAvail s ∧ inBytes s k bs.length = bs

/-- `IPOS <- IPOS + n` (rule R69). -/
def State.consume (s : State) (n : Nat) : State := { s with ipos := BitVec.ofNat 32 (s.ipos.toNat + n) }

/-- The test of `ILEN` before any read of the stream (rules R69 and R253). -/
def requireInput (s : State) : Except Raise Unit :=
  require (s.ilen.toNat ≤ s.cfg.inCap) ⟨.capacityExceeded, s.ilen.toNat, s.cfg.inCap⟩

/-- The first `n` bytes of the stream must be there, else TruncatedStream in bytes (rule R242). -/
def requireBytes (s : State) (n : Nat) : Except Raise Unit :=
  require (n ≤ inAvail s) ⟨.truncatedStream, n, inAvail s⟩

/-- The test of `CLEN` in a command that reads `CUR` (rule R253). -/
def requireFrame (s : State) : Except Raise Unit :=
  require (s.clen.toNat ≤ s.cfg.cellCap) ⟨.capacityExceeded, s.clen.toNat, s.cfg.cellCap⟩

/-! ### The output stream -/

/-- `OutAppend(bs)` (rule R70). -/
def outAppend (s : State) (bs : List Byte) : Except Raise State := do
  require (s.olen.toNat + bs.length ≤ s.cfg.outCap) ⟨.capacityExceeded, s.olen.toNat + bs.length, s.cfg.outCap⟩
  .ok { s with
    outb := Memory.writeRun s.outb s.olen.toNat bs
    olen := BitVec.ofNat 32 (s.olen.toNat + bs.length) }

/-! ### The bit sequence -/

/-- `BitsRead(c, n)`, that is `BITS[c .. c+n)` (rule R72). -/
def bitsRead (s : State) (c n : Nat) : Bits := (s.bits.drop c).take n

/-- `BitsAvail(c)`, which clamps at 0 (rule R72). -/
def bitsAvail (s : State) (c : Nat) : Nat := s.blen.toNat - c

/-- The bits of `BITS` from position `c` on. -/
def rest (s : State) (c : Nat) : Bits := s.bits.drop c

/-- `BITS[c]`. -/
def bitAt (s : State) (c : Nat) : Bool := s.bits.getD c false

/-- A fixed-width field of `n` bits must lie within `BITS`, else TruncatedStream in bits (rules R72 and R242). -/
def requireBits (s : State) (c n : Nat) : Except Raise Unit :=
  require (c + n ≤ s.blen.toNat) ⟨.truncatedStream, n, bitsAvail s c⟩

/-- `|bits| <= BIT_CAP` (rule R71). -/
def requireBitCap (s : State) (n : Nat) : Except Raise Unit :=
  require (n ≤ s.cfg.bitCap) ⟨.capacityExceeded, n, s.cfg.bitCap⟩

/-- `BITS <- bits; BLEN <- |bits|; BC <- 0` (rules R27 and R71). -/
def State.setBits (s : State) (bits : Bits) : State :=
  { s with bits := bits, blen := BitVec.ofNat 32 bits.length, bc := 0 }

end Sys2Proof.Machine
end

