-- ==== Sys2Proof/Machine/BitPacker.lean ====
section
/-! DEFINITION. The bit packer (42_bit_packer.md): PACK and UNPACK. -/

namespace Sys2Proof.Machine

/-- The PACK record of a bit sequence of `n` bits (rules R99 and R165). -/
def packRecord (n : Nat) (bits : Bits) : List Byte := le32 n ++ packBytes bits ++ [BitVec.ofNat 8 (n % 8)]

/-- The effect of PACK (rule R165). -/
def packEffect (s : State) : Except Raise State := outAppend s (packRecord s.blen.toNat s.bits)

/-- PACK (rule R165). -/
def execPack (s : State) : Host.Outcome State Fault Refusal := runCommand s (packEffect s)

/-- The effect of UNPACK (rule R170), its tests in the rule's order. -/
def unpackEffect (s : State) : Except Raise State := do
  requireInput s
  requireBytes s 4
  let n := in32 s 0
  require (n ≤ fieldMax) ⟨.reservedValue, n, s.ipos.toNat⟩
  requireBitCap s n
  let nb := ceil8 n
  requireBytes s (4 + nb + 1)
  .ok ((s.setBits (unpackBits (inBytes s 4 nb) n)).consume (4 + nb + 1))

/-- UNPACK (rule R170). -/
def execUnpack (s : State) : Host.Outcome State Fault Refusal := runCommand s (unpackEffect s)

end Sys2Proof.Machine
end

