-- ==== Sys2Proof/Machine/Container.lean ====
section
/-! DEFINITION. The container fields (44_container_sequencing.md section 1): PUT32 and GET32. -/

namespace Sys2Proof.Machine

/-- The effect of PUT32 (rule R210). -/
def put32Effect (s : State) : Except Raise State := do
  require (s.cnt.toNat ≤ fieldMax) ⟨.capacityExceeded, s.cnt.toNat, fieldMax⟩
  outAppend s (le32 s.cnt.toNat)

/-- PUT32 (rule R210). -/
def execPut32 (s : State) : Host.Outcome State Fault Refusal := runCommand s (put32Effect s)

/-- The effect of GET32 (rule R211). -/
def get32Effect (s : State) : Except Raise State := do
  requireInput s
  requireBytes s 4
  let v := in32 s 0
  require (v ≤ fieldMax) ⟨.reservedValue, v, s.ipos.toNat⟩
  .ok ({ s with cnt := BitVec.ofNat 32 v }.consume 4)

/-- GET32 (rule R211). -/
def execGet32 (s : State) : Host.Outcome State Fault Refusal := runCommand s (get32Effect s)

end Sys2Proof.Machine
end

