-- ==== Sys2Proof/Machine/Huffman.lean ====
section
/-! DEFINITION. The Huffman coder (40_huffman_coder.md): FREQ_CLR, FREQ_ACC, BUILD_TREE, GEN_CODES, DECODE_ONE, and the walk the frame decoders share. -/

namespace Sys2Proof.Machine

/-! ### Frequency table -/

/-- `n[s]`: the number of cells of `f` with symbol `s` (rule R121). -/
def symCount (f : Frame) (s : Byte) : Nat := f.countP fun c => c.sym == s

/-- The table with the symbols of `f` added, or the fault of the first counter that would pass `2^64 - 1` (rule R121). -/
def accumulate (freq : Table (BitVec 64)) (f : Frame) : Except Raise (Table (BitVec 64)) :=
  match allSymbols.find? fun s => decide (2 ^ 64 ≤ (Table.at freq s).toNat + symCount f s) with
  | some s => .error ⟨.capacityExceeded, (Table.at freq s).toNat + symCount f s, 2 ^ 64 - 1⟩
  | none => .ok (Table.make fun s => BitVec.ofNat 64 ((Table.at freq s).toNat + symCount f s))

/-- The effect of FREQ_CLR (rule R120). -/
def freqClrEffect (s : State) : Except Raise State := .ok { s with freq := Table.make fun _ => 0 }

/-- FREQ_CLR (rule R120). -/
def execFreqClr (s : State) : Host.Outcome State Fault Refusal := runCommand s (freqClrEffect s)

/-- The effect of FREQ_ACC (rule R121). -/
def freqAccEffect (s : State) : Except Raise State := do
  requireFrame s
  let freq ← accumulate s.freq (cur s)
  .ok { s with freq := freq }

/-- FREQ_ACC (rule R121). -/
def execFreqAcc (s : State) : Host.Outcome State Fault Refusal := runCommand s (freqAccEffect s)

/-! ### Tree builder -/

/-- An entry of the priority structure of rule R128. -/
structure Entry where
  weight : Nat
  seq : Nat
  node : Node
  deriving DecidableEq, Repr

/-- The order of rule R128: weight first, then sequence number. -/
def Entry.before (a b : Entry) : Bool := a.weight < b.weight || (a.weight == b.weight && a.seq < b.seq)

/-- The least entry of a queue, and the queue without it. -/
def extractLeast : List Entry → Option (Entry × List Entry)
  | [] => none
  | e :: es => match extractLeast es with
    | none => some (e, [])
    | some (m, rest) => if e.before m then some (e, es) else some (m, e :: rest)

/-- The entries of the symbols of `l` with a count above 0, numbered from `seq` (rule R128). -/
def initialEntries (freq : Table (BitVec 64)) : List Byte → Nat → List Entry
  | [], _ => []
  | s :: l, seq =>
    if 0 < (Table.at freq s).toNat then ⟨(Table.at freq s).toNat, seq, .leaf s⟩ :: initialEntries freq l (seq + 1)
    else initialEntries freq l seq

/-- The loop of rule R128, at most `fuel` rounds: the two least entries are merged until one is left. -/
def mergeEntries : Nat → Nat → List Entry → List Entry
  | 0, _, q => q
  | fuel + 1, seq, q => match extractLeast q with
    | none => q
    | some (a, q1) => match extractLeast q1 with
      | none => q
      | some (b, q2) => mergeEntries fuel (seq + 1) (⟨a.weight + b.weight, seq, .internal a.node b.node⟩ :: q2)

/-- `buildDet(FREQ)` (rule R128), none when every count is 0.
Each round leaves one entry less, so as many rounds as entries are enough. -/
def buildDet (freq : Table (BitVec 64)) : Option Node :=
  let q := initialEntries freq allSymbols 0
  (mergeEntries q.length q.length q).head?.map (·.node)

/-- The effect of BUILD_TREE under `TIE_RULE = det` (rules R125 and R128). -/
def buildTreeEffect (s : State) : Except Raise State :=
  match buildDet s.freq with
  | none => .error ⟨.emptyInput, 0, 0⟩
  | some t => .ok (s.setTree t)

/-- BUILD_TREE (rule R125). -/
def execBuildTree (s : State) : Host.Outcome State Fault Refusal := runCommand s (buildTreeEffect s)

/-! ### Code table -/

/-- `visit(node, path)` of rule R134, on the table made so far: left before right, a later leaf overwrites. -/
def visitCodes : Node → Bits → Table (Option Bits) → Table (Option Bits)
  | .leaf s, path, table => Table.put table s (some path)
  | .internal l r, path, table => visitCodes r (path ++ [true]) (visitCodes l (path ++ [false]) table)

/-- `genCodes(T)` (rule R134): the single-leaf tree has the one-bit code `0`. -/
def genCodes : Node → Table (Option Bits)
  | .leaf s => Table.put (Table.make fun _ => none) s (some [false])
  | .internal l r => visitCodes (.internal l r) [] (Table.make fun _ => none)

/-- The effect of GEN_CODES (rule R133). -/
def genCodesEffect (s : State) : Except Raise State :=
  match heldTree s with
  | none => .error ⟨.illegalState, 0x00000013, (status s).toNat⟩
  | some t => .ok (s.setCode (genCodes t))

/-- GEN_CODES (rule R133). -/
def execGenCodes (s : State) : Host.Outcome State Fault Refusal := runCommand s (genCodesEffect s)

/-! ### Tree walker -/

/-- The walk of rule R139 from a node at bit position `p`; `bad` is the fault when the bits run out. -/
def walk (s : State) (bad : Raise) : Node → Nat → Except Raise (Byte × Nat)
  | .leaf sym, p => .ok (sym, p)
  | .internal l r, p =>
    if p + 1 ≤ s.blen.toNat then if bitAt s p then walk s bad r (p + 1) else walk s bad l (p + 1)
    else .error bad

/-- `decodeOne(c, j)` (rule R139): the symbol and the position after the last bit consumed. -/
def decodeOne (s : State) (c j : Nat) : Except Raise (Byte × Nat) :=
  match heldTree s with
  | none => .error ⟨.malformedTree, j, c⟩
  | some (.leaf sym) => do
    require (c + 1 ≤ s.blen.toNat) ⟨.malformedTree, j, c⟩
    require (bitAt s c = false) ⟨.malformedTree, j, c⟩
    .ok (sym, c + 1)
  | some (.internal l r) => walk s ⟨.malformedTree, j, c⟩ (.internal l r) c

/-- The effect of DECODE_ONE (rule R138). -/
def decodeOneEffect (s : State) : Except Raise State := do
  let (sym, c) ← decodeOne s s.bc.toNat 0
  .ok { s with sym := sym, bc := BitVec.ofNat 32 c }

/-- DECODE_ONE (rule R138). -/
def execDecodeOne (s : State) : Host.Outcome State Fault Refusal := runCommand s (decodeOneEffect s)

end Sys2Proof.Machine
end

