-- ==== Sys2Proof/Machine/FrameCodec.lean ====
section
/-! DEFINITION. The frame codec (43_frame_codec.md): ENC_FULL, DEC_FULL, ENC_DELTA, DEC_DELTA. -/

namespace Sys2Proof.Machine

/-! ### Encoding -/

/-- `cellBits(sym, r, g, b)` (rules R102 and R181); used only where the symbol has a code. -/
def cellBits (code : Table (Option Bits)) (c : Cell) : Bits :=
  let k := (Table.at code c.sym).getD []
  bitsN 8 k.length ++ k ++ bits8 c.r ++ bits8 c.g ++ bits8 c.b

/-- `deltaBits(i, cell)` (rules R103 and R181). -/
def deltaBits (code : Table (Option Bits)) (p : Cell × Nat) : Bits := bits32 p.2 ++ cellBits code p.1

/-- MissingCode for the lowest position that needs a code and has none (rules R183 and R184); `ps` are cells with their positions, ascending. -/
def requireCodes (code : Table (Option Bits)) (ps : List (Cell × Nat)) : Except Raise Unit :=
  match ps.find? fun p => (Table.at code p.1.sym).isNone with
  | some p => .error ⟨.missingCode, p.2, p.1.sym.toNat⟩
  | none => .ok ()

/-- The effect of ENC_FULL (rule R185). -/
def encFullEffect (s : State) : Except Raise State := do
  require (s.codeV = true) ⟨.illegalState, 0x00000040, (status s).toNat⟩
  requireFrame s
  requireCodes s.code (cur s).zipIdx
  let bits := (cur s).flatMap (cellBits s.code)
  requireBitCap s bits.length
  let t ← outAppend s (le32 s.clen.toNat)
  .ok ({ t.setBits bits with cnt := s.clen }.setPrev (cur s) s.clen).markPrev

/-- ENC_FULL (rule R185). -/
def execEncFull (s : State) : Host.Outcome State Fault Refusal := runCommand s (encFullEffect s)

/-- The changed cells of a frame with their positions, ascending (rules R195 and R196): position `i` is changed when `i >= PLEN` or the cells differ. -/
def changedCells (prev : Frame) (plen : Nat) (f : Frame) : List (Cell × Nat) :=
  f.zipIdx.filter fun p => decide (plen ≤ p.2) || decide (prev[p.2]? ≠ some p.1)

/-- The effect of ENC_DELTA (rule R195). -/
def encDeltaEffect (s : State) : Except Raise State := do
  require (s.codeV = true ∧ s.prevV = true) ⟨.illegalState, 0x00000042, (status s).toNat⟩
  requireFrame s
  let ch := changedCells s.prev s.plen.toNat (cur s)
  requireCodes s.code ch
  let bits := ch.flatMap (deltaBits s.code)
  requireBitCap s bits.length
  let t ← outAppend s (le32 ch.length)
  .ok ({ t.setBits bits with cnt := BitVec.ofNat 32 ch.length }.setPrev (cur s) s.clen)

/-- ENC_DELTA (rule R195). -/
def execEncDelta (s : State) : Host.Outcome State Fault Refusal := runCommand s (encDeltaEffect s)

/-! ### Decoding -/

/-- An 8-bit field at bit `c` (rules R64 and R182). -/
def decodeField8 (s : State) (c : Nat) : Except Raise Nat := do
  requireBits s c 8
  .ok (val (bitsRead s c 8))

/-- `decodeCell(c, j)` (rule R182). -/
def decodeCell (s : State) (c j : Nat) : Except Raise (Cell × Nat) := do
  let len ← decodeField8 s c
  let (sym, p) ← decodeOne s (c + 8) j
  require (p - (c + 8) = len) ⟨.malformedTree, j, c + 8⟩
  let r ← decodeField8 s p
  let g ← decodeField8 s (p + 8)
  let b ← decodeField8 s (p + 16)
  .ok (⟨sym, BitVec.ofNat 8 r, BitVec.ofNat 8 g, BitVec.ofNat 8 b⟩, p + 24)

/-- The loop of rule R190: `n` cells, the first of ordinal `j`, from bit `c` on. -/
def decodeCells (s : State) : (n j c : Nat) → Except Raise (Frame × Nat)
  | 0, _, c => .ok ([], c)
  | n + 1, j, c => do
    let (x, c1) ← decodeCell s c j
    let (xs, c2) ← decodeCells s n (j + 1) c1
    .ok (x :: xs, c2)

/-- The loop of rule R200: `n` updates of the working frame `w`, the first of ordinal `j`, from bit `c` on. -/
def decodeUpdates (s : State) : (n j c : Nat) → Frame → Except Raise (Frame × Nat)
  | 0, _, c, w => .ok (w, c)
  | n + 1, j, c, w => do
    requireBits s c 32
    let idx := val (bitsRead s c 32)
    require (idx < s.plen.toNat) ⟨.indexOutOfRange, idx, s.plen.toNat⟩
    let (x, c1) ← decodeCell s (c + 32) j
    decodeUpdates s n (j + 1) c1 (w.set idx x)

/-- The updates of rule R200, in stream order: the last update of a position stays. -/
def applyUpdates (w : Frame) (ch : List (Cell × Nat)) : Frame := ch.foldl (fun w p => w.set p.2 p.1) w

/-- A decoded frame of `n` cells takes its places: `CURW[0..n)`, `CLEN`, `PREV`, `PLEN` and `BC` (rules R42, R190 and R200). -/
def State.putFrame (s : State) (f : Frame) (n : Word) (c : Nat) : State :=
  { s with
    curw := Memory.writeRun s.curw 0 (f.map wordOfCell)
    clen := n
    prev := f
    plen := n
    bc := BitVec.ofNat 32 c }

/-- The count taken from `CNT` must not be reserved (rules R97, R105 and R247). -/
def requireCount (s : State) : Except Raise Unit :=
  require (s.cnt.toNat ≤ fieldMax) ⟨.reservedValue, s.cnt.toNat, 0xFFFFFFFF⟩

/-- The effect of DEC_FULL (rule R190). -/
def decFullEffect (s : State) : Except Raise State := do
  requireCount s
  require (s.cnt.toNat ≤ s.cfg.cellCap) ⟨.capacityExceeded, s.cnt.toNat, s.cfg.cellCap⟩
  let (f, c) ← decodeCells s s.cnt.toNat 0 0
  .ok (s.putFrame f s.cnt c).markPrev

/-- DEC_FULL (rule R190). -/
def execDecFull (s : State) : Host.Outcome State Fault Refusal := runCommand s (decFullEffect s)

/-- The effect of DEC_DELTA (rule R200); the frame keeps its `PLEN` cells. -/
def decDeltaEffect (s : State) : Except Raise State := do
  require (s.prevV = true) ⟨.illegalState, 0x00000043, (status s).toNat⟩
  requireCount s
  let (f, c) ← decodeUpdates s s.cnt.toNat 0 0 s.prev
  .ok (s.putFrame f s.plen c)

/-- DEC_DELTA (rule R200). -/
def execDecDelta (s : State) : Host.Outcome State Fault Refusal := runCommand s (decDeltaEffect s)

end Sys2Proof.Machine
end

