-- ==== Sys2Proof/Machine/System.lean ====
section
/-! DEFINITION. The system commands (45_system.md): NOP and RESET. -/

namespace Sys2Proof.Machine

/-- NOP (rule R230). -/
def execNop (s : State) : Host.Outcome State Fault Refusal := runCommand s (.ok s)

/-- RESET (rule R231), the one command that also runs while `FAULT = 1`. -/
def execReset (s : State) : Host.Outcome State Fault Refusal := .next s.afterReset

end Sys2Proof.Machine
end

