-- ==== Sys2Proof/Machine/TreeSerializer.lean ====
section
/-! DEFINITION. The tree serializer (41_tree_serializer.md): TREE_WR and TREE_RD. -/

namespace Sys2Proof.Machine

/-- `ser(T)`, the tree record in preorder (rules R98 and R151). -/
def ser : Node → List Byte
  | .leaf s => [0x01, s]
  | .internal l r => 0x00 :: (ser l ++ ser r)

/-- The effect of TREE_WR (rule R150). -/
def treeWrEffect (s : State) : Except Raise State :=
  match heldTree s with
  | none => .error ⟨.illegalState, 0x00000020, (status s).toNat⟩
  | some t => outAppend s (ser t)

/-- TREE_WR (rule R150). -/
def execTreeWr (s : State) : Host.Outcome State Fault Refusal := runCommand s (treeWrEffect s)

/-- `parseNode(k, m)` (rule R156): the node, the offset after its record, the number of nodes read.
`fuel` bounds the depth of the recursion; `parseNode_fuel` in Laws shows that 512 is never used up; DESIGN CHOICE (assumption 7). -/
def parseNode (s : State) : (fuel k m : Nat) → Except Raise (Node × Nat × Nat)
  | 0, _, m => .error ⟨.capacityExceeded, m + 1, nodeCap⟩
  | fuel + 1, k, m => do
    require (m < nodeCap) ⟨.capacityExceeded, m + 1, nodeCap⟩
    requireBytes s (k + 1)
    if inByte s k = 0x01 then
      requireBytes s (k + 2)
      .ok (.leaf (inByte s (k + 1)), k + 2, m + 1)
    else if inByte s k = 0x00 then
      let (l, k1, m1) ← parseNode s fuel (k + 1) (m + 1)
      let (r, k2, m2) ← parseNode s fuel k1 m1
      .ok (.internal l r, k2, m2)
    else .error ⟨.reservedValue, (inByte s k).toNat, s.ipos.toNat + k⟩

/-- The effect of TREE_RD (rule R155). -/
def treeRdEffect (s : State) : Except Raise State := do
  requireInput s
  let (t, k, _) ← parseNode s (nodeCap + 1) 0 0
  .ok ((s.setTree t).consume k)

/-- TREE_RD (rule R155). -/
def execTreeRd (s : State) : Host.Outcome State Fault Refusal := runCommand s (treeRdEffect s)

end Sys2Proof.Machine
end

