-- ==== Sys2Proof/Machine/Dispatch.lean ====
section
/-! DEFINITION. One arm per command of rule R92, in its order, each one call of that command's meaning. -/

namespace Sys2Proof.Machine

/-- What a command does, the `FAULT` test of rule R91 included. -/
def exec (i : Instr) (s : State) : Host.Outcome State Fault Refusal :=
  match i with
  | .nop => Sys2Proof.Machine.execNop s
  | .reset => Sys2Proof.Machine.execReset s
  | .freqClr => Sys2Proof.Machine.execFreqClr s
  | .freqAcc => Sys2Proof.Machine.execFreqAcc s
  | .buildTree => Sys2Proof.Machine.execBuildTree s
  | .genCodes => Sys2Proof.Machine.execGenCodes s
  | .decodeOne => Sys2Proof.Machine.execDecodeOne s
  | .treeWr => Sys2Proof.Machine.execTreeWr s
  | .treeRd => Sys2Proof.Machine.execTreeRd s
  | .pack => Sys2Proof.Machine.execPack s
  | .unpack => Sys2Proof.Machine.execUnpack s
  | .encFull => Sys2Proof.Machine.execEncFull s
  | .decFull => Sys2Proof.Machine.execDecFull s
  | .encDelta => Sys2Proof.Machine.execEncDelta s
  | .decDelta => Sys2Proof.Machine.execDecDelta s
  | .put32 => Sys2Proof.Machine.execPut32 s
  | .get32 => Sys2Proof.Machine.execGet32 s

end Sys2Proof.Machine
end

