-- ==== Sys2Proof/Machine/HostPort.lean ====
section
/-! DEFINITION. The host's port: the register and window map (10_state.md rule R47), reads and writes of it (20_memory.md rules R62 and R82), and the dispatch of a word written to `CMD` (30_encoding.md rule R91). -/

namespace Sys2Proof.Machine

/-- Where a host access lands (rule R46 (1)). -/
inductive Place where
  /-- A register offset, 0x00 to 0xFF. -/
  | register (offset : Nat)
  /-- `INB[k]`. -/
  | inb (k : Nat)
  /-- `OUTB[k]`. -/
  | outb (k : Nat)
  /-- `CURW[i]`. -/
  | curw (i : Nat)
  deriving DecidableEq, Repr

/-- The place of an access of `width` bytes at `addr`, or the refusal of one the spec does not define (rules R34 and R62, U9; assumption 5). -/
def placeOf (c : Config) (addr width : Nat) : Except Refusal Place :=
  if addr < 0x100 then
    if width = 4 ∧ addr % 4 = 0 then .ok (.register addr) else .error .registerAccessNotDefined
  else if c.inBase ≤ addr ∧ addr < c.inBase + c.inCap then
    if width = 1 then .ok (.inb (addr - c.inBase)) else .error .windowAccessNotDefined
  else if c.outBase ≤ addr ∧ addr < c.outBase + c.outCap then
    if width = 1 then .ok (.outb (addr - c.outBase)) else .error .windowAccessNotDefined
  else if c.curBase ≤ addr ∧ addr < c.curBase + 4 * c.cellCap then
    if width = 4 ∧ (addr - c.curBase) % 4 = 0 then .ok (.curw ((addr - c.curBase) / 4)) else .error .windowAccessNotDefined
  else .error .addressNotMapped

/-- The offset of a register (rule R47). -/
def Reg.offset : Reg → Nat
  | .cmd => 0x00
  | .status => 0x04
  | .err => 0x08
  | .errInfo0 => 0x0C
  | .errInfo1 => 0x10
  | .cnt => 0x14
  | .sym => 0x18
  | .bc => 0x1C
  | .blen => 0x20
  | .clen => 0x24
  | .plen => 0x28
  | .ilen => 0x2C
  | .ipos => 0x30
  | .olen => 0x34

/-- The registers in the order of rule R47. -/
def allRegs : List Reg :=
  [.cmd, .status, .err, .errInfo0, .errInfo1, .cnt, .sym, .bc, .blen, .clen, .plen, .ilen, .ipos, .olen]

/-- The register at an offset; none at a reserved one (rule R34). -/
def regAt (offset : Nat) : Option Reg := allRegs.find? fun r => r.offset == offset

/-- What a host read of a register returns (rules R21 to R33): `CMD` reads 0, and the 8-bit registers read 0 above bit 7. -/
def readReg (s : State) : Reg → Word
  | .cmd => 0
  | .status => status s
  | .err => s.err.setWidth 32
  | .errInfo0 => s.errInfo0
  | .errInfo1 => s.errInfo1
  | .cnt => s.cnt
  | .sym => s.sym.setWidth 32
  | .bc => s.bc
  | .blen => s.blen
  | .clen => s.clen
  | .plen => s.plen
  | .ilen => s.ilen
  | .ipos => s.ipos
  | .olen => s.olen

/-- A write of `w` to `CMD` (rules R21 and R91): the command runs, or the word is illegal.
The `FAULT` test comes first in both (rule R254). -/
def writeCmd (w : Word) (s : State) : Host.Outcome State Fault Refusal :=
  match decode w with
  | .ok i => exec i s
  | .error _ => illegalCommand w s

/-- A host write of a register (rules R34 and R82): `CNT`, `BC`, `CLEN` and `ILEN` take any value, and a write of a read-only register is ignored. -/
def writeReg (r : Reg) (v : Word) (s : State) : Host.Outcome State Fault Refusal :=
  match r with
  | .cmd => writeCmd v s
  | .cnt => .next { s with cnt := v }
  | .bc => .next { s with bc := v }
  | .clen => .next { s with clen := v }
  | .ilen => .next { s with ilen := v }
  | .status | .err | .errInfo0 | .errInfo1 | .sym | .blen | .plen | .ipos | .olen => .next s

/-- What a host read of a place returns (rules R34, R42, R44 and R45); a reserved offset reads 0. -/
def readPlace (s : State) : Place → Word
  | .register offset => match regAt offset with
    | some r => readReg s r
    | none => 0
  | .inb k => (inbByte s k).setWidth 32
  | .outb k => (outbByte s k).setWidth 32
  | .curw i => curWord s i

/-- A host write of a place (rules R34 and R82): a reserved offset and `OUTB` ignore it. -/
def writePlace (p : Place) (v : Word) (s : State) : Host.Outcome State Fault Refusal :=
  match p with
  | .register offset => match regAt offset with
    | some r => writeReg r v s
    | none => .next s
  | .inb k => .next { s with inb := Memory.write s.inb k (v.setWidth 8) }
  | .outb _ => .next s
  | .curw i => .next { s with curw := Memory.write s.curw i v }

/-- One host access (rules R62 and R82): a read changes only the value returned to the host. -/
def hostAccess (a : HostAccess) (s : State) : Host.Outcome State Fault Refusal :=
  match a with
  | .read addr width => match placeOf s.cfg addr width with
    | .ok p => .next { s with rdata := readPlace s p }
    | .error r => .refused r
  | .write addr width v => match placeOf s.cfg addr width with
    | .ok p => writePlace p v s
    | .error r => .refused r

/-- The host's write of a word to `CMD` (rule R21). -/
def cmdWrite (w : Word) : HostAccess := .write 0x00 4 w

/-- The next thing that happens (rules R18, R19 and R77): the host's next access; with none waiting the engine is idle and holds all its state (rule R263). -/
def nextAccess (s : State) : Host.Outcome State Fault Refusal :=
  match s.hostQueue with
  | [] => .next s
  | a :: rest => hostAccess a { s with hostQueue := rest }

end Sys2Proof.Machine
end

