-- ==== Sys2Proof/Machine/Step.lean ====
section
/-! DEFINITION. One step of the machine: one host access, a command being a write to `CMD` (rule R19). -/

namespace Sys2Proof.Machine

/-- One step (rule R19). -/
def step (s : State) : Host.Outcome State Fault Refusal := nextAccess s

/-- `s` with the command word of a table row as the host's next access, a write to `CMD` (assumption 1). -/
def State.withFetchWord (s : State) (nbits w : Nat) : State :=
  { s with hostQueue := cmdWrite (tableWord nbits w) :: s.hostQueue }

end Sys2Proof.Machine
end

