-- ==== Sys2Proof/Machine/HostSequences.lean ====
section
/-! DEFINITION. The host's normative sequences (30_encoding.md rule R107, 44_container_sequencing.md rules R214 to R216): lines, the pseudo-commands of one frame, COMPRESS and DECOMPRESS. They are host software over the machine's accesses; no step of the machine uses them (assumption 8). -/

namespace Sys2Proof.Machine

/-- A line of a host program (rule R107). -/
inductive HostLine where
  /-- `MNEMONIC`. -/
  | cmd (i : Instr)
  /-- `WR reg, value`. -/
  | wr (r : Reg) (value : Word)
  /-- `RD reg`. -/
  | rd (r : Reg)
  /-- `WRIN bytes`. -/
  | wrin (bytes : List Byte)
  /-- `WRCUR cells`. -/
  | wrcur (cells : Frame)
  /-- `RDCUR`. -/
  | rdcur
  /-- `RDOUT`. -/
  | rdout
  deriving DecidableEq, Repr

/-- How a host call that is not done ends. -/
inductive HostStop where
  /-- The call has failed with kind `ERR` (rules R215 and R216). -/
  | failed (err : Byte)
  /-- An access the spec does not define was made (U9), so nothing may be concluded. -/
  | refused (r : Refusal)
  deriving DecidableEq, Repr

/-- The host's read of a register. -/
def readOf (r : Reg) : HostAccess := .read r.offset 4

/-- The host's write of a register. -/
def writeOf (r : Reg) (v : Word) : HostAccess := .write r.offset 4 v

/-- The single accesses a line stands for (rule R107), in a state whose `CLEN` and `OLEN` the host reads first.
DESIGN CHOICE (assumption 14): rule R107 does not say what a `WRIN` of more than `IN_CAP` bytes is; here its accesses are made all the same, and what an access past the window does is what its own address gives. -/
def HostLine.accesses (s : State) : HostLine → List HostAccess
  | .cmd i => [cmdWrite (encode i)]
  | .wr r v => [writeOf r v]
  | .rd r => [readOf r]
  | .wrin bytes =>
    bytes.zipIdx.map (fun p => .write (s.cfg.inBase + p.2) 1 (p.1.setWidth 32)) ++
      [writeOf .ilen (BitVec.ofNat 32 bytes.length)]
  | .wrcur cells =>
    cells.zipIdx.map (fun p => .write (s.cfg.curBase + 4 * p.2) 4 (wordOfCell p.1)) ++
      [writeOf .clen (BitVec.ofNat 32 cells.length)]
  | .rdcur => readOf .clen :: (List.range s.clen.toNat).map fun i => .read (s.cfg.curBase + 4 * i) 4
  | .rdout => readOf .olen :: (List.range s.olen.toNat).map fun k => .read (s.cfg.outBase + k) 1

/-- One access as the host sees it. -/
def hostDo (a : HostAccess) (s : State) : Except HostStop State :=
  match hostAccess a s with
  | .next t => .ok t
  | .refused r => .error (.refused r)
  | .fault f => nomatch f

/-- Accesses in order, and the values the reads among them returned. -/
def runAccesses : List HostAccess → State → Except HostStop (List Word × State)
  | [], s => .ok ([], s)
  | .read addr width :: as, s => do
    let t ← hostDo (.read addr width) s
    let (ws, u) ← runAccesses as t
    .ok (t.rdata :: ws, u)
  | .write addr width v :: as, s => do
    let t ← hostDo (.write addr width v) s
    runAccesses as t

/-- One line. -/
def runLine (l : HostLine) (s : State) : Except HostStop (List Word × State) := runAccesses (l.accesses s) s

/-- The host reads `STATUS`, and when `FAULT = 1` reads `ERR` and stops (rules R215 and R216).
DEDUCED (assumption 8): also after the RESET a sequence begins with. -/
def checkStatus (s : State) : Except HostStop State := do
  let (_, t) ← runAccesses [readOf .status] s
  if t.rdata.getLsbD 3 then
    let (_, u) ← runAccesses [readOf .err] t
    .error (.failed (u.rdata.setWidth 8))
  else .ok t

/-- Lines in order, with the `STATUS` check after each command. -/
def runLines : List HostLine → State → Except HostStop State
  | [], s => .ok s
  | .cmd i :: ls, s => do
    let (_, t) ← runLine (.cmd i) s
    let u ← checkStatus t
    runLines ls u
  | l :: ls, s => do
    let (_, t) ← runLine l s
    runLines ls t

/-- `FREQSCAN f` (rule R214). -/
def freqScan (f : Frame) : List HostLine := [.wrcur f, .cmd .freqAcc]

/-- `CFRAME0 f` (rule R214). -/
def cFrame0 (f : Frame) : List HostLine := [.wrcur f, .cmd .encFull, .cmd .pack]

/-- `CFRAMEK f` (rule R214). -/
def cFrameK (f : Frame) : List HostLine := [.wrcur f, .cmd .encDelta, .cmd .pack]

/-- The frames' part of `COMPRESS V`: frame 0 full, every other frame delta (rules R212 and R215). -/
def cFrames : List Frame → List HostLine
  | [] => []
  | f :: fs => cFrame0 f ++ fs.flatMap cFrameK

/-- The lines of `COMPRESS V` but for its last, `RDOUT` (rule R215).
DESIGN CHOICE (assumption 15): rule R215 does not say what `WR CNT, N` writes for a video of `2^32` or more frames; here it writes `N` modulo `2^32`. -/
def compressLines (v : List Frame) : List HostLine :=
  [.cmd .reset, .cmd .freqClr] ++ v.flatMap freqScan ++
    [.cmd .buildTree, .cmd .genCodes, .wr .cnt (BitVec.ofNat 32 v.length), .cmd .put32, .cmd .treeWr] ++ cFrames v

/-- `COMPRESS V` (rule R215): the container, or how the call failed. -/
def compress (v : List Frame) (s : State) : Except HostStop (List Byte × State) := do
  let t ← runLines (compressLines v) s
  let (ws, u) ← runLine .rdout t
  .ok (ws.tail.map (·.setWidth 8), u)

/-- `DFRAME0` with DEC_FULL, `DFRAMEK` with DEC_DELTA (rule R214): the frame the host reads out. -/
def dFrame (decoder : Instr) (s : State) : Except HostStop (Frame × State) := do
  let t ← runLines [.cmd .get32, .cmd .unpack, .cmd decoder] s
  let (ws, u) ← runLine .rdcur t
  .ok (ws.tail.map cellOfWord, u)

/-- `DFRAMEK` as many times as there are delta frames, in order (rule R216). -/
def dFrames : Nat → State → Except HostStop (List Frame × State)
  | 0, s => .ok ([], s)
  | n + 1, s => do
    let (f, t) ← dFrame .decDelta s
    let (fs, u) ← dFrames n t
    .ok (f :: fs, u)

/-- `DECOMPRESS b` (rule R216): the video, or how the call failed (then the frames read are discarded). -/
def decompress (b : List Byte) (s : State) : Except HostStop (List Frame × State) := do
  let s1 ← runLines [.cmd .reset, .wrin b, .cmd .get32] s
  let (_, s2) ← runLine (.rd .cnt) s1
  let s3 ← runLines [.cmd .treeRd] s2
  match s2.rdata.toNat with
  | 0 => .ok ([], s3)
  | n + 1 => do
    let (f, s4) ← dFrame .decFull s3
    let (fs, s5) ← dFrames n s4
    .ok (f :: fs, s5)

end Sys2Proof.Machine
end

