-- ==== Sys2Proof/Machine/TieRule.lean ====
section
/-! DEFINITION. What the tree builder's source fixes for every tie-break (rule R127, `TIE_RULE = any`): the relation beside the hardware's own rule `buildDet`. -/

namespace Sys2Proof.Machine

/-- The loop of rule R127 on a set of (node, weight) pairs, written as a list whose order does not matter.
Its three `choose` lines are free: which least pair is `a`, which least remaining pair is `b`, and which of the two becomes the left child. -/
inductive HuffmanRun : List (Node × Nat) → Node → Prop where
  | done (t : Node) (w : Nat) : HuffmanRun [(t, w)] t
  | round {m rest : List (Node × Nat)} {a b : Node × Nat} {p t : Node}
      (pick : m.Perm (a :: b :: rest))
      (aLeast : ∀ x ∈ m, a.2 ≤ x.2)
      (bLeast : ∀ x ∈ b :: rest, b.2 ≤ x.2)
      (merged : p = .internal a.1 b.1 ∨ p = .internal b.1 a.1)
      (more : HuffmanRun ((p, a.2 + b.2) :: rest) t) : HuffmanRun m t

/-- `S` of rule R125: the symbols with a count above 0, ascending. -/
def countedSymbols (freq : Table (BitVec 64)) : List Byte :=
  allSymbols.filter fun s => decide (0 < (Table.at freq s).toNat)

/-- `HuffmanTreeOf(FREQ, T)` (rule R127). -/
def HuffmanTreeOf (freq : Table (BitVec 64)) (t : Node) : Prop :=
  HuffmanRun ((countedSymbols freq).map fun s => (.leaf s, (Table.at freq s).toNat)) t

/-- The loop of rule R128 as a relation: in every round `a` is before every other entry, `b` before every one left, and the merged entry takes the next sequence number. -/
inductive DetRun : Nat → List Entry → Node → Prop where
  | done (seq : Nat) (e : Entry) : DetRun seq [e] e.node
  | round {seq : Nat} {m rest : List Entry} {a b : Entry} {t : Node}
      (pick : m.Perm (a :: b :: rest))
      (aFirst : ∀ x ∈ b :: rest, a.before x = true)
      (bFirst : ∀ x ∈ rest, b.before x = true)
      (more : DetRun (seq + 1) (⟨a.weight + b.weight, seq, .internal a.node b.node⟩ :: rest) t) : DetRun seq m t

/-- The entries of rule R128 before the loop: the counted symbols in ascending order, numbered from 0. -/
def numberedLeaves (freq : Table (BitVec 64)) : List Entry :=
  (countedSymbols freq).zipIdx.map fun p => ⟨(Table.at freq p.1).toNat, p.2, .leaf p.1⟩

end Sys2Proof.Machine
end

