-- ==== Sys2Proof/WellFormed.lean ====
section
/-! DEFINITION. What is well formed: the open parameters (rule R7). A command carries no operand (rules R90 and R93), so every `Instr` is well formed; raw command words are checked by Decode.lean. -/

namespace Sys2Proof

/-- Two byte ranges `[a, a + n)` and `[b, b + m)` do not overlap.
DESIGN CHOICE (assumption 13): rule R7 does not say whether an empty window (capacity 0) whose base lies strictly inside another window overlaps it; here it does, so such a part is not well formed. -/
abbrev disjointRanges (a n b m : Nat) : Prop := a + n ≤ b ∨ b + m ≤ a

/-- The constraints of rule R7 and of the open-parameter list of 92_eei_decisions.md section 7. -/
structure Config.WellFormed (c : Config) : Prop where
  /-- `0 <= CELL_CAP <= FIELD_MAX`. -/
  cellCap_le : c.cellCap ≤ 2147483647
  /-- `0 <= BIT_CAP <= FIELD_MAX`. -/
  bitCap_le : c.bitCap ≤ 2147483647
  /-- `0 <= IN_CAP <= 2^32 - 1`. -/
  inCap_le : c.inCap ≤ 4294967295
  /-- `0 <= OUT_CAP <= 2^32 - 1`. -/
  outCap_le : c.outCap ≤ 4294967295
  /-- The three bases are word aligned. -/
  aligned : c.inBase % 4 = 0 ∧ c.outBase % 4 = 0 ∧ c.curBase % 4 = 0
  /-- The windows lie at or above 0x100, clear of the registers. -/
  aboveRegisters : 0x100 ≤ c.inBase ∧ 0x100 ≤ c.outBase ∧ 0x100 ≤ c.curBase
  /-- IN and OUT do not overlap. -/
  inOut : disjointRanges c.inBase c.inCap c.outBase c.outCap
  /-- IN and CUR do not overlap. -/
  inCur : disjointRanges c.inBase c.inCap c.curBase (4 * c.cellCap)
  /-- OUT and CUR do not overlap. -/
  outCur : disjointRanges c.outBase c.outCap c.curBase (4 * c.cellCap)

/-- `Config.WellFormed` as a test that runs. -/
def Config.wf (c : Config) : Bool :=
  decide (c.cellCap ≤ 2147483647) && decide (c.bitCap ≤ 2147483647) &&
  decide (c.inCap ≤ 4294967295) && decide (c.outCap ≤ 4294967295) &&
  decide (c.inBase % 4 = 0 ∧ c.outBase % 4 = 0 ∧ c.curBase % 4 = 0) &&
  decide (0x100 ≤ c.inBase ∧ 0x100 ≤ c.outBase ∧ 0x100 ≤ c.curBase) &&
  decide (disjointRanges c.inBase c.inCap c.outBase c.outCap) &&
  decide (disjointRanges c.inBase c.inCap c.curBase (4 * c.cellCap)) &&
  decide (disjointRanges c.outBase c.outCap c.curBase (4 * c.cellCap))

/-- Every command is well formed: it has no operand that could be wrong (rule R93). -/
def Instr.wf (_ : Instr) : Bool := true

end Sys2Proof
end

