-- ==== Sys2Proof/Safety.lean ====
section
/-! DEFINITION. What a safe state and a safe step are: the machine's invariant (rule R49 with the bounds and codes the spec gives beside it), and which host accesses are defined. -/

namespace Sys2Proof.Machine

/-- The codes `ERR` can hold (rule R240 and U10): 5 and 11 to 255 are never written. -/
def errCodes : List Byte := [0, 1, 2, 3, 4, 6, 7, 8, 9, 10]

/-- The invariant: rule R49 (a) to (f), and what rules R28, R30, R41 to R45 and U10 add to it. -/
structure State.Inv (s : State) : Prop where
  /-- The open parameters meet their constraints (rule R7). -/
  cfg : s.cfg.WellFormed
  /-- R49 (a). -/
  treeFlag : s.treeV = true ↔ s.tree.isSome = true
  /-- R49 (b). -/
  codeFlag : s.codeV = true → s.treeV = true ∧ ∃ t, s.tree = some t ∧ s.code = genCodes t
  /-- R49 (c). -/
  treeSize : ∀ t, s.tree = some t → t.size ≤ 511
  /-- R28 and R41: `BLEN` is the length of `BITS`. -/
  blenIsLength : s.blen.toNat = s.bits.length
  /-- R49 (d). -/
  blenBound : s.blen.toNat ≤ s.cfg.bitCap
  /-- R30 and R43: `PLEN` is the length of `PREV`. -/
  plenIsLength : s.plen.toNat = s.prev.length
  /-- R49 (d). -/
  plenBound : s.plen.toNat ≤ s.cfg.cellCap
  /-- R49 (d). -/
  iposBound : s.ipos.toNat ≤ s.cfg.inCap
  /-- R49 (d). -/
  olenBound : s.olen.toNat ≤ s.cfg.outCap
  /-- R49 (e). -/
  faultFlag : s.fault = true ↔ s.err ≠ 0
  /-- U10. -/
  errCode : s.err ∈ errCodes
  /-- R49 (f). -/
  prevFlag : s.prevV = false → s.plen = 0
  /-- The windows are in canonical form. -/
  inbForm : Memory.wf s.inb
  /-- The windows are in canonical form. -/
  outbForm : Memory.wf s.outb
  /-- The windows are in canonical form. -/
  curwForm : Memory.wf s.curw
  /-- R44: `IN_CAP` bytes. -/
  inbBound : ∀ p ∈ s.inb, p.1 < s.cfg.inCap
  /-- R42: `CELL_CAP` words. -/
  curwBound : ∀ p ∈ s.curw, p.1 < s.cfg.cellCap
  /-- R33 and R45: exactly the bytes below `OLEN` have been written. -/
  outbWritten : ∀ k, (Memory.find? s.outb k).isSome = true ↔ k < s.olen.toNat

/-- An access the spec defines (rules R34 and R62): a whole aligned register, one byte of `INB` or `OUTB`, or one whole word of `CURW`. -/
def HostAccess.defined (c : Config) : HostAccess → Prop
  | .read addr width | .write addr width _ =>
    (addr < 0x100 ∧ width = 4 ∧ addr % 4 = 0) ∨
    (∃ k < c.inCap, addr = c.inBase + k ∧ width = 1) ∨
    (∃ k < c.outCap, addr = c.outBase + k ∧ width = 1) ∨
    (∃ i < c.cellCap, addr = c.curBase + 4 * i ∧ width = 4)

/-- A safe step goes on: it is neither a fault nor a refusal. -/
def safeStep (s : State) : Prop := ∃ t, step s = .next t

/-! ### Formats, in the terms claims use -/

/-- The bytes of one node of a tree record (rule R98): a leaf by its symbol, an internal node as `none`. -/
def nodeBytes : Option Byte → List Byte
  | some x => [0x01, x]
  | none => [0x00]

/-- With `n` nodes to be read, the nodes `ns` come in preorder and there is still one to be read before each of them and after the last: an internal node asks for two more, a leaf for none.
`unfinished 1 ns` says that `ns` is the beginning of a tree record and not the whole of it. -/
def unfinished : Nat → List (Option Byte) → Prop
  | 0, _ => False
  | _ + 1, [] => True
  | n + 1, none :: ns => unfinished (n + 2) ns
  | n + 1, some _ :: ns => unfinished n ns

/-- `r` is the fault of reading one node at offset `k` from `IPOS`, when `m` nodes have been read before it: the first test of rule R156 that fails there. -/
def nodeFault (s : State) (k m : Nat) (r : Raise) : Prop :=
  (511 ≤ m ∧ r = ⟨.capacityExceeded, m + 1, 511⟩) ∨
  (m < 511 ∧ inAvail s < k + 1 ∧ r = ⟨.truncatedStream, k + 1, inAvail s⟩) ∨
  (m < 511 ∧ k + 1 ≤ inAvail s ∧ inByte s k = 0x01 ∧ inAvail s < k + 2 ∧ r = ⟨.truncatedStream, k + 2, inAvail s⟩) ∨
  (m < 511 ∧ k + 1 ≤ inAvail s ∧ inByte s k ≠ 0x00 ∧ inByte s k ≠ 0x01 ∧
    r = ⟨.reservedValue, (inByte s k).toNat, s.ipos.toNat + k⟩)

/-- `b` is an encoding of the cell `c` under the tree `n` (rules R102 and R182): a code path of its symbol, its length before it and the colour after it. -/
def isCellEncoding (n : Node) (c : Cell) (b : Bits) : Prop :=
  ∃ k : Bits, n.symbolAt k = some c.sym ∧ k.length ≤ 255 ∧
    b = bitsN 8 k.length ++ (k ++ (bits8 c.r ++ (bits8 c.g ++ bits8 c.b)))

/-- `b` is the encodings of the cells of `f` in positional order, joined (rule R100). -/
def isFrameEncoding (n : Node) : Frame → Bits → Prop
  | [], b => b = []
  | c :: f, b => ∃ b1 b2 : Bits, isCellEncoding n c b1 ∧ isFrameEncoding n f b2 ∧ b = b1 ++ b2

/-- `b` is the delta-cell encodings of `ch`, cells with their indices, joined (rules R101 and R103). -/
def isDeltaEncoding (n : Node) : List (Cell × Nat) → Bits → Prop
  | [], b => b = []
  | p :: ch, b => ∃ b1 b2 : Bits, isCellEncoding n p.1 b1 ∧ isDeltaEncoding n ch b2 ∧ b = bits32 p.2 ++ (b1 ++ b2)

/-- Every register, flag, table, store and buffer at its reset value (rule R48); the windows hold what is unspecified there (U1). -/
def State.hasResetValues (s : State) : Prop :=
  (s.treeV = false ∧ s.codeV = false ∧ s.prevV = false ∧ s.fault = false) ∧
  (s.err = 0 ∧ s.errInfo0 = 0 ∧ s.errInfo1 = 0) ∧ (s.cnt = 0 ∧ s.sym = 0 ∧ s.bc = 0) ∧
  (s.blen = 0 ∧ s.clen = 0 ∧ s.plen = 0 ∧ s.ilen = 0 ∧ s.ipos = 0 ∧ s.olen = 0) ∧
  (∀ x, Table.at s.freq x = 0) ∧ s.tree = none ∧ (∀ x, Table.at s.code x = none) ∧ s.bits = [] ∧ s.prev = [] ∧
  (∀ k, inbByte s k = Config.freeInByte s.epoch k) ∧ (∀ k, outbByte s k = Config.freeOutByte s.epoch k) ∧
  (∀ i, curWord s i = Config.freeCurWord s.epoch i)

end Sys2Proof.Machine
end

