-- ==== Sys2Proof/Certificates/Slice0/Obligations.lean ====
section
/-! DEFINITION. The statements about the machine, each from the numbered rules its docstring cites. A fault is written `s.raise ⟨cause, a, b⟩`; `FaultsArePrecise` says what that leaves. -/

open Sys2Proof Sys2Proof.Machine

/-! ### Reset and the system commands -/

/-- Rules R48 and R270: power-on and the RESET command both leave every register, flag, table, store and buffer at its reset value, and the windows unspecified. -/
def Obligations.PowerOnAndResetLeaveTheResetValues : Prop :=
  State.reset.hasResetValues ∧ ∀ s : State, ∃ t, exec .reset s = .next t ∧ t.hasResetValues

/-- Rule R231: RESET completes in every state, `FAULT = 1` included, and is the only command that clears a fault.
The part's parameters and the host's own side stay (assumptions 1, 2 and 4), and the free window contents are new ones (assumption 3). -/
def Obligations.ResetAlwaysRunsAndAloneClearsAFault : Prop :=
  (∀ s : State, ∃ t, exec .reset s = .next t ∧ t.hasResetValues ∧ t.cfg = s.cfg ∧ t.hostQueue = s.hostQueue ∧
    t.rdata = s.rdata ∧ t.epoch = s.epoch + 1) ∧
  ∀ (i : Instr) (s t : State), exec i s = .next t → s.fault = true → t.fault = false → i = .reset

/-- Rule R230: NOP completes in every state and changes nothing. -/
def Obligations.NopChangesNothing : Prop := ∀ s : State, exec .nop s = .next s

/-! ### Huffman coder -/

/-- Rule R120: FREQ_CLR makes every counter 0 and changes nothing else. -/
def Obligations.FreqClrZeroesEveryCounter : Prop :=
  ∀ s : State, s.fault = false →
    ∃ t, exec .freqClr s = .next t ∧ (∀ x, Table.at t.freq x = 0) ∧ t = { s with freq := t.freq }

/-- Rule R121: FREQ_ACC adds to each counter the number of cells `CURW[0..CLEN)` whose bits 31 to 24 are its symbol, and changes nothing else; or it faults on `CLEN`, or on the lowest symbol whose counter would pass `2^64 - 1`. -/
def Obligations.FreqAccCountsTheSymbolsOfTheFrame : Prop :=
  ∀ s : State, s.fault = false →
    let sum := fun x : Byte => (Table.at s.freq x).toNat +
      (List.range s.clen.toNat).countP fun i => (curWord s i).extractLsb' 24 8 == x
    (s.cfg.cellCap < s.clen.toNat →
      exec .freqAcc s = .next (s.raise ⟨.capacityExceeded, s.clen.toNat, s.cfg.cellCap⟩)) ∧
    (s.clen.toNat ≤ s.cfg.cellCap → ∀ x : Byte, 2 ^ 64 ≤ sum x → (∀ y : Byte, y.toNat < x.toNat → sum y < 2 ^ 64) →
      exec .freqAcc s = .next (s.raise ⟨.capacityExceeded, sum x, 2 ^ 64 - 1⟩)) ∧
    (s.clen.toNat ≤ s.cfg.cellCap → (∀ x : Byte, sum x < 2 ^ 64) →
      ∃ t, exec .freqAcc s = .next t ∧ (∀ x, (Table.at t.freq x).toNat = sum x) ∧ t = { s with freq := t.freq })

/-- Rules R125, R127 and R128: BUILD_TREE faults with EmptyInput when nothing is counted; otherwise it stores the one tree the tie rule gives, which is a tree every tie-break rule allows, sets `TREE_V`, clears `CODE_V` and changes nothing else. -/
def Obligations.BuildTreeFollowsTheTieRule : Prop :=
  ∀ s : State, s.fault = false →
    ((∀ x, Table.at s.freq x = 0) → exec .buildTree s = .next (s.raise ⟨.emptyInput, 0, 0⟩)) ∧
    ((∃ x, Table.at s.freq x ≠ 0) → ∃ n : Node,
      exec .buildTree s = .next { s with tree := some n, treeV := true, codeV := false } ∧
      DetRun (numberedLeaves s.freq).length (numberedLeaves s.freq) n ∧
      (∀ n', DetRun (numberedLeaves s.freq).length (numberedLeaves s.freq) n' → n' = n) ∧
      HuffmanTreeOf s.freq n)

/-- Rule R129 (a) to (d): of every tree any tie-break allows, the leaves are exactly the counted symbols, each once; it has `2n - 1 <= 511` nodes, no leaf deeper than `n - 1`, and for one symbol it is that leaf. -/
def Obligations.EveryHuffmanTreeHasTheCountedLeaves : Prop :=
  ∀ (freq : Table (BitVec 64)) (n : Node), HuffmanTreeOf freq n →
    n.leaves.Nodup ∧ (∀ x, x ∈ n.leaves ↔ Table.at freq x ≠ 0) ∧
    n.size + 1 = 2 * n.leaves.length ∧ n.size ≤ 511 ∧ n.depth + 1 ≤ n.leaves.length ∧
    ∀ x, n.leaves = [x] → n = .leaf x

/-- Rules R133 and R134: GEN_CODES faults with IllegalState when there is no tree; otherwise each entry of `CODE` is the path to the last leaf of its symbol, left 0 and right 1 (in a single-leaf tree the one bit `0`), `CODE_V` is set and nothing else changes. -/
def Obligations.GenCodesTabulatesTheLeafPaths : Prop :=
  ∀ s : State, s.fault = false →
    (s.treeV = false → exec .genCodes s = .next (s.raise ⟨.illegalState, 0x13, (status s).toNat⟩)) ∧
    (∀ n : Node, s.treeV = true → s.tree = some n →
      ∃ t, exec .genCodes s = .next t ∧ t = { s with code := t.code, codeV := true } ∧
        ∀ x, Table.at t.code x = match n with
          | .leaf y => if y = x then some [false] else none
          | .internal l r => (Node.internal l r).lastPath x)

/-- Rule R135: for a tree of at most 511 nodes with distinct leaf symbols, a symbol has a code exactly when a leaf carries it; a code has 1 to 255 bits and is the path to its leaf, or is the one bit `0` of a single-leaf tree; and no code begins another symbol's code. -/
def Obligations.CodeTableIsPrefixFree : Prop :=
  ∀ n : Node, n.size ≤ 511 → n.leaves.Nodup →
    (∀ x, (Table.at (genCodes n) x).isSome = true ↔ x ∈ n.leaves) ∧
    (∀ x k, Table.at (genCodes n) x = some k → 1 ≤ k.length ∧ k.length ≤ 255 ∧
      ((∃ y, n = .leaf y ∧ k = [false]) ∨ n.follow k = some (.leaf x))) ∧
    (∀ x y k k', Table.at (genCodes n) x = some k → Table.at (genCodes n) y = some k' → x ≠ y → ¬ k <+: k') ∧
    (∀ y, n = .leaf y → Table.at (genCodes n) y = some [false])

/-- Rules R138 and R139: DECODE_ONE walks from `BC`; when a whole code path lies in `BITS` there, `SYM` takes its symbol and `BC` moves past it, and nothing else changes; in every other case, an absent tree included, it is MalformedTree with the words 0 and `BC`. -/
def Obligations.DecodeOneWalksOneCodePath : Prop :=
  ∀ s : State, s.Inv → s.fault = false →
    (∀ (n : Node) (k : Bits) (x : Byte), s.tree = some n → n.symbolAt k = some x →
      s.bc.toNat + k.length ≤ s.blen.toNat → bitsRead s s.bc.toNat k.length = k →
      exec .decodeOne s = .next { s with sym := x, bc := BitVec.ofNat 32 (s.bc.toNat + k.length) }) ∧
    ((∀ (n : Node) (k : Bits) (x : Byte), s.tree = some n → n.symbolAt k = some x →
      s.bc.toNat + k.length ≤ s.blen.toNat → bitsRead s s.bc.toNat k.length ≠ k) →
      exec .decodeOne s = .next (s.raise ⟨.malformedTree, 0, s.bc.toNat⟩))

/-- Rule R140: for a tree with distinct leaf symbols the walk inverts the code table: it reads a code of the table back as its symbol, what it reads is the path to a leaf of the symbol it returns, and it takes at most 255 bits. -/
def Obligations.WalkInvertsTheCodeTable : Prop :=
  ∀ (s : State) (n : Node), s.Inv → s.tree = some n → n.leaves.Nodup →
    (∀ (x : Byte) (k : Bits) (c j : Nat), Table.at (genCodes n) x = some k → c + k.length ≤ s.blen.toNat →
      bitsRead s c k.length = k → Machine.decodeOne s c j = .ok (x, c + k.length)) ∧
    (∀ (x : Byte) (c j p : Nat), Machine.decodeOne s c j = .ok (x, p) →
      Table.at (genCodes n) x = some (bitsRead s c (p - c)) ∧ n.symbolAt (bitsRead s c (p - c)) = some x ∧
      c < p ∧ p ≤ c + 255)

/-! ### Tree serializer -/

/-- Rules R150 and R151: TREE_WR faults with IllegalState without a tree and with CapacityExceeded without room; otherwise it appends the tree's record, of `3n - 1` bytes, and changes nothing else. -/
def Obligations.TreeWrAppendsTheTreeRecord : Prop :=
  (∀ s : State, s.Inv → s.fault = false →
    (s.treeV = false → exec .treeWr s = .next (s.raise ⟨.illegalState, 0x20, (status s).toNat⟩)) ∧
    (∀ n : Node, s.tree = some n →
      (s.cfg.outCap < s.olen.toNat + (ser n).length →
        exec .treeWr s = .next (s.raise ⟨.capacityExceeded, s.olen.toNat + (ser n).length, s.cfg.outCap⟩)) ∧
      (s.olen.toNat + (ser n).length ≤ s.cfg.outCap →
        ∃ t, exec .treeWr s = .next t ∧ out t = out s ++ ser n ∧ t.olen.toNat = s.olen.toNat + (ser n).length ∧
          t = { s with outb := t.outb, olen := t.olen }))) ∧
  (∀ x : Byte, ser (.leaf x) = [0x01, x]) ∧ (∀ l r : Node, ser (.internal l r) = [0x00] ++ ser l ++ ser r) ∧
  ∀ n : Node, (ser n).length + 1 = 3 * n.leaves.length

/-- Rule R161: the tree record TREE_WR appends for a tree of at most 511 nodes is read back by TREE_RD as that tree, from any stream that holds it at `IPOS`; `IPOS` moves past the record, `TREE_V` is set, `CODE_V` is cleared and nothing else changes. -/
def Obligations.TreeRecordRoundTrip : Prop :=
  ∀ (n : Node), n.size ≤ 511 →
    (∀ s t : State, s.Inv → s.fault = false → s.tree = some n → exec .treeWr s = .next t → t.fault = false →
      out t = out s ++ ser n) ∧
    (∀ u : State, u.fault = false → u.ilen.toNat ≤ u.cfg.inCap → holds u 0 (ser n) →
      exec .treeRd u = .next { u with
        tree := some n, treeV := true, codeV := false, ipos := BitVec.ofNat 32 (u.ipos.toNat + (ser n).length) })

/-- Rules R155 and R156, the faults of TREE_RD: `ILEN` beyond the window; then, once the nodes `ns`, which do not finish a record, have been read from the stream, the first test of rule R156 that fails at the next node, with its two words, at any depth.
A stream that holds no record of at most 511 nodes has such a point. -/
def Obligations.TreeRdFaultsWithoutARecord : Prop :=
  ∀ s : State, s.fault = false →
    (s.cfg.inCap < s.ilen.toNat →
      exec .treeRd s = .next (s.raise ⟨.capacityExceeded, s.ilen.toNat, s.cfg.inCap⟩)) ∧
    (s.ilen.toNat ≤ s.cfg.inCap →
      (∀ (ns : List (Option Byte)) (r : Raise), unfinished 1 ns → holds s 0 (ns.flatMap nodeBytes) →
        ns.length ≤ 511 → nodeFault s (ns.flatMap nodeBytes).length ns.length r →
        exec .treeRd s = .next (s.raise r)) ∧
      ((∀ n : Node, n.size ≤ 511 → ¬ holds s 0 (ser n)) →
        ∃ (ns : List (Option Byte)) (r : Raise), unfinished 1 ns ∧ holds s 0 (ns.flatMap nodeBytes) ∧
          ns.length ≤ 511 ∧ nodeFault s (ns.flatMap nodeBytes).length ns.length r))

/-! ### Bit packer -/

/-- Rules R165 and R166: PACK appends the bit count, the bits packed most significant first with the last byte's other bits 0, and `n mod 8`; without room it faults; nothing else changes. -/
def Obligations.PackAppendsTheRecord : Prop :=
  (∀ s : State, s.Inv → s.fault = false →
    let record := le32 s.blen.toNat ++ packBytes s.bits ++ [BitVec.ofNat 8 (s.blen.toNat % 8)]
    (s.cfg.outCap < s.olen.toNat + (4 + (s.blen.toNat + 7) / 8 + 1) →
      exec .pack s = .next
        (s.raise ⟨.capacityExceeded, s.olen.toNat + (4 + (s.blen.toNat + 7) / 8 + 1), s.cfg.outCap⟩)) ∧
    (s.olen.toNat + (4 + (s.blen.toNat + 7) / 8 + 1) ≤ s.cfg.outCap →
      ∃ t, exec .pack s = .next t ∧ out t = out s ++ record ∧ t.olen.toNat = s.olen.toNat + (4 + (s.blen.toNat + 7) / 8 + 1) ∧
        t = { s with outb := t.outb, olen := t.olen })) ∧
  ∀ b : Bits, (packBytes b).length = (b.length + 7) / 8 ∧
    ∀ j i, j < (b.length + 7) / 8 → i < 8 →
      ((packBytes b).getD j 0).getLsbD (7 - i) = if 8 * j + i < b.length then b.getD (8 * j + i) false else false

/-- Rules R170 and R171: UNPACK tests in order `ILEN`, the 4 bytes of the count, its bit 31, `BIT_CAP`, and the bytes of the record; then bit `8j + i` of `BITS` is bit `7 - i` of data byte `j`, `BLEN` is the count, `BC` is 0, `IPOS` moves past the record, and nothing else changes. -/
def Obligations.UnpackReadsTheRecord : Prop :=
  ∀ s : State, s.fault = false →
    let n := in32 s 0
    let size := 4 + (n + 7) / 8 + 1
    (s.cfg.inCap < s.ilen.toNat →
      exec .unpack s = .next (s.raise ⟨.capacityExceeded, s.ilen.toNat, s.cfg.inCap⟩)) ∧
    (s.ilen.toNat ≤ s.cfg.inCap →
      (inAvail s < 4 → exec .unpack s = .next (s.raise ⟨.truncatedStream, 4, inAvail s⟩)) ∧
      (4 ≤ inAvail s →
        (2147483647 < n → exec .unpack s = .next (s.raise ⟨.reservedValue, n, s.ipos.toNat⟩)) ∧
        (n ≤ 2147483647 →
          (s.cfg.bitCap < n → exec .unpack s = .next (s.raise ⟨.capacityExceeded, n, s.cfg.bitCap⟩)) ∧
          (n ≤ s.cfg.bitCap →
            (inAvail s < size → exec .unpack s = .next (s.raise ⟨.truncatedStream, size, inAvail s⟩)) ∧
            (size ≤ inAvail s →
              ∃ t, exec .unpack s = .next t ∧ t.bits.length = n ∧
                (∀ k < n, t.bits.getD k false = (inByte s (4 + k / 8)).getLsbD (7 - k % 8)) ∧
                t = { s with bits := t.bits, blen := BitVec.ofNat 32 n, bc := 0,
                             ipos := BitVec.ofNat 32 (s.ipos.toNat + size) })))))

/-- Rule R172: whatever record PACK appends for a bit sequence, of `4 + ceil(L/8) + 1` bytes, UNPACK reads back as that sequence from any stream that holds it at `IPOS`. -/
def Obligations.PackUnpackRoundTrip : Prop :=
  ∀ s t : State, s.Inv → s.fault = false → exec .pack s = .next t → t.fault = false →
    ∃ record : List Byte, out t = out s ++ record ∧ record.length = 4 + (s.bits.length + 7) / 8 + 1 ∧
      ∀ u : State, u.fault = false → u.ilen.toNat ≤ u.cfg.inCap → s.bits.length ≤ u.cfg.bitCap → holds u 0 record →
        exec .unpack u = .next { u with
          bits := s.bits, blen := s.blen, bc := 0, ipos := BitVec.ofNat 32 (u.ipos.toNat + record.length) }

/-- Rules R105 and R170 (U11): what UNPACK leaves does not depend on the padding bits, the remainder byte or anything else of the window beyond the bits counted. -/
def Obligations.UnpackIgnoresPaddingAndRemainder : Prop :=
  ∀ (s t : State) (m : Memory 8),
    (∀ k < 4, inByte { s with inb := m } k = inByte s k) →
    (∀ k < in32 s 0, (inByte { s with inb := m } (4 + k / 8)).getLsbD (7 - k % 8) = (inByte s (4 + k / 8)).getLsbD (7 - k % 8)) →
    exec .unpack s = .next t → exec .unpack { s with inb := m } = .next { t with inb := m }

/-! ### Frame codec: encoding -/

/-- Rules R102 and R103: the bits of a cell are the code's length in 8 bits, the code, then R, G and B in 8 bits each, `32 + L` bits in all; a delta cell has its index in 32 bits before them; every field is most significant bit first. -/
def Obligations.CellBitsHaveTheirLayout : Prop :=
  ∀ (code : Table (Option Bits)) (c : Cell) (k : Bits) (i : Nat), Table.at code c.sym = some k → 1 ≤ k.length →
    k.length ≤ 255 → i ≤ 2147483647 →
    cellBits code c = bits8 (BitVec.ofNat 8 k.length) ++ k ++ bits8 c.r ++ bits8 c.g ++ bits8 c.b ∧
    (cellBits code c).length = 32 + k.length ∧ deltaBits code (c, i) = bits32 i ++ cellBits code c ∧
    (deltaBits code (c, i)).length = 64 + k.length ∧
    (∀ v : Byte, ∀ j < 8, (bits8 v).getD j false = v.getLsbD (7 - j)) ∧
    ∀ j < 32, (bits32 i).getD j false = i.testBit (31 - j)

/-- Rule R185: ENC_FULL, its tests in order (flag, `CLEN`, codes from the lowest position, `BIT_CAP`, room), then its whole effect, and nothing else. -/
def Obligations.EncFullEncodesTheFrame : Prop :=
  ∀ s : State, s.Inv → s.fault = false →
    let bits := (cur s).flatMap (cellBits s.code)
    (s.codeV = false → exec .encFull s = .next (s.raise ⟨.illegalState, 0x40, (status s).toNat⟩)) ∧
    (s.codeV = true →
      (s.cfg.cellCap < s.clen.toNat →
        exec .encFull s = .next (s.raise ⟨.capacityExceeded, s.clen.toNat, s.cfg.cellCap⟩)) ∧
      (s.clen.toNat ≤ s.cfg.cellCap →
        (∀ (i : Nat) (c : Cell), (cur s)[i]? = some c → Table.at s.code c.sym = none →
          (∀ j < i, ∀ d, (cur s)[j]? = some d → Table.at s.code d.sym ≠ none) →
          exec .encFull s = .next (s.raise ⟨.missingCode, i, c.sym.toNat⟩)) ∧
        ((∀ c ∈ cur s, Table.at s.code c.sym ≠ none) →
          (s.cfg.bitCap < bits.length →
            exec .encFull s = .next (s.raise ⟨.capacityExceeded, bits.length, s.cfg.bitCap⟩)) ∧
          (bits.length ≤ s.cfg.bitCap →
            (s.cfg.outCap < s.olen.toNat + 4 →
              exec .encFull s = .next (s.raise ⟨.capacityExceeded, s.olen.toNat + 4, s.cfg.outCap⟩)) ∧
            (s.olen.toNat + 4 ≤ s.cfg.outCap →
              ∃ t, exec .encFull s = .next t ∧ out t = out s ++ le32 s.clen.toNat ∧
                t.olen.toNat = s.olen.toNat + 4 ∧ t.blen.toNat = bits.length ∧
                t = { s with
                  outb := t.outb, olen := t.olen, bits := bits, blen := t.blen, bc := 0, cnt := s.clen,
                  prev := cur s, plen := s.clen, prevV := true })))))

/-- Rule R196: the changed cells are, in ascending order of position, the cells of the frame at the positions at or above `PLEN` and at those where any of the four numbers differs from the previous frame's. -/
def Obligations.ChangedCellsAreThoseThatDiffer : Prop :=
  ∀ (prev f : Frame) (plen : Nat),
    (∀ (c : Cell) (i : Nat), (c, i) ∈ changedCells prev plen f ↔
      f[i]? = some c ∧ (plen ≤ i ∨ ∀ d, prev[i]? = some d → c.sym ≠ d.sym ∨ c.r ≠ d.r ∨ c.g ≠ d.g ∨ c.b ≠ d.b)) ∧
    (changedCells prev plen f).Pairwise fun p q => p.2 < q.2

/-- Rule R195: ENC_DELTA, its tests in order (flags, `CLEN`, codes of the changed cells from the lowest position, `BIT_CAP`, room), then its whole effect, and nothing else. -/
def Obligations.EncDeltaEncodesTheChangedCells : Prop :=
  ∀ s : State, s.Inv → s.fault = false →
    let ch := changedCells s.prev s.plen.toNat (cur s)
    let bits := ch.flatMap (deltaBits s.code)
    (s.codeV = false ∨ s.prevV = false →
      exec .encDelta s = .next (s.raise ⟨.illegalState, 0x42, (status s).toNat⟩)) ∧
    (s.codeV = true → s.prevV = true →
      (s.cfg.cellCap < s.clen.toNat →
        exec .encDelta s = .next (s.raise ⟨.capacityExceeded, s.clen.toNat, s.cfg.cellCap⟩)) ∧
      (s.clen.toNat ≤ s.cfg.cellCap →
        (∀ (i : Nat) (c : Cell), (c, i) ∈ ch → Table.at s.code c.sym = none →
          (∀ d j, (d, j) ∈ ch → j < i → Table.at s.code d.sym ≠ none) →
          exec .encDelta s = .next (s.raise ⟨.missingCode, i, c.sym.toNat⟩)) ∧
        ((∀ p ∈ ch, Table.at s.code p.1.sym ≠ none) →
          (s.cfg.bitCap < bits.length →
            exec .encDelta s = .next (s.raise ⟨.capacityExceeded, bits.length, s.cfg.bitCap⟩)) ∧
          (bits.length ≤ s.cfg.bitCap →
            (s.cfg.outCap < s.olen.toNat + 4 →
              exec .encDelta s = .next (s.raise ⟨.capacityExceeded, s.olen.toNat + 4, s.cfg.outCap⟩)) ∧
            (s.olen.toNat + 4 ≤ s.cfg.outCap →
              ∃ t, exec .encDelta s = .next t ∧ out t = out s ++ le32 ch.length ∧
                t.olen.toNat = s.olen.toNat + 4 ∧ t.blen.toNat = bits.length ∧ t.cnt.toNat = ch.length ∧
                t = { s with
                  outb := t.outb, olen := t.olen, bits := bits, blen := t.blen, bc := 0, cnt := t.cnt,
                  prev := cur s, plen := s.clen })))))

/-- The document's testable property S3 (rules R101 and R195): a frame equal to the previous one gives the change count 0, no bits, and with its PACK record the 9 bytes `00`. -/
def Obligations.UnchangedFrameEncodesToNineZeroBytes : Prop :=
  ∀ s : State, s.Inv → s.fault = false → s.codeV = true → s.prevV = true → s.clen = s.plen → cur s = s.prev →
    s.olen.toNat + 9 ≤ s.cfg.outCap →
    ∃ t u, exec .encDelta s = .next t ∧ exec .pack t = .next u ∧ t.fault = false ∧ u.fault = false ∧
      t.cnt = 0 ∧ t.bits = [] ∧ t.blen = 0 ∧ out u = out s ++ List.replicate 9 0x00

/-! ### Frame codec: decoding -/

/-- Rule R182: one cell is decoded by its tests in order: the length field, the walk, the walk's length against the field, then R, G and B. -/
def Obligations.DecodeCellTestsInOrder : Prop :=
  ∀ (s : State) (c j : Nat), s.Inv →
    (s.blen.toNat < c + 8 → decodeCell s c j = .error ⟨.truncatedStream, 8, s.blen.toNat - c⟩) ∧
    (c + 8 ≤ s.blen.toNat →
      (∀ r, Machine.decodeOne s (c + 8) j = .error r → decodeCell s c j = .error ⟨.malformedTree, j, c + 8⟩) ∧
      (∀ (x : Byte) (p : Nat), Machine.decodeOne s (c + 8) j = .ok (x, p) →
        (p ≠ c + 8 + val (bitsRead s c 8) → decodeCell s c j = .error ⟨.malformedTree, j, c + 8⟩) ∧
        (p = c + 8 + val (bitsRead s c 8) →
          (s.blen.toNat < p + 8 → decodeCell s c j = .error ⟨.truncatedStream, 8, s.blen.toNat - p⟩) ∧
          (p + 8 ≤ s.blen.toNat → s.blen.toNat < p + 16 →
            decodeCell s c j = .error ⟨.truncatedStream, 8, s.blen.toNat - (p + 8)⟩) ∧
          (p + 16 ≤ s.blen.toNat → s.blen.toNat < p + 24 →
            decodeCell s c j = .error ⟨.truncatedStream, 8, s.blen.toNat - (p + 16)⟩) ∧
          (p + 24 ≤ s.blen.toNat → ∃ r g b : Byte, decodeCell s c j = .ok (⟨x, r, g, b⟩, p + 24) ∧
            bits8 r = bitsRead s p 8 ∧ bits8 g = bitsRead s (p + 8) 8 ∧ bits8 b = bitsRead s (p + 16) 8))))

/-- Rule R190: DEC_FULL, its tests in order, decodes `CNT` cells from bit 0 whatever `BC` holds; it succeeds on every encoding of a frame of that many cells, writes the frame's words of `CURW` and no other, and on the first cell that does not decode it faults with that cell's fault.
With `CNT = 0` it needs no tree. -/
def Obligations.DecFullDecodesTheFrame : Prop :=
  ∀ s : State, s.Inv → s.fault = false →
    (2147483647 < s.cnt.toNat →
      exec .decFull s = .next (s.raise ⟨.reservedValue, s.cnt.toNat, 0xFFFFFFFF⟩)) ∧
    (s.cnt.toNat ≤ 2147483647 →
      (s.cfg.cellCap < s.cnt.toNat →
        exec .decFull s = .next (s.raise ⟨.capacityExceeded, s.cnt.toNat, s.cfg.cellCap⟩)) ∧
      (s.cnt.toNat ≤ s.cfg.cellCap →
        (∀ (m : Nat) (f : Frame) (c : Nat) (r : Raise), m < s.cnt.toNat → decodeCells s m 0 0 = .ok (f, c) →
          decodeCell s c m = .error r → exec .decFull s = .next (s.raise r)) ∧
        (∀ (f : Frame) (b : Bits), f.length = s.cnt.toNat → b <+: s.bits →
          (f = [] ∧ b = [] ∨ ∃ n, s.tree = some n ∧ isFrameEncoding n f b) →
          ∃ t, exec .decFull s = .next t ∧ cur t = f ∧ (∀ i, f.length ≤ i → curWord t i = curWord s i) ∧
            t = { s with
              curw := t.curw, clen := s.cnt, prev := f, plen := s.cnt, prevV := true,
              bc := BitVec.ofNat 32 b.length })))

/-- Rule R200: DEC_DELTA, its tests in order, applies `CNT` updates to a copy of `PREV` from bit 0 on, in stream order; it succeeds on every delta encoding whose indices are below `PLEN`; the first update that does not decode gives its fault, the index being tested before its cell.
With `CNT = 0` it needs no tree. -/
def Obligations.DecDeltaAppliesTheUpdates : Prop :=
  ∀ s : State, s.Inv → s.fault = false →
    (s.prevV = false → exec .decDelta s = .next (s.raise ⟨.illegalState, 0x43, (status s).toNat⟩)) ∧
    (s.prevV = true →
      (2147483647 < s.cnt.toNat →
        exec .decDelta s = .next (s.raise ⟨.reservedValue, s.cnt.toNat, 0xFFFFFFFF⟩)) ∧
      (s.cnt.toNat ≤ 2147483647 →
        (∀ (m : Nat) (w : Frame) (c : Nat), m < s.cnt.toNat → decodeUpdates s m 0 0 s.prev = .ok (w, c) →
          (s.blen.toNat < c + 32 →
            exec .decDelta s = .next (s.raise ⟨.truncatedStream, 32, s.blen.toNat - c⟩)) ∧
          (c + 32 ≤ s.blen.toNat → s.plen.toNat ≤ val (bitsRead s c 32) →
            exec .decDelta s = .next (s.raise ⟨.indexOutOfRange, val (bitsRead s c 32), s.plen.toNat⟩)) ∧
          (c + 32 ≤ s.blen.toNat → val (bitsRead s c 32) < s.plen.toNat → ∀ r, decodeCell s (c + 32) m = .error r →
            exec .decDelta s = .next (s.raise r))) ∧
        (∀ (ch : List (Cell × Nat)) (b : Bits), ch.length = s.cnt.toNat → (∀ p ∈ ch, p.2 < s.plen.toNat) → b <+: s.bits →
          (ch = [] ∧ b = [] ∨ ∃ n, s.tree = some n ∧ isDeltaEncoding n ch b) →
          ∃ t, exec .decDelta s = .next t ∧ cur t = applyUpdates s.prev ch ∧
            (∀ i, s.plen.toNat ≤ i → curWord t i = curWord s i) ∧
            t = { s with
              curw := t.curw, clen := s.plen, prev := applyUpdates s.prev ch, bc := BitVec.ofNat 32 b.length })))

/-- Rule R205: (a) what ENC_FULL leaves decodes with DEC_FULL to the frame encoded; (b) what ENC_DELTA leaves decodes with DEC_DELTA against the same previous frame to the frame encoded, when the two have one length; (c) a longer frame is IndexOutOfRange at the first index past the previous frame, and a shorter one decodes to the frame followed by the rest of the previous one.
It holds for every tree, distinct leaf symbols or not. -/
def Obligations.FrameRoundTrip : Prop :=
  ∀ s t v : State, s.Inv → v.Inv → s.fault = false → t.fault = false → v.fault = false →
    v.tree = s.tree → v.bits = t.bits → v.cnt = t.cnt →
    (exec .encFull s = .next t → t.cnt.toNat ≤ v.cfg.cellCap →
      ∃ u, exec .decFull v = .next u ∧ u.fault = false ∧ cur u = cur s) ∧
    (exec .encDelta s = .next t → v.prevV = true → v.prev = s.prev →
      ((cur s).length = s.prev.length → ∃ u, exec .decDelta v = .next u ∧ u.fault = false ∧ cur u = cur s) ∧
      (s.prev.length < (cur s).length →
        exec .decDelta v = .next (v.raise ⟨.indexOutOfRange, s.prev.length, s.prev.length⟩)) ∧
      ((cur s).length < s.prev.length →
        ∃ u, exec .decDelta v = .next u ∧ u.fault = false ∧ cur u = cur s ++ s.prev.drop (cur s).length))

/-- Rules R27, R42 and R281: what the decoders give does not depend on the bit cursor, the current-frame window or the stream registers the host may have written before. -/
def Obligations.DecodersIgnoreWhatTheHostLeft : Prop :=
  ∀ (i : Instr) (s t : State) (b c l : Word) (m : Memory 32), i = .decFull ∨ i = .decDelta →
    s.fault = false → exec i s = .next t → s.plen.toNat = s.prev.length →
    ∃ u, exec i { s with bc := b, clen := c, ilen := l, curw := m } = .next u ∧ u.fault = t.fault ∧
      u.err = t.err ∧ u.errInfo0 = t.errInfo0 ∧ u.errInfo1 = t.errInfo1 ∧ u.prev = t.prev ∧
      (t.fault = false → cur u = cur t ∧ u.bc = t.bc ∧ u.clen = t.clen)

/-! ### Container fields -/

/-- Rule R210: PUT32 appends `CNT` as a count field, least significant byte first, and changes nothing else; it faults when bit 31 of `CNT` is set and when there is no room. -/
def Obligations.Put32AppendsTheCount : Prop :=
  ∀ s : State, s.Inv → s.fault = false →
    (2147483647 < s.cnt.toNat →
      exec .put32 s = .next (s.raise ⟨.capacityExceeded, s.cnt.toNat, 2147483647⟩)) ∧
    (s.cnt.toNat ≤ 2147483647 →
      (s.cfg.outCap < s.olen.toNat + 4 →
        exec .put32 s = .next (s.raise ⟨.capacityExceeded, s.olen.toNat + 4, s.cfg.outCap⟩)) ∧
      (s.olen.toNat + 4 ≤ s.cfg.outCap →
        ∃ t, exec .put32 s = .next t ∧
          out t = out s ++ [s.cnt.extractLsb' 0 8, s.cnt.extractLsb' 8 8, s.cnt.extractLsb' 16 8, s.cnt.extractLsb' 24 8] ∧
          t.olen.toNat = s.olen.toNat + 4 ∧ t = { s with outb := t.outb, olen := t.olen }))

/-- Rule R211: GET32 tests `ILEN`, the 4 bytes and bit 31 in that order, then puts the count field, least significant byte first, into `CNT`, moves `IPOS` by 4 and changes nothing else. -/
def Obligations.Get32ReadsTheCount : Prop :=
  ∀ s : State, s.fault = false →
    let v := (inByte s 0).toNat + 256 * (inByte s 1).toNat + 65536 * (inByte s 2).toNat + 16777216 * (inByte s 3).toNat
    (s.cfg.inCap < s.ilen.toNat →
      exec .get32 s = .next (s.raise ⟨.capacityExceeded, s.ilen.toNat, s.cfg.inCap⟩)) ∧
    (s.ilen.toNat ≤ s.cfg.inCap →
      (inAvail s < 4 → exec .get32 s = .next (s.raise ⟨.truncatedStream, 4, inAvail s⟩)) ∧
      (4 ≤ inAvail s →
        (2147483647 < v → exec .get32 s = .next (s.raise ⟨.reservedValue, v, s.ipos.toNat⟩)) ∧
        (v ≤ 2147483647 →
          exec .get32 s = .next { s with cnt := BitVec.ofNat 32 v, ipos := BitVec.ofNat 32 (s.ipos.toNat + 4) })))

/-! ### Faults -/

/-- Rule R250: a command that faults changes nothing but `ERR`, the two diagnostic words, saturated to 32 bits, and `FAULT`; the codes of the causes the block raises are those of the table of rule R240. -/
def Obligations.FaultsArePrecise : Prop :=
  (Cause.emptyInput.code = 1 ∧ Cause.truncatedStream.code = 2 ∧ Cause.malformedTree.code = 3 ∧
    Cause.indexOutOfRange.code = 4 ∧ Cause.missingCode.code = 6 ∧ Cause.reservedValue.code = 7 ∧
    Cause.capacityExceeded.code = 8 ∧ Cause.illegalCommand.code = 9 ∧ Cause.illegalState.code = 10) ∧
  (∀ (s : State) (r : Raise), s.raise r = { s with
    err := r.cause.code, errInfo0 := BitVec.ofNat 32 (min r.info0 0xFFFFFFFF),
    errInfo1 := BitVec.ofNat 32 (min r.info1 0xFFFFFFFF), fault := true }) ∧
  ∀ (i : Instr) (s t : State), exec i s = .next t → s.fault = false → t.fault = true →
    ∃ r : Raise, t = s.raise r ∧ r.cause.code ∈ ([1, 2, 3, 4, 6, 7, 8, 10] : List Byte)

/-- Rule R258: which commands raise IllegalState, for which missing piece of state, and that the decoders raise MalformedTree instead when only the tree is missing. -/
def Obligations.MissingStateIsIllegalState : Prop :=
  ∀ s : State, s.Inv → s.fault = false →
    (s.treeV = false → exec .genCodes s = .next (s.raise ⟨.illegalState, 0x13, (status s).toNat⟩) ∧
      exec .treeWr s = .next (s.raise ⟨.illegalState, 0x20, (status s).toNat⟩)) ∧
    (s.codeV = false → exec .encFull s = .next (s.raise ⟨.illegalState, 0x40, (status s).toNat⟩)) ∧
    (s.codeV = false ∨ s.prevV = false →
      exec .encDelta s = .next (s.raise ⟨.illegalState, 0x42, (status s).toNat⟩)) ∧
    (s.prevV = false → exec .decDelta s = .next (s.raise ⟨.illegalState, 0x43, (status s).toNat⟩)) ∧
    (s.treeV = false → exec .decodeOne s = .next (s.raise ⟨.malformedTree, 0, s.bc.toNat⟩)) ∧
    (s.treeV = false → 1 ≤ s.cnt.toNat → s.cnt.toNat ≤ 2147483647 → s.cnt.toNat ≤ s.cfg.cellCap → 8 ≤ s.blen.toNat →
      exec .decFull s = .next (s.raise ⟨.malformedTree, 0, 8⟩)) ∧
    (s.treeV = false → s.prevV = true → 1 ≤ s.cnt.toNat → s.cnt.toNat ≤ 2147483647 → 40 ≤ s.blen.toNat →
      val (bitsRead s 0 32) < s.plen.toNat → exec .decDelta s = .next (s.raise ⟨.malformedTree, 0, 40⟩))

/-- Rule R253: the length register the host wrote is tested by the command that uses it, before anything else of that command but the flags. -/
def Obligations.LengthsAreTestedFirst : Prop :=
  ∀ s : State, s.fault = false →
    (s.cfg.cellCap < s.clen.toNat →
      exec .freqAcc s = .next (s.raise ⟨.capacityExceeded, s.clen.toNat, s.cfg.cellCap⟩) ∧
      (s.codeV = true → exec .encFull s = .next (s.raise ⟨.capacityExceeded, s.clen.toNat, s.cfg.cellCap⟩)) ∧
      (s.codeV = true → s.prevV = true →
        exec .encDelta s = .next (s.raise ⟨.capacityExceeded, s.clen.toNat, s.cfg.cellCap⟩))) ∧
    (s.cfg.inCap < s.ilen.toNat →
      exec .get32 s = .next (s.raise ⟨.capacityExceeded, s.ilen.toNat, s.cfg.inCap⟩) ∧
      exec .treeRd s = .next (s.raise ⟨.capacityExceeded, s.ilen.toNat, s.cfg.inCap⟩) ∧
      exec .unpack s = .next (s.raise ⟨.capacityExceeded, s.ilen.toNat, s.cfg.inCap⟩))

/-- Rules R80 and R278: after a BUILD_TREE or TREE_RD that succeeds, the encoders raise IllegalState. -/
def Obligations.ANewTreeMakesTheCodeTableStale : Prop :=
  ∀ (i : Instr) (s t : State), i = .buildTree ∨ i = .treeRd → exec i s = .next t → s.fault = false → t.fault = false →
    t.treeV = true ∧ exec .encFull t = .next (t.raise ⟨.illegalState, 0x40, (status t).toNat⟩) ∧
    exec .encDelta t = .next (t.raise ⟨.illegalState, 0x42, (status t).toNat⟩)

/-! ### What the commands write -/

/-- Rule R37: a flag is set and cleared only by the commands of its row, on success; a faulting command changes no flag but `FAULT`. -/
def Obligations.FlagsChangeOnlyAsTheTableSays : Prop :=
  ∀ (i : Instr) (s t : State), exec i s = .next t →
    (s.treeV = false → t.treeV = true → i = .buildTree ∨ i = .treeRd) ∧
    (s.treeV = true → t.treeV = false → i = .reset) ∧
    (s.codeV = false → t.codeV = true → i = .genCodes) ∧
    (s.codeV = true → t.codeV = false → i = .buildTree ∨ i = .treeRd ∨ i = .reset) ∧
    (s.prevV = false → t.prevV = true → i = .encFull ∨ i = .decFull) ∧
    (s.prevV = true → t.prevV = false → i = .reset) ∧
    (s.fault = true → t.fault = false → i = .reset) ∧
    (s.fault = false → t.fault = true → t.treeV = s.treeV ∧ t.codeV = s.codeV ∧ t.prevV = s.prevV) ∧
    (s.fault = false → t.fault = false →
      (i = .buildTree ∨ i = .treeRd → t.treeV = true ∧ t.codeV = false) ∧ (i = .genCodes → t.codeV = true) ∧
      (i = .encFull ∨ i = .decFull → t.prevV = true) ∧
      (i = .reset → t.treeV = false ∧ t.codeV = false ∧ t.prevV = false))

/-- Rule R93, its column of what each command writes: every other register, table and buffer keeps its value.
That `cfg`, `epoch`, `hostQueue` and `rdata` stay too is no part of R93: they are the model's own fields, by the DESIGN CHOICEs of log entries 2, 3, 1 and 4. -/
def Obligations.CommandsWriteOnlyTheirOperands : Prop :=
  ∀ (i : Instr) (s t : State), i ≠ .reset → exec i s = .next t →
    (i ∉ [Instr.freqClr, .freqAcc] → t.freq = s.freq) ∧
    (i ∉ [Instr.buildTree, .treeRd] → t.tree = s.tree ∧ t.treeV = s.treeV) ∧
    (i ≠ .genCodes → t.code = s.code) ∧
    (i ∉ [Instr.buildTree, .treeRd, .genCodes] → t.codeV = s.codeV) ∧
    (i ≠ .decodeOne → t.sym = s.sym) ∧
    (i ∉ [Instr.decodeOne, .unpack, .encFull, .decFull, .encDelta, .decDelta] → t.bc = s.bc) ∧
    (i ∉ [Instr.treeWr, .pack, .put32, .encFull, .encDelta] → t.outb = s.outb ∧ t.olen = s.olen) ∧
    (i ∉ [Instr.treeRd, .unpack, .get32] → t.ipos = s.ipos) ∧
    (i ∉ [Instr.unpack, .encFull, .encDelta] → t.bits = s.bits ∧ t.blen = s.blen) ∧
    (i ∉ [Instr.encFull, .encDelta, .get32] → t.cnt = s.cnt) ∧
    (i ∉ [Instr.encFull, .decFull, .encDelta, .decDelta] → t.prev = s.prev ∧ t.plen = s.plen) ∧
    (i ∉ [Instr.encFull, .decFull] → t.prevV = s.prevV) ∧
    (i ∉ [Instr.decFull, .decDelta] → t.curw = s.curw ∧ t.clen = s.clen) ∧
    (t.fault = false → t.err = s.err ∧ t.errInfo0 = s.errInfo0 ∧ t.errInfo1 = s.errInfo1) ∧
    t.inb = s.inb ∧ t.ilen = s.ilen ∧ t.cfg = s.cfg ∧ t.epoch = s.epoch ∧ t.hostQueue = s.hostQueue ∧ t.rdata = s.rdata

/-- Rules R42, R44, R69 and R70: the frame of the windows: no command but RESET changes any byte of `INB`, any byte of `OUTB` outside those it appends from `OLEN` on, or any word of `CURW` outside the decoded frame.
Where a location holds an unspecified value (`OUTB` at and above `OLEN`, and what nothing has written since reset), that reads before and after agree is the model's choice of log entry 3, not the spec's. -/
def Obligations.CommandsLeaveTheRestOfTheWindows : Prop :=
  ∀ (i : Instr) (s t : State), s.Inv → i ≠ .reset → exec i s = .next t →
    (∀ k, inbByte t k = inbByte s k) ∧
    s.olen.toNat ≤ t.olen.toNat ∧
    (∀ k, k < s.olen.toNat ∨ t.olen.toNat ≤ k → outbByte t k = outbByte s k) ∧
    (i ∉ [Instr.treeWr, .pack, .put32, .encFull, .encDelta] → ∀ k, outbByte t k = outbByte s k) ∧
    (∀ j, i ∉ [Instr.decFull, .decDelta] ∨ t.clen.toNat ≤ j → curWord t j = curWord s j)

/-- Rules R290 and R230: every command ends in a next state, whatever the state. -/
def Obligations.EveryCommandEnds : Prop := ∀ (i : Instr) (s : State), ∃ t, exec i s = .next t

/-! ### Encoding and dispatch -/

/-- Rules R92 and R94: a word is a command exactly when it is one of the 17 words of the opcode map; no reserved bit is ignored and no word has two meanings. -/
def Obligations.DecodingIsExactlyTheOpcodeMap : Prop :=
  (∀ (w : Word) (i : Instr), decode w = .ok i ↔ w = encode i) ∧
  (∀ w : Word, w.toNat / 256 ≠ 0 → decode w = .error .reservedBits) ∧
  ∀ w : Word, w.toNat / 256 = 0 → (∀ i, w ≠ encode i) → decode w = .error .unassignedOpcode

/-- Rule R92: the 17 words of the opcode map, written out, are the commands they stand for, and no other word is a command. -/
def Obligations.WordsOfTheOpcodeMapDecode : Prop :=
  let map : List (Word × Instr) :=
    [(0x00000000, .nop), (0x00000001, .reset),
     (0x00000010, .freqClr), (0x00000011, .freqAcc), (0x00000012, .buildTree), (0x00000013, .genCodes), (0x00000014, .decodeOne),
     (0x00000020, .treeWr), (0x00000021, .treeRd),
     (0x00000030, .pack), (0x00000031, .unpack),
     (0x00000040, .encFull), (0x00000041, .decFull), (0x00000042, .encDelta), (0x00000043, .decDelta),
     (0x00000050, .put32), (0x00000051, .get32)]
  ∀ (w : Word) (i : Instr), decode w = .ok i ↔ (w, i) ∈ map

/-- Rule R91: what a write of any word to `CMD` does. -/
def Obligations.EveryWordIsDispatched : Prop :=
  ∀ (w : Word) (s : State),
    (s.fault = true → w = 0x00000001 → writeCmd w s = exec .reset s) ∧
    (s.fault = true → w ≠ 0x00000001 → writeCmd w s = .next s) ∧
    (s.fault = false → (∀ i, w ≠ encode i) → writeCmd w s = .next (s.raise ⟨.illegalCommand, w.toNat, 0⟩)) ∧
    (s.fault = false → ∀ i, w = encode i → writeCmd w s = exec i s)

/-- Rules R21, R77 and R91: when the host's next access is a write to `CMD` of a word that decodes to `i`, a step is `exec i` of the state without that access; a word that does not decode is IllegalCommand, or ignored while `FAULT = 1`. -/
def Obligations.StepRunsTheDecodedCommand : Prop :=
  ∀ (s : State) (w : Word) (rest : List HostAccess), s.hostQueue = .write 0x00 4 w :: rest →
    (∀ i, decode w = .ok i → step s = exec i { s with hostQueue := rest }) ∧
    (∀ e, decode w = .error e → step s =
      if s.fault then .next { s with hostQueue := rest }
      else .next ({ s with hostQueue := rest }.raise ⟨.illegalCommand, w.toNat, 0⟩))

/-- Rules R263 and R271: with nothing asked of it the engine is idle and holds all its state. -/
def Obligations.IdleEngineHoldsItsState : Prop := ∀ s : State, s.hostQueue = [] → step s = .next s

/-! ### The host's port -/

/-- Rules R22 and R47: what a host read of each register offset returns; a reserved offset and `CMD` read 0; a read changes nothing but the value returned. -/
def Obligations.RegisterReadsFollowTheMap : Prop :=
  ∀ s : State,
    let reads := fun (offset : Nat) (v : Word) => hostAccess (.read offset 4) s = .next { s with rdata := v }
    reads 0x00 0 ∧
    (∃ v : Word, reads 0x04 v ∧ v.getLsbD 0 = s.treeV ∧ v.getLsbD 1 = s.codeV ∧ v.getLsbD 2 = s.prevV ∧
      v.getLsbD 3 = s.fault ∧ v.toNat < 16) ∧
    (∃ v : Word, reads 0x08 v ∧ v.toNat = s.err.toNat) ∧ reads 0x0C s.errInfo0 ∧ reads 0x10 s.errInfo1 ∧
    reads 0x14 s.cnt ∧ (∃ v : Word, reads 0x18 v ∧ v.toNat = s.sym.toNat) ∧ reads 0x1C s.bc ∧ reads 0x20 s.blen ∧
    reads 0x24 s.clen ∧ reads 0x28 s.plen ∧ reads 0x2C s.ilen ∧ reads 0x30 s.ipos ∧ reads 0x34 s.olen ∧
    ∀ offset, 0x38 ≤ offset → offset ≤ 0xFF → offset % 4 = 0 → reads offset 0

/-- Rules R34 and R82: a host write of `CNT`, `BC`, `CLEN` or `ILEN` gives the register the value; a write of a read-only register or a reserved offset is ignored. -/
def Obligations.RegisterWritesFollowTheMap : Prop :=
  ∀ (s : State) (v : Word),
    let writes := fun (offset : Nat) (t : State) => hostAccess (.write offset 4 v) s = .next t
    writes 0x14 { s with cnt := v } ∧ writes 0x1C { s with bc := v } ∧ writes 0x24 { s with clen := v } ∧
    writes 0x2C { s with ilen := v } ∧
    (∀ offset ∈ [0x04, 0x08, 0x0C, 0x10, 0x18, 0x20, 0x28, 0x30, 0x34], writes offset s) ∧
    ∀ offset, 0x38 ≤ offset → offset ≤ 0xFF → offset % 4 = 0 → writes offset s

/-- Rules R42, R44, R45 and R82: the host writes and reads single bytes of `INB` and whole words of `CURW`, each write leaving every other location alone, reads `OUTB`, and cannot write it.
That a one-byte write takes the low 8 bits of a 32-bit value is the DESIGN CHOICE of log entry 9, that the value read is in `rdata` with zeros above a byte that of log entry 4; what a read of `OUTB` at and above `OLEN`, or of a location nothing has written, returns is the free value of log entry 3. -/
def Obligations.WindowAccessesFollowTheMap : Prop :=
  ∀ (s : State) (v : Word), s.cfg.WellFormed →
    (∀ k < s.cfg.inCap,
      hostAccess (.read (s.cfg.inBase + k) 1) s = .next { s with rdata := (inbByte s k).setWidth 32 } ∧
      ∃ t, hostAccess (.write (s.cfg.inBase + k) 1 v) s = .next t ∧ t = { s with inb := t.inb } ∧
        inbByte t k = v.extractLsb' 0 8 ∧ ∀ j, j ≠ k → inbByte t j = inbByte s j) ∧
    (∀ k < s.cfg.outCap,
      hostAccess (.read (s.cfg.outBase + k) 1) s = .next { s with rdata := (outbByte s k).setWidth 32 } ∧
      hostAccess (.write (s.cfg.outBase + k) 1 v) s = .next s) ∧
    (∀ i < s.cfg.cellCap,
      hostAccess (.read (s.cfg.curBase + 4 * i) 4) s = .next { s with rdata := curWord s i } ∧
      ∃ t, hostAccess (.write (s.cfg.curBase + 4 * i) 4 v) s = .next t ∧ t = { s with curw := t.curw } ∧
        curWord t i = v ∧ ∀ j, j ≠ i → curWord t j = curWord s j)

/-- Rules R34 and R62 (U9 `refuse`): a step is refused exactly when the host's next access is one the spec does not define; every other step goes on.
Which accesses count as not defined (`HostAccess.defined`), an address in no register and no window included, is the model's reading, DEDUCED in log entry 5; the queue is the DESIGN CHOICE of log entry 1. -/
def Obligations.OnlyUndefinedAccessesAreRefused : Prop :=
  ∀ s : State, s.cfg.WellFormed →
    (safeStep s ↔ ∀ a rest, s.hostQueue = a :: rest → a.defined s.cfg) ∧
    ∀ a rest, s.hostQueue = a :: rest → ¬ a.defined s.cfg → ∃ r, step s = .refused r

/-! ### Invariant -/

/-- Rule R49: the invariant holds after power-on, for every well-formed part. -/
def Obligations.InvariantHoldsAtReset : Prop :=
  State.reset.Inv ∧ ∀ c : Config, c.WellFormed → ({ State.reset with cfg := c } : State).Inv

/-- Rule R49 (a) to (f), with the bounds, the window forms and the codes of `ERR`: every step keeps the invariant, a command or a host access, faulting or not. -/
def Obligations.EveryStepKeepsTheInvariant : Prop :=
  ∀ s t : State, s.Inv → step s = .next t → t.Inv

/-! ### Whole sequences -/

/-- Rule R219: for a video of at least one cell whose frames have one size, COMPRESS fails in no other way than CapacityExceeded, and the container it makes DECOMPRESS turns back into the video, on any part with the room for it.
The parts' states before the calls do not matter: both sequences begin with RESET. -/
def Obligations.CompressThenDecompressIsTheVideo : Prop :=
  ∀ (v : List Frame) (m : Nat) (s u : State), s.cfg.WellFormed → u.cfg.WellFormed →
    (∃ f ∈ v, f ≠ []) → (∀ f ∈ v, f.length = m) → v.length ≤ 2147483647 →
    m ≤ s.cfg.cellCap → m ≤ u.cfg.cellCap → s.cfg.bitCap ≤ u.cfg.bitCap →
    (∀ e, compress v s = .error e → e = .failed 8) ∧
    ∀ b t, compress v s = .ok (b, t) → b.length ≤ u.cfg.inCap → ∃ w, decompress b u = .ok (v, w)

/-! ### The current-frame window as cells -/

/-- Rule R42: cell `i` of the current frame is bits 31 to 24, 23 to 16, 15 to 8 and 7 to 0 of `CURW[i]`, symbol, R, G and B, and the frame has `CLEN` cells; a decoder that succeeds leaves the words of the frame it puts in `PREV` in that layout. -/
def Obligations.CellsLieInTheirWords : Prop :=
  (∀ s : State, (cur s).length = s.clen.toNat ∧ ∀ i < s.clen.toNat,
    (cur s)[i]? = some ⟨(curWord s i).extractLsb' 24 8, (curWord s i).extractLsb' 16 8,
      (curWord s i).extractLsb' 8 8, (curWord s i).extractLsb' 0 8⟩) ∧
  ∀ (i : Instr) (s t : State), s.Inv → i = .decFull ∨ i = .decDelta → exec i s = .next t → s.fault = false →
    t.fault = false → t.clen.toNat = t.prev.length ∧
      ∀ (k : Nat) (c : Cell), t.prev[k]? = some c → curWord t k = c.sym ++ c.r ++ c.g ++ c.b
end

