-- ==== Sys2Proof/Laws/Decode.lean ====
section
/-! SUPPORT. The decoder and the encoder agree (rules R91, R92 and R94). -/

namespace Sys2Proof

/-- A word is its reserved field and its opcode (rule R90). -/
theorem word_fields (w : Word) : w.toNat = 256 * (fieldRsv w).toNat + (fieldOpcode w).toNat := by
  have := w.isLt
  simp only [fieldRsv, fieldOpcode, BitVec.extractLsb'_toNat, Nat.shiftRight_eq_div_pow]
  omega

theorem fieldOpcode_encode (i : Instr) : opcodeInstr (fieldOpcode (encode i)) = some i := by cases i <;> decide

theorem fieldRsv_encode (i : Instr) : fieldRsv (encode i) = 0 := by cases i <;> decide

theorem opcodeInstr_sound : ∀ op : Byte, ∀ i, opcodeInstr op = some i → encode i = op.setWidth 32 := by
  intro op i h
  simp only [opcodeInstr, Option.map_eq_some_iff] at h
  obtain ⟨row, hf, rfl⟩ := h
  have hm := List.mem_of_find?_eq_some hf
  have hp := List.find?_some hf
  have : row.1 = op := by simpa using hp
  subst this
  revert hm
  have : ∀ row ∈ opcodeMap, encode row.2 = row.1.setWidth 32 := by decide
  exact this row

/-- A word decodes to a command exactly when it is that command's word: no reserved bit is ignored, and no opcode has two meanings. -/
theorem decode_eq_ok {w : Word} {i : Instr} : decode w = .ok i ↔ w = encode i := by
  constructor
  · intro h
    simp only [decode] at h
    split at h
    · simp at h
    · next hr =>
      have hr : fieldRsv w = 0 := by simpa using hr
      split at h
      · next j hj =>
        have hij : j = i := by simpa using h
        subst hij
        have := opcodeInstr_sound _ _ hj
        rw [this]
        apply BitVec.eq_of_toNat_eq
        have hw := word_fields w
        rw [hr] at hw
        have := (fieldOpcode w).isLt
        simp at hw ⊢
        omega
      · simp at h
  · rintro rfl
    simp [decode, fieldRsv_encode, fieldOpcode_encode]

theorem decode_encode (i : Instr) : decode (encode i) = .ok i := decode_eq_ok.2 rfl

/-- A word the decoder rejects is the word of no command. -/
theorem decode_error_ne {w : Word} {e : DecodeReject} (h : decode w = .error e) (i : Instr) : w ≠ encode i := by
  rintro rfl
  simp [decode_encode] at h

end Sys2Proof
end

