-- ==== Sys2Proof/Laws/State.lean ====
section
/-! SUPPORT. One lemma per field per update of the state, so that no later proof unfolds a record update. -/

namespace Sys2Proof.Machine

/-! ### fault entry (rule R250) -/

@[simp] theorem State.raise_treeV (s : State) (r : Raise) : (s.raise r).treeV = s.treeV := rfl
@[simp] theorem State.raise_codeV (s : State) (r : Raise) : (s.raise r).codeV = s.codeV := rfl
@[simp] theorem State.raise_prevV (s : State) (r : Raise) : (s.raise r).prevV = s.prevV := rfl
@[simp] theorem State.raise_fault (s : State) (r : Raise) : (s.raise r).fault = true := rfl
@[simp] theorem State.raise_err (s : State) (r : Raise) : (s.raise r).err = r.cause.code := rfl
@[simp] theorem State.raise_errInfo0 (s : State) (r : Raise) : (s.raise r).errInfo0 = sat32 r.info0 := rfl
@[simp] theorem State.raise_errInfo1 (s : State) (r : Raise) : (s.raise r).errInfo1 = sat32 r.info1 := rfl
@[simp] theorem State.raise_cnt (s : State) (r : Raise) : (s.raise r).cnt = s.cnt := rfl
@[simp] theorem State.raise_sym (s : State) (r : Raise) : (s.raise r).sym = s.sym := rfl
@[simp] theorem State.raise_bc (s : State) (r : Raise) : (s.raise r).bc = s.bc := rfl
@[simp] theorem State.raise_blen (s : State) (r : Raise) : (s.raise r).blen = s.blen := rfl
@[simp] theorem State.raise_clen (s : State) (r : Raise) : (s.raise r).clen = s.clen := rfl
@[simp] theorem State.raise_plen (s : State) (r : Raise) : (s.raise r).plen = s.plen := rfl
@[simp] theorem State.raise_ilen (s : State) (r : Raise) : (s.raise r).ilen = s.ilen := rfl
@[simp] theorem State.raise_ipos (s : State) (r : Raise) : (s.raise r).ipos = s.ipos := rfl
@[simp] theorem State.raise_olen (s : State) (r : Raise) : (s.raise r).olen = s.olen := rfl
@[simp] theorem State.raise_freq (s : State) (r : Raise) : (s.raise r).freq = s.freq := rfl
@[simp] theorem State.raise_tree (s : State) (r : Raise) : (s.raise r).tree = s.tree := rfl
@[simp] theorem State.raise_code (s : State) (r : Raise) : (s.raise r).code = s.code := rfl
@[simp] theorem State.raise_bits (s : State) (r : Raise) : (s.raise r).bits = s.bits := rfl
@[simp] theorem State.raise_curw (s : State) (r : Raise) : (s.raise r).curw = s.curw := rfl
@[simp] theorem State.raise_prev (s : State) (r : Raise) : (s.raise r).prev = s.prev := rfl
@[simp] theorem State.raise_inb (s : State) (r : Raise) : (s.raise r).inb = s.inb := rfl
@[simp] theorem State.raise_outb (s : State) (r : Raise) : (s.raise r).outb = s.outb := rfl
@[simp] theorem State.raise_cfg (s : State) (r : Raise) : (s.raise r).cfg = s.cfg := rfl
@[simp] theorem State.raise_epoch (s : State) (r : Raise) : (s.raise r).epoch = s.epoch := rfl
@[simp] theorem State.raise_hostQueue (s : State) (r : Raise) : (s.raise r).hostQueue = s.hostQueue := rfl
@[simp] theorem State.raise_rdata (s : State) (r : Raise) : (s.raise r).rdata = s.rdata := rfl

/-! ### a new tree (rule R37) -/

@[simp] theorem State.setTree_treeV (s : State) (t : Node) : (s.setTree t).treeV = true := rfl
@[simp] theorem State.setTree_codeV (s : State) (t : Node) : (s.setTree t).codeV = false := rfl
@[simp] theorem State.setTree_prevV (s : State) (t : Node) : (s.setTree t).prevV = s.prevV := rfl
@[simp] theorem State.setTree_fault (s : State) (t : Node) : (s.setTree t).fault = s.fault := rfl
@[simp] theorem State.setTree_err (s : State) (t : Node) : (s.setTree t).err = s.err := rfl
@[simp] theorem State.setTree_errInfo0 (s : State) (t : Node) : (s.setTree t).errInfo0 = s.errInfo0 := rfl
@[simp] theorem State.setTree_errInfo1 (s : State) (t : Node) : (s.setTree t).errInfo1 = s.errInfo1 := rfl
@[simp] theorem State.setTree_cnt (s : State) (t : Node) : (s.setTree t).cnt = s.cnt := rfl
@[simp] theorem State.setTree_sym (s : State) (t : Node) : (s.setTree t).sym = s.sym := rfl
@[simp] theorem State.setTree_bc (s : State) (t : Node) : (s.setTree t).bc = s.bc := rfl
@[simp] theorem State.setTree_blen (s : State) (t : Node) : (s.setTree t).blen = s.blen := rfl
@[simp] theorem State.setTree_clen (s : State) (t : Node) : (s.setTree t).clen = s.clen := rfl
@[simp] theorem State.setTree_plen (s : State) (t : Node) : (s.setTree t).plen = s.plen := rfl
@[simp] theorem State.setTree_ilen (s : State) (t : Node) : (s.setTree t).ilen = s.ilen := rfl
@[simp] theorem State.setTree_ipos (s : State) (t : Node) : (s.setTree t).ipos = s.ipos := rfl
@[simp] theorem State.setTree_olen (s : State) (t : Node) : (s.setTree t).olen = s.olen := rfl
@[simp] theorem State.setTree_freq (s : State) (t : Node) : (s.setTree t).freq = s.freq := rfl
@[simp] theorem State.setTree_tree (s : State) (t : Node) : (s.setTree t).tree = some t := rfl
@[simp] theorem State.setTree_code (s : State) (t : Node) : (s.setTree t).code = s.code := rfl
@[simp] theorem State.setTree_bits (s : State) (t : Node) : (s.setTree t).bits = s.bits := rfl
@[simp] theorem State.setTree_curw (s : State) (t : Node) : (s.setTree t).curw = s.curw := rfl
@[simp] theorem State.setTree_prev (s : State) (t : Node) : (s.setTree t).prev = s.prev := rfl
@[simp] theorem State.setTree_inb (s : State) (t : Node) : (s.setTree t).inb = s.inb := rfl
@[simp] theorem State.setTree_outb (s : State) (t : Node) : (s.setTree t).outb = s.outb := rfl
@[simp] theorem State.setTree_cfg (s : State) (t : Node) : (s.setTree t).cfg = s.cfg := rfl
@[simp] theorem State.setTree_epoch (s : State) (t : Node) : (s.setTree t).epoch = s.epoch := rfl
@[simp] theorem State.setTree_hostQueue (s : State) (t : Node) : (s.setTree t).hostQueue = s.hostQueue := rfl
@[simp] theorem State.setTree_rdata (s : State) (t : Node) : (s.setTree t).rdata = s.rdata := rfl

/-! ### a new code table (rule R37) -/

@[simp] theorem State.setCode_treeV (s : State) (c : Table (Option Bits)) : (s.setCode c).treeV = s.treeV := rfl
@[simp] theorem State.setCode_codeV (s : State) (c : Table (Option Bits)) : (s.setCode c).codeV = true := rfl
@[simp] theorem State.setCode_prevV (s : State) (c : Table (Option Bits)) : (s.setCode c).prevV = s.prevV := rfl
@[simp] theorem State.setCode_fault (s : State) (c : Table (Option Bits)) : (s.setCode c).fault = s.fault := rfl
@[simp] theorem State.setCode_err (s : State) (c : Table (Option Bits)) : (s.setCode c).err = s.err := rfl
@[simp] theorem State.setCode_errInfo0 (s : State) (c : Table (Option Bits)) : (s.setCode c).errInfo0 = s.errInfo0 := rfl
@[simp] theorem State.setCode_errInfo1 (s : State) (c : Table (Option Bits)) : (s.setCode c).errInfo1 = s.errInfo1 := rfl
@[simp] theorem State.setCode_cnt (s : State) (c : Table (Option Bits)) : (s.setCode c).cnt = s.cnt := rfl
@[simp] theorem State.setCode_sym (s : State) (c : Table (Option Bits)) : (s.setCode c).sym = s.sym := rfl
@[simp] theorem State.setCode_bc (s : State) (c : Table (Option Bits)) : (s.setCode c).bc = s.bc := rfl
@[simp] theorem State.setCode_blen (s : State) (c : Table (Option Bits)) : (s.setCode c).blen = s.blen := rfl
@[simp] theorem State.setCode_clen (s : State) (c : Table (Option Bits)) : (s.setCode c).clen = s.clen := rfl
@[simp] theorem State.setCode_plen (s : State) (c : Table (Option Bits)) : (s.setCode c).plen = s.plen := rfl
@[simp] theorem State.setCode_ilen (s : State) (c : Table (Option Bits)) : (s.setCode c).ilen = s.ilen := rfl
@[simp] theorem State.setCode_ipos (s : State) (c : Table (Option Bits)) : (s.setCode c).ipos = s.ipos := rfl
@[simp] theorem State.setCode_olen (s : State) (c : Table (Option Bits)) : (s.setCode c).olen = s.olen := rfl
@[simp] theorem State.setCode_freq (s : State) (c : Table (Option Bits)) : (s.setCode c).freq = s.freq := rfl
@[simp] theorem State.setCode_tree (s : State) (c : Table (Option Bits)) : (s.setCode c).tree = s.tree := rfl
@[simp] theorem State.setCode_code (s : State) (c : Table (Option Bits)) : (s.setCode c).code = c := rfl
@[simp] theorem State.setCode_bits (s : State) (c : Table (Option Bits)) : (s.setCode c).bits = s.bits := rfl
@[simp] theorem State.setCode_curw (s : State) (c : Table (Option Bits)) : (s.setCode c).curw = s.curw := rfl
@[simp] theorem State.setCode_prev (s : State) (c : Table (Option Bits)) : (s.setCode c).prev = s.prev := rfl
@[simp] theorem State.setCode_inb (s : State) (c : Table (Option Bits)) : (s.setCode c).inb = s.inb := rfl
@[simp] theorem State.setCode_outb (s : State) (c : Table (Option Bits)) : (s.setCode c).outb = s.outb := rfl
@[simp] theorem State.setCode_cfg (s : State) (c : Table (Option Bits)) : (s.setCode c).cfg = s.cfg := rfl
@[simp] theorem State.setCode_epoch (s : State) (c : Table (Option Bits)) : (s.setCode c).epoch = s.epoch := rfl
@[simp] theorem State.setCode_hostQueue (s : State) (c : Table (Option Bits)) : (s.setCode c).hostQueue = s.hostQueue := rfl
@[simp] theorem State.setCode_rdata (s : State) (c : Table (Option Bits)) : (s.setCode c).rdata = s.rdata := rfl

/-! ### a new previous frame (rule R43) -/

@[simp] theorem State.setPrev_treeV (s : State) (f : Frame) (n : Word) : (s.setPrev f n).treeV = s.treeV := rfl
@[simp] theorem State.setPrev_codeV (s : State) (f : Frame) (n : Word) : (s.setPrev f n).codeV = s.codeV := rfl
@[simp] theorem State.setPrev_prevV (s : State) (f : Frame) (n : Word) : (s.setPrev f n).prevV = s.prevV := rfl
@[simp] theorem State.setPrev_fault (s : State) (f : Frame) (n : Word) : (s.setPrev f n).fault = s.fault := rfl
@[simp] theorem State.setPrev_err (s : State) (f : Frame) (n : Word) : (s.setPrev f n).err = s.err := rfl
@[simp] theorem State.setPrev_errInfo0 (s : State) (f : Frame) (n : Word) : (s.setPrev f n).errInfo0 = s.errInfo0 := rfl
@[simp] theorem State.setPrev_errInfo1 (s : State) (f : Frame) (n : Word) : (s.setPrev f n).errInfo1 = s.errInfo1 := rfl
@[simp] theorem State.setPrev_cnt (s : State) (f : Frame) (n : Word) : (s.setPrev f n).cnt = s.cnt := rfl
@[simp] theorem State.setPrev_sym (s : State) (f : Frame) (n : Word) : (s.setPrev f n).sym = s.sym := rfl
@[simp] theorem State.setPrev_bc (s : State) (f : Frame) (n : Word) : (s.setPrev f n).bc = s.bc := rfl
@[simp] theorem State.setPrev_blen (s : State) (f : Frame) (n : Word) : (s.setPrev f n).blen = s.blen := rfl
@[simp] theorem State.setPrev_clen (s : State) (f : Frame) (n : Word) : (s.setPrev f n).clen = s.clen := rfl
@[simp] theorem State.setPrev_plen (s : State) (f : Frame) (n : Word) : (s.setPrev f n).plen = n := rfl
@[simp] theorem State.setPrev_ilen (s : State) (f : Frame) (n : Word) : (s.setPrev f n).ilen = s.ilen := rfl
@[simp] theorem State.setPrev_ipos (s : State) (f : Frame) (n : Word) : (s.setPrev f n).ipos = s.ipos := rfl
@[simp] theorem State.setPrev_olen (s : State) (f : Frame) (n : Word) : (s.setPrev f n).olen = s.olen := rfl
@[simp] theorem State.setPrev_freq (s : State) (f : Frame) (n : Word) : (s.setPrev f n).freq = s.freq := rfl
@[simp] theorem State.setPrev_tree (s : State) (f : Frame) (n : Word) : (s.setPrev f n).tree = s.tree := rfl
@[simp] theorem State.setPrev_code (s : State) (f : Frame) (n : Word) : (s.setPrev f n).code = s.code := rfl
@[simp] theorem State.setPrev_bits (s : State) (f : Frame) (n : Word) : (s.setPrev f n).bits = s.bits := rfl
@[simp] theorem State.setPrev_curw (s : State) (f : Frame) (n : Word) : (s.setPrev f n).curw = s.curw := rfl
@[simp] theorem State.setPrev_prev (s : State) (f : Frame) (n : Word) : (s.setPrev f n).prev = f := rfl
@[simp] theorem State.setPrev_inb (s : State) (f : Frame) (n : Word) : (s.setPrev f n).inb = s.inb := rfl
@[simp] theorem State.setPrev_outb (s : State) (f : Frame) (n : Word) : (s.setPrev f n).outb = s.outb := rfl
@[simp] theorem State.setPrev_cfg (s : State) (f : Frame) (n : Word) : (s.setPrev f n).cfg = s.cfg := rfl
@[simp] theorem State.setPrev_epoch (s : State) (f : Frame) (n : Word) : (s.setPrev f n).epoch = s.epoch := rfl
@[simp] theorem State.setPrev_hostQueue (s : State) (f : Frame) (n : Word) : (s.setPrev f n).hostQueue = s.hostQueue := rfl
@[simp] theorem State.setPrev_rdata (s : State) (f : Frame) (n : Word) : (s.setPrev f n).rdata = s.rdata := rfl

/-! ### `PREV_V <- 1` (rule R37) -/

@[simp] theorem State.markPrev_treeV (s : State) : s.markPrev.treeV = s.treeV := rfl
@[simp] theorem State.markPrev_codeV (s : State) : s.markPrev.codeV = s.codeV := rfl
@[simp] theorem State.markPrev_prevV (s : State) : s.markPrev.prevV = true := rfl
@[simp] theorem State.markPrev_fault (s : State) : s.markPrev.fault = s.fault := rfl
@[simp] theorem State.markPrev_err (s : State) : s.markPrev.err = s.err := rfl
@[simp] theorem State.markPrev_errInfo0 (s : State) : s.markPrev.errInfo0 = s.errInfo0 := rfl
@[simp] theorem State.markPrev_errInfo1 (s : State) : s.markPrev.errInfo1 = s.errInfo1 := rfl
@[simp] theorem State.markPrev_cnt (s : State) : s.markPrev.cnt = s.cnt := rfl
@[simp] theorem State.markPrev_sym (s : State) : s.markPrev.sym = s.sym := rfl
@[simp] theorem State.markPrev_bc (s : State) : s.markPrev.bc = s.bc := rfl
@[simp] theorem State.markPrev_blen (s : State) : s.markPrev.blen = s.blen := rfl
@[simp] theorem State.markPrev_clen (s : State) : s.markPrev.clen = s.clen := rfl
@[simp] theorem State.markPrev_plen (s : State) : s.markPrev.plen = s.plen := rfl
@[simp] theorem State.markPrev_ilen (s : State) : s.markPrev.ilen = s.ilen := rfl
@[simp] theorem State.markPrev_ipos (s : State) : s.markPrev.ipos = s.ipos := rfl
@[simp] theorem State.markPrev_olen (s : State) : s.markPrev.olen = s.olen := rfl
@[simp] theorem State.markPrev_freq (s : State) : s.markPrev.freq = s.freq := rfl
@[simp] theorem State.markPrev_tree (s : State) : s.markPrev.tree = s.tree := rfl
@[simp] theorem State.markPrev_code (s : State) : s.markPrev.code = s.code := rfl
@[simp] theorem State.markPrev_bits (s : State) : s.markPrev.bits = s.bits := rfl
@[simp] theorem State.markPrev_curw (s : State) : s.markPrev.curw = s.curw := rfl
@[simp] theorem State.markPrev_prev (s : State) : s.markPrev.prev = s.prev := rfl
@[simp] theorem State.markPrev_inb (s : State) : s.markPrev.inb = s.inb := rfl
@[simp] theorem State.markPrev_outb (s : State) : s.markPrev.outb = s.outb := rfl
@[simp] theorem State.markPrev_cfg (s : State) : s.markPrev.cfg = s.cfg := rfl
@[simp] theorem State.markPrev_epoch (s : State) : s.markPrev.epoch = s.epoch := rfl
@[simp] theorem State.markPrev_hostQueue (s : State) : s.markPrev.hostQueue = s.hostQueue := rfl
@[simp] theorem State.markPrev_rdata (s : State) : s.markPrev.rdata = s.rdata := rfl

/-! ### input consumed (rule R69) -/

@[simp] theorem State.consume_treeV (s : State) (n : Nat) : (s.consume n).treeV = s.treeV := rfl
@[simp] theorem State.consume_codeV (s : State) (n : Nat) : (s.consume n).codeV = s.codeV := rfl
@[simp] theorem State.consume_prevV (s : State) (n : Nat) : (s.consume n).prevV = s.prevV := rfl
@[simp] theorem State.consume_fault (s : State) (n : Nat) : (s.consume n).fault = s.fault := rfl
@[simp] theorem State.consume_err (s : State) (n : Nat) : (s.consume n).err = s.err := rfl
@[simp] theorem State.consume_errInfo0 (s : State) (n : Nat) : (s.consume n).errInfo0 = s.errInfo0 := rfl
@[simp] theorem State.consume_errInfo1 (s : State) (n : Nat) : (s.consume n).errInfo1 = s.errInfo1 := rfl
@[simp] theorem State.consume_cnt (s : State) (n : Nat) : (s.consume n).cnt = s.cnt := rfl
@[simp] theorem State.consume_sym (s : State) (n : Nat) : (s.consume n).sym = s.sym := rfl
@[simp] theorem State.consume_bc (s : State) (n : Nat) : (s.consume n).bc = s.bc := rfl
@[simp] theorem State.consume_blen (s : State) (n : Nat) : (s.consume n).blen = s.blen := rfl
@[simp] theorem State.consume_clen (s : State) (n : Nat) : (s.consume n).clen = s.clen := rfl
@[simp] theorem State.consume_plen (s : State) (n : Nat) : (s.consume n).plen = s.plen := rfl
@[simp] theorem State.consume_ilen (s : State) (n : Nat) : (s.consume n).ilen = s.ilen := rfl
@[simp] theorem State.consume_ipos (s : State) (n : Nat) : (s.consume n).ipos = BitVec.ofNat 32 (s.ipos.toNat + n) := rfl
@[simp] theorem State.consume_olen (s : State) (n : Nat) : (s.consume n).olen = s.olen := rfl
@[simp] theorem State.consume_freq (s : State) (n : Nat) : (s.consume n).freq = s.freq := rfl
@[simp] theorem State.consume_tree (s : State) (n : Nat) : (s.consume n).tree = s.tree := rfl
@[simp] theorem State.consume_code (s : State) (n : Nat) : (s.consume n).code = s.code := rfl
@[simp] theorem State.consume_bits (s : State) (n : Nat) : (s.consume n).bits = s.bits := rfl
@[simp] theorem State.consume_curw (s : State) (n : Nat) : (s.consume n).curw = s.curw := rfl
@[simp] theorem State.consume_prev (s : State) (n : Nat) : (s.consume n).prev = s.prev := rfl
@[simp] theorem State.consume_inb (s : State) (n : Nat) : (s.consume n).inb = s.inb := rfl
@[simp] theorem State.consume_outb (s : State) (n : Nat) : (s.consume n).outb = s.outb := rfl
@[simp] theorem State.consume_cfg (s : State) (n : Nat) : (s.consume n).cfg = s.cfg := rfl
@[simp] theorem State.consume_epoch (s : State) (n : Nat) : (s.consume n).epoch = s.epoch := rfl
@[simp] theorem State.consume_hostQueue (s : State) (n : Nat) : (s.consume n).hostQueue = s.hostQueue := rfl
@[simp] theorem State.consume_rdata (s : State) (n : Nat) : (s.consume n).rdata = s.rdata := rfl

/-! ### a new bit sequence (rule R71) -/

@[simp] theorem State.setBits_treeV (s : State) (b : Bits) : (s.setBits b).treeV = s.treeV := rfl
@[simp] theorem State.setBits_codeV (s : State) (b : Bits) : (s.setBits b).codeV = s.codeV := rfl
@[simp] theorem State.setBits_prevV (s : State) (b : Bits) : (s.setBits b).prevV = s.prevV := rfl
@[simp] theorem State.setBits_fault (s : State) (b : Bits) : (s.setBits b).fault = s.fault := rfl
@[simp] theorem State.setBits_err (s : State) (b : Bits) : (s.setBits b).err = s.err := rfl
@[simp] theorem State.setBits_errInfo0 (s : State) (b : Bits) : (s.setBits b).errInfo0 = s.errInfo0 := rfl
@[simp] theorem State.setBits_errInfo1 (s : State) (b : Bits) : (s.setBits b).errInfo1 = s.errInfo1 := rfl
@[simp] theorem State.setBits_cnt (s : State) (b : Bits) : (s.setBits b).cnt = s.cnt := rfl
@[simp] theorem State.setBits_sym (s : State) (b : Bits) : (s.setBits b).sym = s.sym := rfl
@[simp] theorem State.setBits_bc (s : State) (b : Bits) : (s.setBits b).bc = 0 := rfl
@[simp] theorem State.setBits_blen (s : State) (b : Bits) : (s.setBits b).blen = BitVec.ofNat 32 b.length := rfl
@[simp] theorem State.setBits_clen (s : State) (b : Bits) : (s.setBits b).clen = s.clen := rfl
@[simp] theorem State.setBits_plen (s : State) (b : Bits) : (s.setBits b).plen = s.plen := rfl
@[simp] theorem State.setBits_ilen (s : State) (b : Bits) : (s.setBits b).ilen = s.ilen := rfl
@[simp] theorem State.setBits_ipos (s : State) (b : Bits) : (s.setBits b).ipos = s.ipos := rfl
@[simp] theorem State.setBits_olen (s : State) (b : Bits) : (s.setBits b).olen = s.olen := rfl
@[simp] theorem State.setBits_freq (s : State) (b : Bits) : (s.setBits b).freq = s.freq := rfl
@[simp] theorem State.setBits_tree (s : State) (b : Bits) : (s.setBits b).tree = s.tree := rfl
@[simp] theorem State.setBits_code (s : State) (b : Bits) : (s.setBits b).code = s.code := rfl
@[simp] theorem State.setBits_bits (s : State) (b : Bits) : (s.setBits b).bits = b := rfl
@[simp] theorem State.setBits_curw (s : State) (b : Bits) : (s.setBits b).curw = s.curw := rfl
@[simp] theorem State.setBits_prev (s : State) (b : Bits) : (s.setBits b).prev = s.prev := rfl
@[simp] theorem State.setBits_inb (s : State) (b : Bits) : (s.setBits b).inb = s.inb := rfl
@[simp] theorem State.setBits_outb (s : State) (b : Bits) : (s.setBits b).outb = s.outb := rfl
@[simp] theorem State.setBits_cfg (s : State) (b : Bits) : (s.setBits b).cfg = s.cfg := rfl
@[simp] theorem State.setBits_epoch (s : State) (b : Bits) : (s.setBits b).epoch = s.epoch := rfl
@[simp] theorem State.setBits_hostQueue (s : State) (b : Bits) : (s.setBits b).hostQueue = s.hostQueue := rfl
@[simp] theorem State.setBits_rdata (s : State) (b : Bits) : (s.setBits b).rdata = s.rdata := rfl

/-! ### a decoded frame (rules R190 and R200) -/

@[simp] theorem State.putFrame_treeV (s : State) (f : Frame) (n : Word) (c : Nat) : (s.putFrame f n c).treeV = s.treeV := rfl
@[simp] theorem State.putFrame_codeV (s : State) (f : Frame) (n : Word) (c : Nat) : (s.putFrame f n c).codeV = s.codeV := rfl
@[simp] theorem State.putFrame_prevV (s : State) (f : Frame) (n : Word) (c : Nat) : (s.putFrame f n c).prevV = s.prevV := rfl
@[simp] theorem State.putFrame_fault (s : State) (f : Frame) (n : Word) (c : Nat) : (s.putFrame f n c).fault = s.fault := rfl
@[simp] theorem State.putFrame_err (s : State) (f : Frame) (n : Word) (c : Nat) : (s.putFrame f n c).err = s.err := rfl
@[simp] theorem State.putFrame_errInfo0 (s : State) (f : Frame) (n : Word) (c : Nat) : (s.putFrame f n c).errInfo0 = s.errInfo0 := rfl
@[simp] theorem State.putFrame_errInfo1 (s : State) (f : Frame) (n : Word) (c : Nat) : (s.putFrame f n c).errInfo1 = s.errInfo1 := rfl
@[simp] theorem State.putFrame_cnt (s : State) (f : Frame) (n : Word) (c : Nat) : (s.putFrame f n c).cnt = s.cnt := rfl
@[simp] theorem State.putFrame_sym (s : State) (f : Frame) (n : Word) (c : Nat) : (s.putFrame f n c).sym = s.sym := rfl
@[simp] theorem State.putFrame_bc (s : State) (f : Frame) (n : Word) (c : Nat) : (s.putFrame f n c).bc = BitVec.ofNat 32 c := rfl
@[simp] theorem State.putFrame_blen (s : State) (f : Frame) (n : Word) (c : Nat) : (s.putFrame f n c).blen = s.blen := rfl
@[simp] theorem State.putFrame_clen (s : State) (f : Frame) (n : Word) (c : Nat) : (s.putFrame f n c).clen = n := rfl
@[simp] theorem State.putFrame_plen (s : State) (f : Frame) (n : Word) (c : Nat) : (s.putFrame f n c).plen = n := rfl
@[simp] theorem State.putFrame_ilen (s : State) (f : Frame) (n : Word) (c : Nat) : (s.putFrame f n c).ilen = s.ilen := rfl
@[simp] theorem State.putFrame_ipos (s : State) (f : Frame) (n : Word) (c : Nat) : (s.putFrame f n c).ipos = s.ipos := rfl
@[simp] theorem State.putFrame_olen (s : State) (f : Frame) (n : Word) (c : Nat) : (s.putFrame f n c).olen = s.olen := rfl
@[simp] theorem State.putFrame_freq (s : State) (f : Frame) (n : Word) (c : Nat) : (s.putFrame f n c).freq = s.freq := rfl
@[simp] theorem State.putFrame_tree (s : State) (f : Frame) (n : Word) (c : Nat) : (s.putFrame f n c).tree = s.tree := rfl
@[simp] theorem State.putFrame_code (s : State) (f : Frame) (n : Word) (c : Nat) : (s.putFrame f n c).code = s.code := rfl
@[simp] theorem State.putFrame_bits (s : State) (f : Frame) (n : Word) (c : Nat) : (s.putFrame f n c).bits = s.bits := rfl
@[simp] theorem State.putFrame_curw (s : State) (f : Frame) (n : Word) (c : Nat) : (s.putFrame f n c).curw = Memory.writeRun s.curw 0 (f.map wordOfCell) := rfl
@[simp] theorem State.putFrame_prev (s : State) (f : Frame) (n : Word) (c : Nat) : (s.putFrame f n c).prev = f := rfl
@[simp] theorem State.putFrame_inb (s : State) (f : Frame) (n : Word) (c : Nat) : (s.putFrame f n c).inb = s.inb := rfl
@[simp] theorem State.putFrame_outb (s : State) (f : Frame) (n : Word) (c : Nat) : (s.putFrame f n c).outb = s.outb := rfl
@[simp] theorem State.putFrame_cfg (s : State) (f : Frame) (n : Word) (c : Nat) : (s.putFrame f n c).cfg = s.cfg := rfl
@[simp] theorem State.putFrame_epoch (s : State) (f : Frame) (n : Word) (c : Nat) : (s.putFrame f n c).epoch = s.epoch := rfl
@[simp] theorem State.putFrame_hostQueue (s : State) (f : Frame) (n : Word) (c : Nat) : (s.putFrame f n c).hostQueue = s.hostQueue := rfl
@[simp] theorem State.putFrame_rdata (s : State) (f : Frame) (n : Word) (c : Nat) : (s.putFrame f n c).rdata = s.rdata := rfl

/-! ### reset (rules R48 and R231) -/

@[simp] theorem State.afterReset_treeV (s : State) : s.afterReset.treeV = false := rfl
@[simp] theorem State.afterReset_codeV (s : State) : s.afterReset.codeV = false := rfl
@[simp] theorem State.afterReset_prevV (s : State) : s.afterReset.prevV = false := rfl
@[simp] theorem State.afterReset_fault (s : State) : s.afterReset.fault = false := rfl
@[simp] theorem State.afterReset_err (s : State) : s.afterReset.err = 0 := rfl
@[simp] theorem State.afterReset_errInfo0 (s : State) : s.afterReset.errInfo0 = 0 := rfl
@[simp] theorem State.afterReset_errInfo1 (s : State) : s.afterReset.errInfo1 = 0 := rfl
@[simp] theorem State.afterReset_cnt (s : State) : s.afterReset.cnt = 0 := rfl
@[simp] theorem State.afterReset_sym (s : State) : s.afterReset.sym = 0 := rfl
@[simp] theorem State.afterReset_bc (s : State) : s.afterReset.bc = 0 := rfl
@[simp] theorem State.afterReset_blen (s : State) : s.afterReset.blen = 0 := rfl
@[simp] theorem State.afterReset_clen (s : State) : s.afterReset.clen = 0 := rfl
@[simp] theorem State.afterReset_plen (s : State) : s.afterReset.plen = 0 := rfl
@[simp] theorem State.afterReset_ilen (s : State) : s.afterReset.ilen = 0 := rfl
@[simp] theorem State.afterReset_ipos (s : State) : s.afterReset.ipos = 0 := rfl
@[simp] theorem State.afterReset_olen (s : State) : s.afterReset.olen = 0 := rfl
@[simp] theorem State.afterReset_freq (s : State) : s.afterReset.freq = Vector.replicate 256 0 := rfl
@[simp] theorem State.afterReset_tree (s : State) : s.afterReset.tree = none := rfl
@[simp] theorem State.afterReset_code (s : State) : s.afterReset.code = Vector.replicate 256 none := rfl
@[simp] theorem State.afterReset_bits (s : State) : s.afterReset.bits = [] := rfl
@[simp] theorem State.afterReset_curw (s : State) : s.afterReset.curw = [] := rfl
@[simp] theorem State.afterReset_prev (s : State) : s.afterReset.prev = [] := rfl
@[simp] theorem State.afterReset_inb (s : State) : s.afterReset.inb = [] := rfl
@[simp] theorem State.afterReset_outb (s : State) : s.afterReset.outb = [] := rfl
@[simp] theorem State.afterReset_cfg (s : State) : s.afterReset.cfg = s.cfg := rfl
@[simp] theorem State.afterReset_epoch (s : State) : s.afterReset.epoch = s.epoch + 1 := rfl
@[simp] theorem State.afterReset_hostQueue (s : State) : s.afterReset.hostQueue = s.hostQueue := rfl
@[simp] theorem State.afterReset_rdata (s : State) : s.afterReset.rdata = s.rdata := rfl

end Sys2Proof.Machine
end

