-- ==== Sys2Proof/Laws/Memory.lean ====
section
/-! SUPPORT. The laws of a window: read after write, writes leave every other location alone, and every operation keeps the canonical form. -/

namespace Sys2Proof.Machine

variable {w : Nat}

@[simp] theorem Memory.find?_nil (k : Nat) : Memory.find? ([] : Memory w) k = none := rfl

theorem Memory.find?_write_same (m : Memory w) (k : Nat) (v : BitVec w) :
    Memory.find? (Memory.write m k v) k = some v := by
  induction m with
  | nil => simp [Memory.write, Memory.find?]
  | cons p m ih =>
    obtain ⟨a, x⟩ := p
    simp only [Memory.write]
    split
    · simp [Memory.find?]
    · split
      · simp [Memory.find?]
      · rw [Memory.find?, if_neg (by omega), ih]

theorem Memory.find?_write_other (m : Memory w) {j k : Nat} (h : j ≠ k) (v : BitVec w) :
    Memory.find? (Memory.write m k v) j = Memory.find? m j := by
  induction m with
  | nil => simp [Memory.write, Memory.find?, h.symm]
  | cons p m ih =>
    obtain ⟨a, x⟩ := p
    simp only [Memory.write]
    split
    · rw [Memory.find?, if_neg (Ne.symm h)]
    · split
      · next hka => subst hka; simp [Memory.find?, h.symm]
      · simp only [Memory.find?, ih]

theorem Memory.mem_write {m : Memory w} {k : Nat} {v : BitVec w} {p : Nat × BitVec w}
    (h : p ∈ Memory.write m k v) : p = (k, v) ∨ p ∈ m := by
  induction m with
  | nil => simpa [Memory.write] using h
  | cons q m ih =>
    obtain ⟨a, x⟩ := q
    simp only [Memory.write] at h
    split at h
    · simpa using h
    · split at h
      · rcases List.mem_cons.1 h with h | h
        · exact .inl h
        · exact .inr (List.mem_cons_of_mem _ h)
      · rcases List.mem_cons.1 h with h | h
        · exact .inr (h ▸ List.mem_cons_self)
        · rcases ih h with h | h
          · exact .inl h
          · exact .inr (List.mem_cons_of_mem _ h)

theorem Memory.wf_nil : Memory.wf ([] : Memory w) := List.Pairwise.nil

/-- A write keeps the canonical form. -/
theorem Memory.wf_write {m : Memory w} (h : Memory.wf m) (k : Nat) (v : BitVec w) :
    Memory.wf (Memory.write m k v) := by
  induction m with
  | nil => simp [Memory.write, Memory.wf]
  | cons p m ih =>
    obtain ⟨a, x⟩ := p
    have hp := List.pairwise_cons.1 h
    simp only [Memory.write]
    split
    · next hk =>
      refine List.pairwise_cons.2 ⟨fun q hq => ?_, h⟩
      rcases List.mem_cons.1 hq with rfl | hq
      · exact hk
      · exact hk.trans (hp.1 q hq)
    · split
      · next hk => exact List.pairwise_cons.2 ⟨fun q hq => by simpa [hk] using hp.1 q hq, hp.2⟩
      · refine List.pairwise_cons.2 ⟨fun q hq => ?_, ih hp.2⟩
        rcases Memory.mem_write hq with rfl | hq
        · simp only; omega
        · exact hp.1 q hq

/-- Every location of a written window was listed before or is the one written. -/
theorem Memory.forall_write {m : Memory w} {k : Nat} {v : BitVec w} {P : Nat → Prop}
    (h : ∀ p ∈ m, P p.1) (hk : P k) : ∀ p ∈ Memory.write m k v, P p.1 := by
  intro p hp
  rcases Memory.mem_write hp with rfl | hp
  · exact hk
  · exact h p hp

theorem Memory.wf_writeRun {m : Memory w} (h : Memory.wf m) (k : Nat) (vs : List (BitVec w)) :
    Memory.wf (Memory.writeRun m k vs) := by
  induction vs generalizing m k with
  | nil => exact h
  | cons v vs ih => exact ih (Memory.wf_write h k v) (k + 1)

theorem Memory.forall_writeRun {m : Memory w} {k : Nat} {vs : List (BitVec w)} {P : Nat → Prop}
    (h : ∀ p ∈ m, P p.1) (hk : ∀ i < vs.length, P (k + i)) : ∀ p ∈ Memory.writeRun m k vs, P p.1 := by
  induction vs generalizing m k with
  | nil => exact h
  | cons v vs ih =>
    refine ih (Memory.forall_write h (by simpa using hk 0 (by simp))) fun i hi => ?_
    have := hk (i + 1) (by simpa using hi)
    rwa [show k + 1 + i = k + (i + 1) by omega]

/-- A run leaves every location outside it alone. -/
theorem Memory.find?_writeRun_other (m : Memory w) {j k : Nat} (vs : List (BitVec w))
    (h : j < k ∨ k + vs.length ≤ j) : Memory.find? (Memory.writeRun m k vs) j = Memory.find? m j := by
  induction vs generalizing m k with
  | nil => rfl
  | cons v vs ih =>
    simp only [List.length_cons] at h
    rw [Memory.writeRun, ih _ (by omega), Memory.find?_write_other _ (by omega)]

/-- A run reads back as what was written. -/
theorem Memory.find?_writeRun_same (m : Memory w) (k : Nat) (vs : List (BitVec w)) {i : Nat} (h : i < vs.length) :
    Memory.find? (Memory.writeRun m k vs) (k + i) = some vs[i] := by
  induction vs generalizing m k i with
  | nil => simp at h
  | cons v vs ih =>
    cases i with
    | zero =>
      rw [Memory.writeRun, Memory.find?_writeRun_other _ _ (by omega)]
      simpa using Memory.find?_write_same m k v
    | succ i =>
      have := ih (Memory.write m k v) (k + 1) (i := i) (by simpa using h)
      rw [Memory.writeRun, show k + (i + 1) = k + 1 + i by omega, this]
      simp

end Sys2Proof.Machine
end

