-- ==== Sys2Proof/Laws/Operands.lean ====
section
/-! SUPPORT. The laws of bit fields, byte order, the packer's byte form, cells as words, and tables. -/

namespace Sys2Proof.Machine

/-! ### Fields of a bit sequence -/

@[simp] theorem bitsN_length (n v : Nat) : (bitsN n v).length = n := by
  induction n with
  | zero => rfl
  | succ n ih => simp [bitsN, ih]

/-- `val` reads back what `bitsN` wrote (rule R10). -/
theorem val_bitsN (n v : Nat) : val (bitsN n v) = v % 2 ^ n := by
  induction n with
  | zero => simp [bitsN, val, Nat.mod_one]
  | succ n ih =>
    rw [bitsN, val, ih, bitsN_length, Nat.pow_succ, Nat.mod_mul, Nat.testBit_eq_decide_div_mod_eq, Nat.add_comm]
    rcases Nat.mod_two_eq_zero_or_one (v / 2 ^ n) with h | h <;> simp [h]

@[simp] theorem bits8_length (v : Byte) : (bits8 v).length = 8 := bitsN_length 8 _

@[simp] theorem bits32_length (v : Nat) : (bits32 v).length = 32 := bitsN_length 32 _

@[simp] theorem val_bits8 (v : Byte) : val (bits8 v) = v.toNat := by
  rw [bits8, val_bitsN, Nat.mod_eq_of_lt v.isLt]

theorem val_bits32 {v : Nat} (h : v < 2 ^ 32) : val (bits32 v) = v := by
  rw [bits32, val_bitsN, Nat.mod_eq_of_lt h]

theorem val_lt (b : Bits) : val b < 2 ^ b.length := by
  induction b with
  | nil => simp [val]
  | cons x b ih =>
    simp only [val, List.length_cons, Nat.pow_succ]
    cases x <;> simp <;> omega

/-- `bitsN` writes back what `val` read (rule R10). -/
theorem bitsN_val (b : Bits) : bitsN b.length (val b) = b := by
  have aux : ∀ (n v w : Nat), v % 2 ^ n = w % 2 ^ n → bitsN n v = bitsN n w := by
    intro n
    induction n with
    | zero => intros; rfl
    | succ n ih =>
      intro v w h
      have ht : v.testBit n = w.testBit n := by
        have h1 := Nat.testBit_mod_two_pow v (n + 1) n
        have h2 := Nat.testBit_mod_two_pow w (n + 1) n
        rw [h] at h1
        simpa using h1.symm.trans h2
      rw [bitsN, bitsN, ht, ih v w]
      have hd : 2 ^ n ∣ 2 ^ (n + 1) := ⟨2, by rw [Nat.pow_succ]⟩
      rw [← Nat.mod_mod_of_dvd v hd, h, Nat.mod_mod_of_dvd w hd]
  induction b with
  | nil => rfl
  | cons x b ih =>
    have hlt := val_lt b
    have htest : (x.toNat * 2 ^ b.length + val b).testBit b.length = x := by
      rw [Nat.testBit_eq_decide_div_mod_eq, Nat.add_comm, Nat.add_mul_div_right _ _ (Nat.two_pow_pos _),
        Nat.div_eq_of_lt hlt]
      cases x <;> simp
    simp only [val, List.length_cons, bitsN, htest]
    rw [aux b.length _ (val b) (by simp [Nat.add_mod]), ih]

/-- Bit `j` of a field of `n` bits is bit `n - 1 - j` of the value (rule R10). -/
theorem bitsN_getD : ∀ {n j : Nat} (v : Nat), j < n → (bitsN n v).getD j false = v.testBit (n - 1 - j) := by
  intro n
  induction n with
  | zero => intro j v h; omega
  | succ n ih =>
    intro j v h
    cases j with
    | zero => simp [bitsN]
    | succ j =>
      simp only [bitsN, List.getD_cons_succ, ih v (show j < n by omega)]
      congr 1; omega

/-- Eight bits are written back from the byte read (rule R10). -/
theorem bits8_val {b : Bits} (h : b.length = 8) : bits8 (BitVec.ofNat 8 (val b)) = b := by
  have h1 := val_lt b
  have h2 := bitsN_val b
  rw [h] at h1 h2
  rw [bits8, BitVec.toNat_ofNat, Nat.mod_eq_of_lt h1, h2]

/-! ### Count fields -/

@[simp] theorem le32_length (v : Nat) : (le32 v).length = 4 := rfl

/-- A count field reads back (rules R11 and R60). -/
theorem unle32_le32 {v : Nat} (h : v < 2 ^ 32) :
    unle32 (BitVec.ofNat 8 v) (BitVec.ofNat 8 (v / 256)) (BitVec.ofNat 8 (v / 65536)) (BitVec.ofNat 8 (v / 16777216)) = v := by
  simp only [unle32, BitVec.toNat_ofNat]
  omega

/-- The four bytes of a register, least significant first (rule R11). -/
theorem le32_word (w : Word) :
    le32 w.toNat = [w.extractLsb' 0 8, w.extractLsb' 8 8, w.extractLsb' 16 8, w.extractLsb' 24 8] := by
  simp only [le32, List.cons.injEq, and_true]
  refine ⟨?_, ?_, ?_, ?_⟩ <;> apply BitVec.eq_of_toNat_eq <;>
    simp [BitVec.extractLsb'_toNat, Nat.shiftRight_eq_div_pow]

theorem unle32_lt (a b c d : Byte) : unle32 a b c d < 2 ^ 32 := by
  have := a.isLt; have := b.isLt; have := c.isLt; have := d.isLt
  simp only [unle32]; omega

/-! ### The packer's byte form -/

@[simp] theorem packBytes_length (b : Bits) : (packBytes b).length = ceil8 b.length := by simp [packBytes]

@[simp] theorem unpackBits_length (d : List Byte) (n : Nat) : (unpackBits d n).length = n := by simp [unpackBits]

/-- Bit `7 - i` of packed byte `j` is bit `8j + i` of the sequence (rules R63 and R166). -/
theorem packByte_bit (b : Bits) (j i : Nat) (h : i < 8) :
    (packByte b j).getLsbD (7 - i) = b.getD (8 * j + i) false := by
  have key : ∀ x0 x1 x2 x3 x4 x5 x6 x7 : Bool, ∀ i < 8,
      (BitVec.ofNat 8 (x0.toNat * 128 + (x1.toNat * 64 + (x2.toNat * 32 + (x3.toNat * 16 +
        (x4.toNat * 8 + (x5.toNat * 4 + (x6.toNat * 2 + x7.toNat)))))))).getLsbD (7 - i) =
      [x0, x1, x2, x3, x4, x5, x6, x7].getD i false := by decide
  have := key (b.getD (8 * j) false) (b.getD (8 * j + 1) false) (b.getD (8 * j + 2) false) (b.getD (8 * j + 3) false)
    (b.getD (8 * j + 4) false) (b.getD (8 * j + 5) false) (b.getD (8 * j + 6) false) (b.getD (8 * j + 7) false) i h
  rw [packByte, show List.range 8 = [0, 1, 2, 3, 4, 5, 6, 7] from rfl]
  simp only [List.map_cons, List.map_nil, List.sum_cons, List.sum_nil, Nat.add_zero, Nat.sub_zero,
    show (2 : Nat) ^ 7 = 128 from rfl, show 7 - 1 = 6 from rfl, show 7 - 2 = 5 from rfl, show 7 - 3 = 4 from rfl,
    show 7 - 4 = 3 from rfl, show 7 - 5 = 2 from rfl, show 7 - 6 = 1 from rfl, show 7 - 7 = 0 from rfl,
    show (2 : Nat) ^ 6 = 64 from rfl, show (2 : Nat) ^ 5 = 32 from rfl, show (2 : Nat) ^ 4 = 16 from rfl,
    show (2 : Nat) ^ 3 = 8 from rfl, show (2 : Nat) ^ 2 = 4 from rfl, Nat.pow_one, Nat.pow_zero, Nat.mul_one]
  rw [this]
  interval_cases i <;> rfl

theorem packBytes_getD {b : Bits} {j : Nat} (h : 8 * j < b.length) : (packBytes b).getD j 0 = packByte b j := by
  have : j < ceil8 b.length := by simp only [ceil8]; omega
  simp [packBytes, List.getD_eq_getElem?_getD, this]

/-- Unpacking a packed sequence gives it back (rule R172). -/
theorem unpackBits_packBytes (b : Bits) : unpackBits (packBytes b) b.length = b := by
  apply List.ext_getElem (by simp)
  intro k h1 h2
  simp only [unpackBits, List.getElem_map, List.getElem_range]
  rw [packBytes_getD (by omega), packByte_bit _ _ _ (Nat.mod_lt _ (by decide)), Nat.div_add_mod]
  simp [List.getD_eq_getElem?_getD, h2]

/-! ### Cells as words -/

theorem cellOfWord_wordOfCell (c : Cell) : cellOfWord (wordOfCell c) = c := by
  obtain ⟨s, r, g, b⟩ := c
  have := s.isLt; have := r.isLt; have := g.isLt; have := b.isLt
  simp only [cellOfWord, wordOfCell, Cell.mk.injEq]
  refine ⟨?_, ?_, ?_, ?_⟩ <;> apply BitVec.eq_of_toNat_eq <;>
    simp only [BitVec.extractLsb'_toNat, BitVec.toNat_ofNat, Nat.shiftRight_eq_div_pow] <;> omega

theorem wordOfCell_cellOfWord (w : Word) : wordOfCell (cellOfWord w) = w := by
  have := w.isLt
  apply BitVec.eq_of_toNat_eq
  simp only [cellOfWord, wordOfCell, BitVec.extractLsb'_toNat, BitVec.toNat_ofNat, Nat.shiftRight_eq_div_pow]
  omega

/-! ### Tables -/

theorem allSymbols_length : allSymbols.length = 256 := by simp [allSymbols]

theorem mem_allSymbols (s : Byte) : s ∈ allSymbols := by
  simp only [allSymbols, List.mem_map, List.mem_range]
  exact ⟨s.toNat, s.isLt, by simp⟩

/-- A search of the symbols in ascending order finds the least one that passes. -/
theorem find?_allSymbols {P : Byte → Bool} {x : Byte} (hx : P x = true) (h : ∀ y : Byte, y.toNat < x.toNat → P y = false) :
    allSymbols.find? P = some x := by
  have key : ∀ (n k : Nat), k + n = 256 → k ≤ x.toNat → ((List.range' k n).map (BitVec.ofNat 8)).find? P = some x := by
    intro n
    induction n with
    | zero => intro k h1 h2; have := x.isLt; omega
    | succ n ih =>
      intro k h1 h2
      simp only [List.range'_succ, List.map_cons, List.find?_cons]
      by_cases hk : k = x.toNat
      · subst hk; simp [hx]
      · rw [h (BitVec.ofNat 8 k) (by simp only [BitVec.toNat_ofNat]; have := x.isLt; omega)]
        exact ih _ (by omega) (by omega)
  rw [allSymbols, List.range_eq_range']
  exact key 256 0 rfl (Nat.zero_le _)

@[simp] theorem Table.at_make {α : Type} (f : Byte → α) (s : Byte) : Table.at (Table.make f) s = f s := by
  simp [Table.at, Table.make, allSymbols]

@[simp] theorem Table.at_put_same {α : Type} (t : Table α) (s : Byte) (x : α) : Table.at (Table.put t s x) s = x := by
  simp [Table.at, Table.put]

theorem Table.at_put_other {α : Type} (t : Table α) {s u : Byte} (h : u ≠ s) (x : α) :
    Table.at (Table.put t s x) u = Table.at t u := by
  have : s.toNat ≠ u.toNat := fun e => h (BitVec.eq_of_toNat_eq e.symm)
  simp [Table.at, Table.put, this]

theorem Table.ext_at {α : Type} {t u : Table α} (h : ∀ s, Table.at t s = Table.at u s) : t = u := by
  apply Vector.ext
  intro i hi
  have := h (BitVec.ofNat 8 i)
  simpa [Table.at, Nat.mod_eq_of_lt hi] using this

@[simp] theorem Table.at_replicate {α : Type} (x : α) (s : Byte) : Table.at (Vector.replicate 256 x) s = x := by
  simp [Table.at]

end Sys2Proof.Machine
end

