-- ==== Sys2Proof/Laws/Ops.lean ====
section
/-! SUPPORT. What the shared operations can do, said once: tests that raise, the one command shape, appending to the output stream. -/

namespace Sys2Proof.Machine

/-! ### Sequences of tests -/

theorem bind_eq_ok {ε α β : Type} {x : Except ε α} {f : α → Except ε β} {b : β} :
    (x >>= f) = .ok b ↔ ∃ a, x = .ok a ∧ f a = .ok b := by
  cases x with
  | error e => simp [bind, Except.bind]
  | ok a => simp [bind, Except.bind]

theorem bind_eq_error {ε α β : Type} {x : Except ε α} {f : α → Except ε β} {e : ε} :
    (x >>= f) = .error e ↔ x = .error e ∨ ∃ a, x = .ok a ∧ f a = .error e := by
  cases x with
  | error e' => simp [bind, Except.bind]
  | ok a => simp [bind, Except.bind]

@[simp] theorem ok_bind' {ε α β : Type} (a : α) (f : α → Except ε β) : ((Except.ok a : Except ε α) >>= f) = f a := rfl

@[simp] theorem error_bind' {ε α β : Type} (e : ε) (f : α → Except ε β) :
    ((Except.error e : Except ε α) >>= f) = .error e := rfl

theorem require_true {c : Prop} [Decidable c] (h : c) (r : Raise) : require c r = .ok () := if_pos h

theorem require_false {c : Prop} [Decidable c] (h : ¬c) (r : Raise) : require c r = .error r := if_neg h

@[simp] theorem require_eq_ok {c : Prop} [Decidable c] {r : Raise} {u : Unit} : require c r = .ok u ↔ c := by
  by_cases h : c <;> simp [require, h]

@[simp] theorem require_eq_error {c : Prop} [Decidable c] {r e : Raise} : require c r = .error e ↔ ¬c ∧ r = e := by
  by_cases h : c <;> simp [require, h]

@[simp] theorem requireInput_eq_ok {s : State} {u : Unit} : requireInput s = .ok u ↔ s.ilen.toNat ≤ s.cfg.inCap :=
  require_eq_ok

@[simp] theorem requireBytes_eq_ok {s : State} {n : Nat} {u : Unit} : requireBytes s n = .ok u ↔ n ≤ inAvail s :=
  require_eq_ok

@[simp] theorem requireFrame_eq_ok {s : State} {u : Unit} : requireFrame s = .ok u ↔ s.clen.toNat ≤ s.cfg.cellCap :=
  require_eq_ok

@[simp] theorem requireBits_eq_ok {s : State} {c n : Nat} {u : Unit} :
    requireBits s c n = .ok u ↔ c + n ≤ s.blen.toNat := require_eq_ok

@[simp] theorem requireBitCap_eq_ok {s : State} {n : Nat} {u : Unit} : requireBitCap s n = .ok u ↔ n ≤ s.cfg.bitCap :=
  require_eq_ok

/-! ### Commands -/

/-- While `FAULT = 1` a command is ignored (rule R251). -/
theorem runCommand_ignored {s : State} (h : s.fault = true) (e : Except Raise State) : runCommand s e = .next s := by
  simp [runCommand, h]

theorem runCommand_ok {s : State} (h : s.fault = false) (t : State) : runCommand s (.ok t) = .next t := by
  simp [runCommand, h]

theorem runCommand_error {s : State} (h : s.fault = false) (r : Raise) :
    runCommand s (.error r) = .next (s.raise r) := by
  simp [runCommand, h]

/-- Everything a command can do: be ignored, take effect whole, or enter one fault. -/
theorem runCommand_cases {s t : State} {e : Except Raise State} (h : runCommand s e = .next t) :
    (s.fault = true ∧ t = s) ∨ (s.fault = false ∧ e = .ok t) ∨ (s.fault = false ∧ ∃ r, e = .error r ∧ t = s.raise r) := by
  cases hf : s.fault with
  | true => rw [runCommand_ignored hf] at h; exact .inl ⟨rfl, by simpa using h.symm⟩
  | false =>
    cases e with
    | ok u => rw [runCommand_ok hf] at h; exact .inr (.inl ⟨rfl, by simpa using h⟩)
    | error r => rw [runCommand_error hf] at h; exact .inr (.inr ⟨rfl, r, rfl, by simpa using h.symm⟩)

/-- A command always goes on (rule R290). -/
theorem runCommand_next (s : State) (e : Except Raise State) : ∃ t, runCommand s e = .next t := by
  cases hf : s.fault with
  | true => exact ⟨s, runCommand_ignored hf e⟩
  | false =>
    cases e with
    | ok u => exact ⟨u, runCommand_ok hf u⟩
    | error r => exact ⟨_, runCommand_error hf r⟩

theorem Cause.code_ne_zero (c : Cause) : c.code ≠ 0 := by cases c <;> decide

theorem sat32_toNat (a : Nat) : (sat32 a).toNat = min a 0xFFFFFFFF := by
  simp only [sat32, BitVec.toNat_ofNat]; omega

/-! ### The output stream -/

/-- The state after `bs` is appended (rule R70). -/
def appended (s : State) (bs : List Byte) : State :=
  { s with
    outb := Memory.writeRun s.outb s.olen.toNat bs
    olen := BitVec.ofNat 32 (s.olen.toNat + bs.length) }

/-- `OutAppend` answers a state exactly when there is room, and then the bytes are appended. -/
theorem outAppend_eq_ok {s t : State} {bs : List Byte} :
    outAppend s bs = .ok t ↔ s.olen.toNat + bs.length ≤ s.cfg.outCap ∧ t = appended s bs := by
  simp only [outAppend, bind_eq_ok, require_eq_ok]
  constructor
  · rintro ⟨-, h, ht⟩; exact ⟨h, (Except.ok.inj ht).symm⟩
  · rintro ⟨h, rfl⟩; exact ⟨(), h, rfl⟩

theorem outAppend_full {s : State} {bs : List Byte} (h : s.cfg.outCap < s.olen.toNat + bs.length) :
    outAppend s bs = .error ⟨.capacityExceeded, s.olen.toNat + bs.length, s.cfg.outCap⟩ := by
  simp [outAppend, require_false (Nat.not_le.2 h)]

theorem outAppend_room {s : State} {bs : List Byte} (h : s.olen.toNat + bs.length ≤ s.cfg.outCap) :
    outAppend s bs = .ok (appended s bs) := outAppend_eq_ok.2 ⟨h, rfl⟩

theorem outAppend_error {s : State} {bs : List Byte} {r : Raise} (h : outAppend s bs = .error r) :
    r.cause = .capacityExceeded := by
  simp only [outAppend, bind_eq_error, require_eq_error] at h
  rcases h with ⟨-, rfl⟩ | ⟨_, -, h⟩
  · rfl
  · simp at h

theorem appended_olen {s : State} {bs : List Byte} (h : s.olen.toNat + bs.length < 2 ^ 32) :
    (appended s bs).olen.toNat = s.olen.toNat + bs.length := by
  simp only [appended, BitVec.toNat_ofNat]; omega

/-- A byte below `OLEN` is never rewritten, and the bytes from there on are the ones appended. -/
theorem appended_outbByte {s : State} {bs : List Byte} (h : s.olen.toNat + bs.length < 2 ^ 32) (k : Nat) :
    outbByte (appended s bs) k =
      if k < s.olen.toNat then outbByte s k
      else if hk : k - s.olen.toNat < bs.length then bs[k - s.olen.toNat]
      else outbByte s k := by
  have ho := appended_olen h
  simp only [outbByte, ho]
  by_cases h1 : k < s.olen.toNat
  · rw [if_pos (by omega), if_pos h1, if_pos h1]
    simp only [appended]
    rw [Memory.find?_writeRun_other _ _ (.inl h1)]
  · rw [if_neg h1, if_neg h1]
    split
    · next h2 =>
      have h3 : k - s.olen.toNat < bs.length := by omega
      have := Memory.find?_writeRun_same s.outb s.olen.toNat bs h3
      rw [dif_pos h3]
      simp only [appended]
      rw [show s.olen.toNat + (k - s.olen.toNat) = k by omega] at this
      simp [this]
    · next h2 => rw [dif_neg (by omega)]; rfl

/-- The output stream grows by exactly the bytes appended (rule R70). -/
theorem out_appended {s : State} {bs : List Byte} (h : s.olen.toNat + bs.length < 2 ^ 32) :
    out (appended s bs) = out s ++ bs := by
  apply List.ext_getElem
  · simp [out, appended_olen h]
  · intro k h1 h2
    simp only [out, List.getElem_map, List.getElem_range, appended_outbByte h]
    by_cases hk : k < s.olen.toNat
    · simp [hk]
    · have h3 : k - s.olen.toNat < bs.length := by
        simp only [out, List.length_append, List.length_map, List.length_range] at h2; omega
      simp [hk, h3, List.getElem_append]

/-! ### The input stream -/

@[simp] theorem inBytes_length (s : State) (k n : Nat) : (inBytes s k n).length = n := by simp [inBytes]

theorem in32_lt (s : State) (k : Nat) : in32 s k < 2 ^ 32 := unle32_lt _ _ _ _

/-- A count field at offset `k` of the stream reads back (rules R60 and R68). -/
theorem in32_of_bytes {s : State} {k v : Nat} (hv : v < 2 ^ 32) (h : inBytes s k 4 = le32 v) : in32 s k = v := by
  have e : inBytes s k 4 = [inByte s (k + 0), inByte s (k + 1), inByte s (k + 2), inByte s (k + 3)] := rfl
  rw [e] at h
  simp only [le32, List.cons.injEq, and_true, Nat.add_zero] at h
  rw [in32, h.1, h.2.1, h.2.2.1, h.2.2.2, unle32_le32 hv]

/-- A run of the stream splits at any point. -/
theorem inBytes_add (s : State) (k m n : Nat) : inBytes s k (m + n) = inBytes s k m ++ inBytes s (k + m) n := by
  simp only [inBytes, List.range_add, List.map_append, List.map_map]
  congr 1
  apply List.map_congr_left
  intro i _
  simp [Nat.add_assoc]

theorem in32_of_holds {s : State} {n : Nat} {b : List Byte} (hn : n < 2 ^ 32) (h : holds s 0 (le32 n ++ b)) :
    in32 s 0 = n := by
  refine in32_of_bytes hn ?_
  have h2 := h.2
  rw [List.length_append, inBytes_add] at h2
  exact (List.append_inj h2 (by simp)).1

/-! ### The bit sequence -/

theorem bitsRead_length {s : State} {c n : Nat} (h : c + n ≤ s.bits.length) : (bitsRead s c n).length = n := by
  simp [bitsRead]; omega

end Sys2Proof.Machine
end

