-- ==== Sys2Proof/Laws/Tree.lean ====
section
/-! SUPPORT. Trees: their sizes, and the record TREE_WR writes read back by TREE_RD (rules R129, R151, R156 and R161). -/

namespace Sys2Proof.Machine

/-! ### Shape -/

theorem Node.leaves_pos (t : Node) : 0 < t.leaves.length := by
  induction t with
  | leaf s => simp [Node.leaves]
  | internal l r hl hr => simp [Node.leaves]; omega

/-- A tree of `n` leaves has `2n - 1` nodes (rule R129 (c)). -/
theorem Node.size_add_one (t : Node) : t.size + 1 = 2 * t.leaves.length := by
  induction t with
  | leaf s => rfl
  | internal l r hl hr => simp only [Node.size, Node.leaves, List.length_append]; omega

/-- No leaf of a tree of `n` leaves is deeper than `n - 1` (rule R129 (c)). -/
theorem Node.depth_lt (t : Node) : t.depth < t.leaves.length := by
  induction t with
  | leaf s => simp [Node.depth, Node.leaves]
  | internal l r hl hr =>
    have := l.leaves_pos; have := r.leaves_pos
    simp only [Node.depth, Node.leaves, List.length_append]; omega

/-- A tree of at most 511 nodes has at most 256 leaves and is at most 255 deep (rules R39 and R40). -/
theorem Node.depth_le_of_size {t : Node} (h : t.size ≤ 511) : t.depth ≤ 255 := by
  have := t.size_add_one; have := t.depth_lt; omega

/-- `|ser(T)| = 3n - 1` (rule R151). -/
theorem ser_length (t : Node) : (ser t).length + 1 = 3 * t.leaves.length := by
  induction t with
  | leaf s => rfl
  | internal l r hl hr => simp only [ser, Node.leaves, List.length_cons, List.length_append]; omega

theorem ser_pos (t : Node) : 0 < (ser t).length := by cases t <;> simp [ser]

/-! ### The parser -/

theorem holds_append {s : State} {k : Nat} {a b : List Byte} (h : holds s k (a ++ b)) :
    holds s k a ∧ holds s (k + a.length) b := by
  obtain ⟨h1, h2⟩ := h
  rw [List.length_append] at h1 h2
  rw [inBytes_add] at h2
  obtain ⟨h3, h4⟩ := List.append_inj h2 (by simp)
  exact ⟨⟨by omega, h3⟩, ⟨by omega, h4⟩⟩

theorem holds_cons {s : State} {k : Nat} {a : Byte} {b : List Byte} (h : holds s k (a :: b)) :
    k + 1 ≤ inAvail s ∧ inByte s k = a ∧ holds s (k + 1) b := by
  obtain ⟨h1, h2⟩ := holds_append (a := [a]) h
  refine ⟨h1.1, ?_, h2⟩
  simpa [inBytes] using h1.2

theorem holds_of_cons {s : State} {k : Nat} {a : Byte} {b : List Byte} (ha : inByte s k = a)
    (h : holds s (k + 1) b) : holds s k (a :: b) := by
  refine ⟨by have := h.1; simp only [List.length_cons]; omega, ?_⟩
  rw [List.length_cons, Nat.add_comm, inBytes_add, h.2]
  simp [inBytes, ha]

theorem holds_of_append {s : State} {k : Nat} {a b : List Byte} (ha : holds s k a) (hb : holds s (k + a.length) b) :
    holds s k (a ++ b) := by
  refine ⟨by have := hb.1; simp only [List.length_append]; omega, ?_⟩
  rw [List.length_append, inBytes_add, ha.2, hb.2]

/-- The reader finds the tree whose record the stream holds, whatever follows it (rule R161). -/
theorem parseNode_ser (s : State) (t : Node) : ∀ fuel k m : Nat, m + t.size ≤ nodeCap → nodeCap + 1 ≤ fuel + m →
    holds s k (ser t) → parseNode s fuel k m = .ok (t, k + (ser t).length, m + t.size) := by
  induction t with
  | leaf sym =>
    intro fuel k m hm hf h
    simp only [Node.size] at hm ⊢
    obtain ⟨fuel, rfl⟩ : ∃ f, fuel = f + 1 := ⟨fuel - 1, by omega⟩
    obtain ⟨h0, h1, h2⟩ := holds_cons h
    obtain ⟨h3, h4, -⟩ := holds_cons h2
    simp [parseNode, require, requireBytes, show m < nodeCap by omega, h0, h1, show k + 2 ≤ inAvail s by omega, h4, ser]
  | internal l r hl hr =>
    intro fuel k m hm hf h
    simp only [Node.size] at hm ⊢
    obtain ⟨fuel, rfl⟩ : ∃ f, fuel = f + 1 := ⟨fuel - 1, by omega⟩
    obtain ⟨h0, h1, h2⟩ := holds_cons h
    obtain ⟨h3, h4⟩ := holds_append h2
    have el := hl fuel (k + 1) (m + 1) (by omega) (by omega) h3
    have er := hr fuel (k + 1 + (ser l).length) (m + 1 + l.size) (by omega) (by omega) h4
    simp only [parseNode, require, requireBytes, show m < nodeCap by omega, h0, h1, if_true, ok_bind', el, er]
    simp only [show ¬((0x00 : Byte) = 0x01) by decide, if_false, ser, List.length_cons, List.length_append, Except.ok.injEq,
      Prod.mk.injEq, true_and]
    omega

/-- What the reader answers is what the stream holds (rule R156): the tree's record, within the stream and the node capacity. -/
theorem parseNode_sound (s : State) : ∀ (fuel k m : Nat) {t : Node} {k' m' : Nat}, m ≤ nodeCap →
    parseNode s fuel k m = .ok (t, k', m') →
    holds s k (ser t) ∧ k' = k + (ser t).length ∧ m' = m + t.size ∧ m' ≤ nodeCap := by
  intro fuel
  induction fuel with
  | zero => intro k m t k' m' _ h; simp [parseNode] at h
  | succ fuel ih =>
    intro k m t k' m' hm h
    simp only [parseNode, bind_eq_ok, require_eq_ok, requireBytes_eq_ok, exists_const_iff] at h
    obtain ⟨-, hm', -, h0, h⟩ := h
    split at h
    · next hf =>
      simp only [bind_eq_ok, requireBytes_eq_ok, Except.ok.injEq, Prod.mk.injEq] at h
      obtain ⟨-, h1, rfl, rfl, rfl⟩ := h
      refine ⟨holds_of_cons hf (holds_of_cons rfl ⟨by simp; omega, rfl⟩), by simp [ser], rfl, by omega⟩
    · split at h
      · next hf =>
        simp only [bind_eq_ok, Except.ok.injEq] at h
        obtain ⟨⟨l, k1, m1⟩, hl, ⟨r, k2, m2⟩, hr, h⟩ := h
        simp only [Prod.mk.injEq] at h
        dsimp only at hr
        obtain ⟨rfl, rfl, rfl⟩ := h
        obtain ⟨a1, a2, a3, a4⟩ := ih _ _ (by omega) hl
        obtain ⟨b1, b2, b3, b4⟩ := ih _ _ a4 hr
        subst a2
        refine ⟨holds_of_cons hf (holds_of_append a1 b1), ?_, ?_, b4⟩
        · simp only [ser, List.length_cons, List.length_append]; omega
        · simp only [Node.size]; omega
      · simp at h

/-- The fuel of the reader is never used up: at most 511 nodes are read on any path, so more fuel changes nothing. -/
theorem parseNode_fuel (s : State) : ∀ (fuel k m : Nat), nodeCap + 1 ≤ fuel + m → m ≤ nodeCap →
    parseNode s fuel k m = parseNode s (fuel + 1) k m := by
  intro fuel
  induction fuel with
  | zero => intro k m h1 h2; omega
  | succ fuel ih =>
    intro k m h1 h2
    rw [parseNode, parseNode]
    by_cases hm : m < nodeCap
    · rw [require_true hm]
      simp only [ok_bind']
      congr 1; funext _
      split
      · rfl
      · split
        · rw [ih (k + 1) (m + 1) (by omega) (by omega)]
          cases hp : parseNode s (fuel + 1) (k + 1) (m + 1) with
          | error e => rfl
          | ok p =>
            obtain ⟨l, k1, m1⟩ := p
            obtain ⟨-, -, e, h⟩ := parseNode_sound s _ _ _ (by omega) hp
            simp only [ok_bind']
            rw [ih k1 m1 (by omega) h]
        · rfl
    · rw [require_false hm]; rfl

/-- The causes the reader raises (rule R156). -/
theorem parseNode_error {s : State} : ∀ {fuel k m : Nat} {r : Raise}, parseNode s fuel k m = .error r →
    r.cause = .truncatedStream ∨ r.cause = .reservedValue ∨ r.cause = .capacityExceeded := by
  intro fuel
  induction fuel with
  | zero => intro k m r h; simp [parseNode] at h; simp [← h]
  | succ fuel ih =>
    intro k m r h
    simp only [parseNode, bind_eq_error, require_eq_error, requireBytes] at h
    rcases h with ⟨-, rfl⟩ | ⟨_, -, ⟨-, rfl⟩ | ⟨_, -, h⟩⟩
    · simp
    · simp
    · split at h
      · simp only [bind_eq_error, require_eq_error] at h
        rcases h with ⟨-, rfl⟩ | ⟨_, -, h⟩
        · simp
        · simp at h
      · split at h
        · simp only [bind_eq_error] at h
          rcases h with h | ⟨_, -, h | ⟨_, -, h⟩⟩
          · exact ih h
          · exact ih h
          · simp at h
        · cases h; simp

/-- The stream begins with at most one tree record. -/
theorem ser_inj_of_holds {s : State} {t u : Node} (ht : t.size ≤ nodeCap) (hu : u.size ≤ nodeCap)
    (h1 : holds s 0 (ser t)) (h2 : holds s 0 (ser u)) : t = u := by
  have a := parseNode_ser s t (nodeCap + 1) 0 0 (by omega) (by omega) h1
  have b := parseNode_ser s u (nodeCap + 1) 0 0 (by omega) (by omega) h2
  rw [a] at b
  exact (Prod.mk.inj (Except.ok.inj b)).1

end Sys2Proof.Machine
end

