-- ==== Sys2Proof/Laws/Huffman.lean ====
section
/-! SUPPORT. The Huffman coder: the tree builder is one of the runs rule R127 allows, the shape of every such tree, the code table as paths, and the walk as the inverse of the table. -/

namespace Sys2Proof.Machine

/-! ### Tree builder -/

theorem extractLeast_none {q : List Entry} (h : extractLeast q = none) : q = [] := by
  cases q with
  | nil => rfl
  | cons e es =>
    simp only [extractLeast] at h
    split at h
    · simp at h
    · split at h <;> simp at h

/-- What is extracted is in the queue, the rest is the queue without it, and nothing in the queue weighs less. -/
theorem extractLeast_some {q : List Entry} {m : Entry} {rest : List Entry} (h : extractLeast q = some (m, rest)) :
    q.Perm (m :: rest) ∧ ∀ x ∈ q, m.weight ≤ x.weight := by
  induction q generalizing m rest with
  | nil => simp [extractLeast] at h
  | cons e es ih =>
    simp only [extractLeast] at h
    split at h
    · next hn =>
      obtain ⟨rfl, rfl⟩ : e = m ∧ ([] : List Entry) = rest := by simpa using h
      simp [extractLeast_none hn]
    · next m' rest' hs =>
      obtain ⟨hp, hl⟩ := ih hs
      split at h
      · next hb =>
        obtain ⟨rfl, rfl⟩ : e = m ∧ es = rest := by simpa using h
        refine ⟨List.Perm.refl _, fun x hx => ?_⟩
        have hem : e.weight ≤ m'.weight := by
          simp only [Entry.before, Bool.or_eq_true, Bool.and_eq_true, decide_eq_true_eq, beq_iff_eq] at hb; omega
        rcases List.mem_cons.1 hx with rfl | hx
        · exact Nat.le_refl _
        · exact hem.trans (hl x hx)
      · next hb =>
        obtain ⟨rfl, rfl⟩ : m' = m ∧ e :: rest' = rest := by simpa using h
        refine ⟨(hp.cons e).trans (List.Perm.swap _ _ _), fun x hx => ?_⟩
        have hem : m'.weight ≤ e.weight := by
          simp only [Entry.before, Bool.or_eq_true, Bool.and_eq_true, decide_eq_true_eq, beq_iff_eq] at hb; omega
        rcases List.mem_cons.1 hx with rfl | hx
        · exact hem
        · exact hl x hx

/-- The (node, weight) pair of an entry: what rule R127 sees of it. -/
def Entry.pair (e : Entry) : Node × Nat := (e.node, e.weight)

/-- With fuel for every round, one entry is left, and it is what a run of rule R127 leaves. -/
theorem mergeEntries_run : ∀ (fuel seq : Nat) (q : List Entry), q ≠ [] → q.length ≤ fuel + 1 →
    ∃ e, mergeEntries fuel seq q = [e] ∧ HuffmanRun (q.map Entry.pair) e.node := by
  intro fuel
  induction fuel with
  | zero =>
    intro seq q hq hl
    match q, hq, hl with
    | [e], _, _ => exact ⟨e, rfl, .done _ _⟩
    | _ :: _ :: _, _, hl => simp at hl
  | succ fuel ih =>
    intro seq q hq hl
    simp only [mergeEntries]
    cases ha : extractLeast q with
    | none => exact absurd (extractLeast_none ha) hq
    | some p =>
      obtain ⟨a, q1⟩ := p
      obtain ⟨pa, la⟩ := extractLeast_some ha
      cases hb : extractLeast q1 with
      | none =>
        have h1 := extractLeast_none hb
        subst h1
        have hqa : q = [a] := List.perm_singleton.1 pa
        subst hqa
        exact ⟨a, rfl, .done _ _⟩
      | some p =>
        obtain ⟨b, q2⟩ := p
        obtain ⟨pb, lb⟩ := extractLeast_some hb
        have len := pa.length_eq
        have lenb := pb.length_eq
        simp only [List.length_cons] at len lenb
        obtain ⟨e, he, run⟩ := ih (seq + 1) (⟨a.weight + b.weight, seq, .internal a.node b.node⟩ :: q2) (by simp)
          (by simp only [List.length_cons]; omega)
        refine ⟨e, by simpa only [hb] using he, .round (a := a.pair) (b := b.pair) (rest := q2.map Entry.pair) ?_ ?_ ?_ (.inl rfl) run⟩
        · exact (pa.trans (pb.cons a)).map Entry.pair
        · intro x hx
          obtain ⟨y, hy, rfl⟩ := List.mem_map.1 hx
          exact la y hy
        · intro x hx
          obtain ⟨y, hy, rfl⟩ := List.mem_map.1 (show x ∈ (b :: q2).map Entry.pair from hx)
          exact lb y (pb.symm.subset hy)

theorem initialEntries_pairs (freq : Table (BitVec 64)) (l : List Byte) (seq : Nat) :
    (initialEntries freq l seq).map Entry.pair =
      (l.filter fun s => decide (0 < (Table.at freq s).toNat)).map fun s => (.leaf s, (Table.at freq s).toNat) := by
  induction l generalizing seq with
  | nil => rfl
  | cons s l ih =>
    simp only [initialEntries]
    split
    · next h => simp [h, ih, Entry.pair]
    · next h => simp [h, ih]

theorem initialEntries_length (freq : Table (BitVec 64)) :
    (initialEntries freq allSymbols 0).length = (countedSymbols freq).length := by
  have := congrArg List.length (initialEntries_pairs freq allSymbols 0)
  simpa [countedSymbols] using this

/-- With nothing counted there is no tree to build (rule R125). -/
theorem buildDet_none {freq : Table (BitVec 64)} (h : countedSymbols freq = []) : buildDet freq = none := by
  have hl := initialEntries_length freq
  rw [h] at hl
  have : initialEntries freq allSymbols 0 = [] := List.length_eq_zero_iff.1 hl
  simp [buildDet, this, mergeEntries]

/-- The hardware's tree is one rule R127 allows (rule R128). -/
theorem buildDet_huffman {freq : Table (BitVec 64)} (h : countedSymbols freq ≠ []) :
    ∃ t, buildDet freq = some t ∧ HuffmanTreeOf freq t := by
  have hl := initialEntries_length freq
  have hne : initialEntries freq allSymbols 0 ≠ [] := by
    intro e; rw [e] at hl; exact h (List.length_eq_zero_iff.1 hl.symm)
  obtain ⟨e, he, run⟩ := mergeEntries_run _ (initialEntries freq allSymbols 0).length _ hne (Nat.le_succ _)
  refine ⟨e.node, by simp [buildDet, he], ?_⟩
  rw [initialEntries_pairs] at run
  exact run

theorem countedSymbols_eq_nil {freq : Table (BitVec 64)} :
    countedSymbols freq = [] ↔ ∀ x, Table.at freq x = 0 := by
  simp only [countedSymbols, List.filter_eq_nil_iff, decide_eq_true_eq, Nat.not_lt, Nat.le_zero]
  exact ⟨fun h x => BitVec.eq_of_toNat_eq (by simpa using h x (mem_allSymbols x)), fun h x _ => by rw [h x]; rfl⟩

/-! ### The shape of every tree rule R127 allows -/

/-- The leaves of the set of nodes are kept by every round. -/
theorem HuffmanRun.leaves_perm {m : List (Node × Nat)} {t : Node} (h : HuffmanRun m t) :
    (m.flatMap fun p => p.1.leaves).Perm t.leaves := by
  induction h with
  | done t w => simp
  | @round m rest a b p t pick _ _ merged _ ih =>
    refine ((pick.flatMap_right _).trans ?_).trans ih
    rcases merged with rfl | rfl
    · simp [Node.leaves]
    · simp only [List.flatMap_cons, Node.leaves, List.append_assoc]
      rw [← List.append_assoc, ← List.append_assoc]
      exact List.perm_append_comm.append_right _

theorem allSymbols_nodup : allSymbols.Nodup := by
  refine List.Nodup.map_on ?_ List.nodup_range
  intro x hx y hy h
  have := congrArg BitVec.toNat h
  simp only [BitVec.toNat_ofNat] at this
  have := List.mem_range.1 hx; have := List.mem_range.1 hy
  omega

theorem countedSymbols_nodup (freq : Table (BitVec 64)) : (countedSymbols freq).Nodup := allSymbols_nodup.filter _

theorem countedSymbols_length_le (freq : Table (BitVec 64)) : (countedSymbols freq).length ≤ 256 := by
  have := List.length_filter_le (fun s => decide (0 < (Table.at freq s).toNat)) allSymbols
  rwa [allSymbols_length] at this

/-- The leaves are exactly the counted symbols, each once (rule R129 (a)). -/
theorem HuffmanTreeOf.leaves_perm {freq : Table (BitVec 64)} {t : Node} (h : HuffmanTreeOf freq t) :
    t.leaves.Perm (countedSymbols freq) := by
  refine (HuffmanRun.leaves_perm h).symm.trans ?_
  rw [List.flatMap_map]
  simp [Node.leaves]

theorem HuffmanTreeOf.leaves_nodup {freq : Table (BitVec 64)} {t : Node} (h : HuffmanTreeOf freq t) : t.leaves.Nodup :=
  h.leaves_perm.nodup_iff.2 (countedSymbols_nodup freq)

/-- A built tree fits the store (rule R129 (c)). -/
theorem HuffmanTreeOf.size_le {freq : Table (BitVec 64)} {t : Node} (h : HuffmanTreeOf freq t) : t.size ≤ 511 := by
  have := h.leaves_perm.length_eq; have := countedSymbols_length_le freq; have := t.size_add_one
  omega

/-! ### Frequency table -/

/-- The count of a symbol in `CUR` is a count over the words of `CURW` (rules R42 and R121). -/
theorem symCount_cur (s : State) (x : Byte) : symCount (cur s) x =
    (List.range s.clen.toNat).countP fun i => (curWord s i).extractLsb' 24 8 == x := by
  simp [symCount, cur, List.countP_map, cellOfWord, Function.comp_def]

/-! ### Code table -/

/-- Every entry after a visit: the path to the last leaf of its symbol, or what it was (rule R134). -/
theorem visitCodes_at (t : Node) (path : Bits) (table : Table (Option Bits)) (x : Byte) :
    Table.at (visitCodes t path table) x =
      match t.lastPath x with
      | some p => some (path ++ p)
      | none => Table.at table x := by
  induction t generalizing path table with
  | leaf s =>
    by_cases h : s = x
    · subst h; simp [visitCodes, Node.lastPath]
    · simp [visitCodes, Node.lastPath, h, Table.at_put_other _ (Ne.symm h)]
  | internal l r hl hr =>
    simp only [visitCodes, hr, hl, Node.lastPath]
    cases r.lastPath x with
    | some p => simp
    | none => cases l.lastPath x <;> simp

theorem genCodes_leaf (s x : Byte) : Table.at (genCodes (.leaf s)) x = if x = s then some [false] else none := by
  by_cases h : x = s
  · subst h; simp [genCodes]
  · simp [genCodes, h, Table.at_put_other _ h]

theorem genCodes_internal (l r : Node) (x : Byte) :
    Table.at (genCodes (.internal l r)) x = (Node.internal l r).lastPath x := by
  rw [genCodes, visitCodes_at]
  cases (Node.internal l r).lastPath x <;> simp

/-- The recorded path leads to a leaf of the symbol. -/
theorem Node.follow_lastPath {t : Node} {x : Byte} {p : Bits} (h : t.lastPath x = some p) : t.follow p = some (.leaf x) := by
  induction t generalizing p with
  | leaf s =>
    simp only [Node.lastPath] at h
    split at h
    · next e => subst e; obtain rfl : [] = p := by simpa using h
                rfl
    · simp at h
  | internal l r hl hr =>
    simp only [Node.lastPath] at h
    split at h
    · next q hq => obtain rfl : true :: q = p := by simpa using h
                   simpa [Node.follow] using hr hq
    · next hq =>
      obtain ⟨q, hq, rfl⟩ : ∃ q, l.lastPath x = some q ∧ false :: q = p := by simpa using h
      simpa [Node.follow] using hl hq

theorem Node.lastPath_isSome {t : Node} {x : Byte} : (t.lastPath x).isSome = true ↔ x ∈ t.leaves := by
  induction t with
  | leaf s => simp only [Node.lastPath, Node.leaves]; split <;> simp_all [eq_comm]
  | internal l r hl hr =>
    simp only [Node.lastPath, Node.leaves, List.mem_append, ← hl, ← hr]
    cases r.lastPath x <;> simp

theorem Node.mem_leaves_of_follow {t : Node} {x : Byte} {p : Bits} (h : t.follow p = some (.leaf x)) : x ∈ t.leaves := by
  induction t generalizing p with
  | leaf s => cases p <;> simp_all [Node.follow, Node.leaves]
  | internal l r hl hr =>
    cases p with
    | nil => simp [Node.follow] at h
    | cons b p =>
      simp only [Node.follow] at h
      simp only [Node.leaves, List.mem_append]
      cases b
      · exact .inl (hl h)
      · exact .inr (hr h)

/-- With distinct leaf symbols, each leaf is reached by one path only, the recorded one. -/
theorem Node.lastPath_of_follow {t : Node} {x : Byte} {p : Bits} (hd : t.leaves.Nodup) (h : t.follow p = some (.leaf x)) :
    t.lastPath x = some p := by
  induction t generalizing p with
  | leaf s => cases p <;> simp_all [Node.follow, Node.lastPath]
  | internal l r hl hr =>
    cases p with
    | nil => simp [Node.follow] at h
    | cons b p =>
      simp only [Node.leaves, List.nodup_append] at hd
      obtain ⟨hdl, hdr, hdis⟩ := hd
      simp only [Node.follow] at h
      simp only [Node.lastPath]
      cases b
      · have hx := Node.mem_leaves_of_follow (t := l) (p := p) (by simpa using h)
        have : r.lastPath x = none := by
          cases hr' : r.lastPath x with
          | none => rfl
          | some q => exact absurd rfl (hdis x hx x (Node.lastPath_isSome.1 (by simp [hr'])))
        simp [this, hl hdl (by simpa using h)]
      · simp [hr hdr (by simpa using h)]

theorem Node.follow_length {t u : Node} {p : Bits} (h : t.follow p = some u) : p.length ≤ t.depth := by
  induction t generalizing p with
  | leaf s => cases p <;> simp_all [Node.follow]
  | internal l r hl hr =>
    cases p with
    | nil => simp
    | cons b p =>
      simp only [Node.follow] at h
      simp only [Node.depth, List.length_cons]
      cases b
      · have := hl (by simpa using h); omega
      · have := hr (by simpa using h); omega

/-- An entry of the code table is a whole code path of its symbol (rules R134 and R140). -/
theorem symbolAt_of_genCodes {t : Node} {x : Byte} {p : Bits} (h : Table.at (genCodes t) x = some p) :
    t.symbolAt p = some x := by
  cases t with
  | leaf s =>
    rw [genCodes_leaf] at h
    split at h
    · next e => subst e; obtain rfl : [false] = p := by simpa using h
                rfl
    · simp at h
  | internal l r =>
    rw [genCodes_internal] at h
    simp [Node.symbolAt, Node.follow_lastPath h]

theorem symbolAt_internal {l r : Node} {p : Bits} {x : Byte} :
    (Node.internal l r).symbolAt p = some x ↔ (Node.internal l r).follow p = some (.leaf x) := by
  simp only [Node.symbolAt]
  constructor
  · intro h; split at h
    · next e => rw [e]; simpa using h
    · simp at h
  · intro h; simp [h]

/-- With distinct leaf symbols the table holds exactly the code paths (rules R134 and R140). -/
theorem genCodes_eq_some {t : Node} (hd : t.leaves.Nodup) {x : Byte} {p : Bits} :
    Table.at (genCodes t) x = some p ↔ t.symbolAt p = some x := by
  refine ⟨symbolAt_of_genCodes, fun h => ?_⟩
  cases t with
  | leaf s =>
    simp only [Node.symbolAt] at h
    split at h
    · next e => subst e; obtain rfl : s = x := by simpa using h
                simp [genCodes_leaf]
    · simp at h
  | internal l r => rw [genCodes_internal]; exact Node.lastPath_of_follow hd (symbolAt_internal.1 h)

/-- The table has a code exactly for the symbols of the leaves (rule R135 (a)). -/
theorem genCodes_isSome {t : Node} {x : Byte} : (Table.at (genCodes t) x).isSome = true ↔ x ∈ t.leaves := by
  cases t with
  | leaf s => rw [genCodes_leaf]; by_cases h : x = s <;> simp [h, Node.leaves]
  | internal l r => rw [genCodes_internal, Node.lastPath_isSome]

/-- A code is never empty and never longer than the tree is deep (rule R135 (b)). -/
theorem genCodes_length {t : Node} {x : Byte} {p : Bits} (h : Table.at (genCodes t) x = some p) :
    1 ≤ p.length ∧ p.length ≤ max 1 t.depth := by
  have h := symbolAt_of_genCodes h
  cases t with
  | leaf s =>
    simp only [Node.symbolAt] at h
    split at h
    · next e => subst e; simp [Node.depth]
    · simp at h
  | internal l r =>
    have hf := symbolAt_internal.1 h
    have := Node.follow_length hf
    refine ⟨?_, by omega⟩
    cases p with
    | nil => simp [Node.follow] at hf
    | cons b p => simp

theorem Node.follow_append (t : Node) (p q : Bits) : t.follow (p ++ q) = (t.follow p).bind (·.follow q) := by
  induction p generalizing t with
  | nil => simp [Node.follow]
  | cons b p ih =>
    cases t with
    | leaf s => simp [Node.follow]
    | internal l r => cases b <;> simp [Node.follow, ih]

/-- No code path goes on to another one (rule R135 (c)). -/
theorem symbolAt_prefix_free {t : Node} {p q : Bits} {x y : Byte} (hp : t.symbolAt p = some x) (hq : t.symbolAt q = some y)
    (h : p <+: q) : p = q := by
  cases t with
  | leaf s =>
    simp only [Node.symbolAt] at hp hq
    split at hp <;> split at hq <;> simp_all
  | internal l r =>
    obtain ⟨e, rfl⟩ := h
    have hp := symbolAt_internal.1 hp
    have hq := symbolAt_internal.1 hq
    rw [Node.follow_append, hp] at hq
    cases e with
    | nil => simp
    | cons b e => simp [Node.follow] at hq

/-! ### The walk -/

/-- The walk finds the leaf at the end of a path that lies in `BITS` (rule R139). -/
theorem walk_ok {s : State} (hb : s.blen.toNat = s.bits.length) (bad : Raise) {t : Node} {p : Bits} {x : Byte} {c : Nat}
    (hf : t.follow p = some (.leaf x)) (hc : c ≤ s.bits.length) (hp : p <+: rest s c) :
    walk s bad t c = .ok (x, c + p.length) := by
  induction t generalizing p c with
  | leaf s' => cases p <;> simp_all [Node.follow, walk]
  | internal l r hl hr =>
    cases p with
    | nil => simp [Node.follow] at hf
    | cons b p =>
      obtain ⟨e, he⟩ := hp
      simp only [rest] at he
      have hlen := congrArg List.length he
      simp only [List.cons_append, List.length_cons, List.length_append, List.length_drop] at hlen
      have hc' : c < s.bits.length := by omega
      rw [List.drop_eq_getElem_cons hc', List.cons_append] at he
      obtain ⟨hb1, he⟩ := List.cons.inj he
      have hbit : bitAt s c = b := by simp [bitAt, List.getD_eq_getElem?_getD, hc', hb1]
      have hp' : p <+: rest s (c + 1) := ⟨e, he⟩
      simp only [walk, hb, show c + 1 ≤ s.bits.length by omega, if_true, hbit, List.length_cons]
      simp only [Node.follow] at hf
      cases b
      · simpa [Nat.add_assoc, Nat.add_comm 1] using hl (by simpa using hf) (by omega) hp'
      · simpa [Nat.add_assoc, Nat.add_comm 1] using hr (by simpa using hf) (by omega) hp'

/-- What the walk answers is the end of a path that lies in `BITS` (rule R140). -/
theorem walk_sound {s : State} (hb : s.blen.toNat = s.bits.length) {bad : Raise} {t : Node} {x : Byte} {c e : Nat}
    (h : walk s bad t c = .ok (x, e)) :
    ∃ p, t.follow p = some (.leaf x) ∧ e = c + p.length ∧ p <+: rest s c := by
  induction t generalizing c with
  | leaf s' =>
    obtain ⟨rfl, rfl⟩ : s' = x ∧ c = e := by simpa [walk] using h
    exact ⟨[], rfl, rfl, List.nil_prefix⟩
  | internal l r hl hr =>
    simp only [walk, hb] at h
    split at h
    · next hc =>
      have hc' : c < s.bits.length := by omega
      have hd : rest s c = bitAt s c :: rest s (c + 1) := by
        simp only [rest]
        rw [List.drop_eq_getElem_cons hc']
        simp [bitAt, List.getD_eq_getElem?_getD, hc']
      split at h
      · next hbit =>
        obtain ⟨p, h1, h2, h3⟩ := hr h
        exact ⟨true :: p, by simpa [Node.follow] using h1, by simp; omega, by rw [hd, hbit]; simpa using h3⟩
      · next hbit =>
        obtain ⟨p, h1, h2, h3⟩ := hl h
        exact ⟨false :: p, by simpa [Node.follow] using h1, by simp; omega, by rw [hd]; simpa [hbit] using h3⟩
    · simp at h

theorem walk_error {s : State} {bad r : Raise} {t : Node} {c : Nat} (h : walk s bad t c = .error r) : r = bad := by
  induction t generalizing c with
  | leaf s' => simp [walk] at h
  | internal l r' hl hr =>
    simp only [walk] at h
    split at h
    · split at h
      · exact hr h
      · exact hl h
    · simpa using h.symm

/-- `decodeOne` returns a symbol exactly when its code path lies in `BITS` at the cursor (rules R139 and R140). -/
theorem decodeOne_eq_ok {s : State} (hb : s.blen.toNat = s.bits.length) {t : Node} (ht : heldTree s = some t) {c j e : Nat}
    {x : Byte} : decodeOne s c j = .ok (x, e) ↔ ∃ p, t.symbolAt p = some x ∧ e = c + p.length ∧ p <+: rest s c := by
  simp only [decodeOne, ht]
  cases t with
  | leaf sym =>
    simp only [bind_eq_ok, require_eq_ok, Except.ok.injEq, Prod.mk.injEq, hb]
    constructor
    · rintro ⟨-, h1, -, h2, rfl, rfl⟩
      refine ⟨[false], rfl, rfl, ?_⟩
      have hc' : c < s.bits.length := by omega
      simp only [rest]
      rw [List.drop_eq_getElem_cons hc']
      have : s.bits[c] = false := by simpa [bitAt, List.getD_eq_getElem?_getD, hc'] using h2
      simp [this]
    · rintro ⟨p, h1, h2, h3⟩
      simp only [Node.symbolAt] at h1
      split at h1
      · next e' =>
        subst e'
        obtain rfl : sym = x := by simpa using h1
        obtain ⟨e', he⟩ := h3
        simp only [rest] at he
        have hlen := congrArg List.length he
        simp only [List.length_append, List.length_drop, List.length_singleton] at hlen
        have hc' : c < s.bits.length := by omega
        rw [List.drop_eq_getElem_cons hc'] at he
        have hb1 := (List.cons.inj he).1
        exact ⟨(), by omega, (), by simp [bitAt, List.getD_eq_getElem?_getD, hc', ← hb1], rfl, by simpa using h2.symm⟩
      · simp at h1
  | internal l r =>
    constructor
    · intro h
      obtain ⟨p, h1, h2, h3⟩ := walk_sound hb h
      exact ⟨p, symbolAt_internal.2 h1, h2, h3⟩
    · rintro ⟨p, h1, rfl, h3⟩
      have h1 := symbolAt_internal.1 h1
      refine walk_ok hb _ h1 ?_ h3
      by_contra hc
      have : rest s c = [] := List.drop_eq_nil_of_le (by omega)
      rw [this] at h3
      have : p = [] := List.prefix_nil.1 h3
      subst this
      simp [Node.follow] at h1

/-- Every fault of `decodeOne` is MalformedTree at the walk's start (rules R139 and R243). -/
theorem decodeOne_error {s : State} {c j : Nat} {r : Raise} (h : decodeOne s c j = .error r) :
    r = ⟨.malformedTree, j, c⟩ := by
  simp only [decodeOne] at h
  split at h
  · simpa using h.symm
  · simp only [bind_eq_error, require_eq_error] at h
    rcases h with h | ⟨-, -, h | ⟨-, -, h⟩⟩
    · exact h.2.symm
    · exact h.2.symm
    · simp at h
  · exact walk_error h

/-- A walk consumes at least one bit and ends within `BITS` (rules R139 and R182). -/
theorem decodeOne_bounds {s : State} {c j e : Nat} {x : Byte} (h : decodeOne s c j = .ok (x, e)) :
    c + 1 ≤ e ∧ e ≤ s.blen.toNat := by
  have hw : ∀ (t : Node) bad (c e : Nat), walk s bad t c = .ok (x, e) → c ≤ e ∧ (e ≤ s.blen.toNat ∨ c = e) := by
    intro t bad
    induction t with
    | leaf s' => intro c e h; simp only [walk, Except.ok.injEq, Prod.mk.injEq] at h; omega
    | internal l r hl hr =>
      intro c e h
      simp only [walk] at h
      split at h
      · split at h
        · have := hr _ _ h; omega
        · have := hl _ _ h; omega
      · simp at h
  simp only [decodeOne] at h
  split at h
  · simp at h
  · simp only [bind_eq_ok, require_eq_ok, Except.ok.injEq, Prod.mk.injEq] at h
    obtain ⟨-, h1, -, -, -, rfl⟩ := h
    omega
  · simp only [walk] at h
    split at h
    · split at h
      · have := hw _ _ _ _ h; omega
      · have := hw _ _ _ _ h; omega
    · simp at h

/-- No code path is empty (rule R135 (b)). -/
theorem symbolAt_ne_nil {n : Node} {k : Bits} {x : Byte} (h : n.symbolAt k = some x) : k ≠ [] := by
  rintro rfl
  cases n <;> simp [Node.symbolAt, Node.follow] at h

/-- The walk sees only the bit sequence and the tree. -/
theorem walk_congr {s s' : State} (hb : s'.bits = s.bits) (hl : s'.blen = s.blen) (bad : Raise) (n : Node) :
    ∀ c, walk s' bad n c = walk s bad n c := by
  have hba : bitAt s' = bitAt s := by funext c; simp [bitAt, hb]
  induction n with
  | leaf x => intro c; rfl
  | internal l r ihl ihr =>
    intro c
    simp only [walk]
    rw [hl, hba, ihl, ihr]

theorem decodeOne_congr {s s' : State} (hb : s'.bits = s.bits) (hl : s'.blen = s.blen) (ht : heldTree s' = heldTree s)
    (c j : Nat) : decodeOne s' c j = decodeOne s c j := by
  have hba : bitAt s' = bitAt s := by funext c; simp [bitAt, hb]
  simp only [decodeOne, walk_congr hb hl]
  rw [ht, hl, hba]

end Sys2Proof.Machine
end

