-- ==== Sys2Proof/Laws/Effects.lean ====
section
/-! SUPPORT. For each command, exactly when its effect succeeds and what state it then leaves: later proofs cite these and never unfold an effect. -/

namespace Sys2Proof.Machine

variable {s t : State}

/-! ### Huffman coder -/

theorem freqClrEffect_eq_ok : freqClrEffect s = .ok t ↔ t = { s with freq := Table.make fun _ => 0 } := by
  simp [freqClrEffect, eq_comm]

theorem accumulate_eq_ok {freq freq' : Table (BitVec 64)} {f : Frame} :
    accumulate freq f = .ok freq' ↔ (∀ x, (Table.at freq x).toNat + symCount f x < 2 ^ 64) ∧
      freq' = Table.make fun x => BitVec.ofNat 64 ((Table.at freq x).toNat + symCount f x) := by
  simp only [accumulate]
  split
  · next x hx =>
    have := List.find?_some hx
    simp only [decide_eq_true_eq] at this
    simp only [reduceCtorEq, false_iff, not_and]
    intro h; have := h x; omega
  · next hn =>
    have hall : ∀ x, (Table.at freq x).toNat + symCount f x < 2 ^ 64 := by
      intro x
      have := List.find?_eq_none.1 hn x (mem_allSymbols x)
      simpa using this
    rw [Except.ok.injEq, eq_comm]
    exact ⟨fun h => ⟨hall, h⟩, fun h => h.2⟩

theorem freqAccEffect_eq_ok : freqAccEffect s = .ok t ↔ s.clen.toNat ≤ s.cfg.cellCap ∧
    (∀ x, (Table.at s.freq x).toNat + symCount (cur s) x < 2 ^ 64) ∧
    t = { s with freq := Table.make fun x => BitVec.ofNat 64 ((Table.at s.freq x).toNat + symCount (cur s) x) } := by
  simp only [freqAccEffect, bind_eq_ok, requireFrame_eq_ok, accumulate_eq_ok, Except.ok.injEq]
  constructor
  · rintro ⟨-, h1, _, ⟨h2, rfl⟩, rfl⟩; exact ⟨h1, h2, rfl⟩
  · rintro ⟨h1, h2, rfl⟩; exact ⟨(), h1, _, ⟨h2, rfl⟩, rfl⟩

theorem buildTreeEffect_eq_ok : buildTreeEffect s = .ok t ↔ ∃ n, buildDet s.freq = some n ∧ t = s.setTree n := by
  simp only [buildTreeEffect]
  cases buildDet s.freq <;> simp [eq_comm]

theorem genCodesEffect_eq_ok : genCodesEffect s = .ok t ↔ ∃ n, heldTree s = some n ∧ t = s.setCode (genCodes n) := by
  simp only [genCodesEffect]
  cases heldTree s <;> simp [eq_comm]

theorem decodeOneEffect_eq_ok : decodeOneEffect s = .ok t ↔ ∃ x c, decodeOne s s.bc.toNat 0 = .ok (x, c) ∧
    t = { s with sym := x, bc := BitVec.ofNat 32 c } := by
  simp only [decodeOneEffect, bind_eq_ok]
  constructor
  · rintro ⟨⟨x, c⟩, h, h2⟩; exact ⟨x, c, h, by simpa using h2.symm⟩
  · rintro ⟨x, c, h, rfl⟩; exact ⟨(x, c), h, rfl⟩

/-! ### Tree serializer -/

theorem treeWrEffect_eq_ok : treeWrEffect s = .ok t ↔ ∃ n, heldTree s = some n ∧
    s.olen.toNat + (ser n).length ≤ s.cfg.outCap ∧ t = appended s (ser n) := by
  simp only [treeWrEffect]
  cases heldTree s <;> simp [outAppend_eq_ok]

/-- TREE_RD succeeds exactly when the stream holds a tree record of at most 511 nodes (rules R155 and R161). -/
theorem treeRdEffect_eq_ok : treeRdEffect s = .ok t ↔ s.ilen.toNat ≤ s.cfg.inCap ∧
    ∃ n : Node, n.size ≤ nodeCap ∧ holds s 0 (ser n) ∧ t = (s.setTree n).consume (ser n).length := by
  simp only [treeRdEffect, bind_eq_ok, requireInput_eq_ok]
  constructor
  · rintro ⟨-, h1, ⟨n, k, m⟩, h2, h3⟩
    obtain ⟨a, b, c, d⟩ := parseNode_sound s _ _ _ (Nat.zero_le _) h2
    simp only [Nat.zero_add] at b c
    subst b c
    exact ⟨h1, n, d, a, by simpa using h3.symm⟩
  · rintro ⟨h1, n, h2, h3, rfl⟩
    refine ⟨(), h1, (n, (ser n).length, n.size), ?_, rfl⟩
    simpa using parseNode_ser s n (nodeCap + 1) 0 0 (by omega) (by omega) h3

/-! ### Bit packer -/

@[simp] theorem packRecord_length (n : Nat) (b : Bits) : (packRecord n b).length = 4 + ceil8 b.length + 1 := by
  simp [packRecord]; omega

theorem packEffect_eq_ok : packEffect s = .ok t ↔
    s.olen.toNat + (4 + ceil8 s.bits.length + 1) ≤ s.cfg.outCap ∧ t = appended s (packRecord s.blen.toNat s.bits) := by
  simp [packEffect, outAppend_eq_ok]

theorem unpackEffect_eq_ok : unpackEffect s = .ok t ↔ s.ilen.toNat ≤ s.cfg.inCap ∧ in32 s 0 ≤ fieldMax ∧
    in32 s 0 ≤ s.cfg.bitCap ∧ 4 + ceil8 (in32 s 0) + 1 ≤ inAvail s ∧
    t = (s.setBits (unpackBits (inBytes s 4 (ceil8 (in32 s 0))) (in32 s 0))).consume (4 + ceil8 (in32 s 0) + 1) := by
  simp only [unpackEffect, bind_eq_ok, requireInput_eq_ok, requireBytes_eq_ok, require_eq_ok, requireBitCap_eq_ok,
    Except.ok.injEq]
  constructor
  · rintro ⟨-, h1, -, h2, -, h3, -, h4, -, h5, rfl⟩; exact ⟨h1, h3, h4, h5, rfl⟩
  · rintro ⟨h1, h3, h4, h5, rfl⟩; exact ⟨(), h1, (), by omega, (), h3, (), h4, (), h5, rfl⟩

/-! ### Container fields -/

theorem put32Effect_eq_ok : put32Effect s = .ok t ↔ s.cnt.toNat ≤ fieldMax ∧
    s.olen.toNat + 4 ≤ s.cfg.outCap ∧ t = appended s (le32 s.cnt.toNat) := by
  simp [put32Effect, bind_eq_ok, outAppend_eq_ok]

theorem get32Effect_eq_ok : get32Effect s = .ok t ↔ s.ilen.toNat ≤ s.cfg.inCap ∧ 4 ≤ inAvail s ∧
    in32 s 0 ≤ fieldMax ∧ t = { s with cnt := BitVec.ofNat 32 (in32 s 0) }.consume 4 := by
  simp only [get32Effect, bind_eq_ok, requireInput_eq_ok, requireBytes_eq_ok, require_eq_ok, Except.ok.injEq]
  constructor
  · rintro ⟨-, h1, -, h2, -, h3, rfl⟩; exact ⟨h1, h2, h3, rfl⟩
  · rintro ⟨h1, h2, h3, rfl⟩; exact ⟨(), h1, (), h2, (), h3, rfl⟩

/-! ### Frame codec -/

/-- Every cell to be encoded has a code, or the lowest one without raises MissingCode (rule R183). -/
theorem requireCodes_eq_ok {code : Table (Option Bits)} {ps : List (Cell × Nat)} {u : Unit} :
    requireCodes code ps = .ok u ↔ ∀ p ∈ ps, (Table.at code p.1.sym).isSome = true := by
  simp only [requireCodes]
  split
  · next p hp =>
    have h1 := List.mem_of_find?_eq_some hp
    have h2 := List.find?_some hp
    simp only [reduceCtorEq, false_iff, not_forall]
    exact ⟨p, h1, by simpa using h2⟩
  · next hn =>
    simp only [true_iff]
    intro p hp
    have := List.find?_eq_none.1 hn p hp
    cases h : Table.at code p.1.sym <;> simp_all

theorem encFullEffect_eq_ok : encFullEffect s = .ok t ↔ s.codeV = true ∧ s.clen.toNat ≤ s.cfg.cellCap ∧
    (∀ p ∈ (cur s).zipIdx, (Table.at s.code p.1.sym).isSome = true) ∧
    ((cur s).flatMap (cellBits s.code)).length ≤ s.cfg.bitCap ∧ s.olen.toNat + 4 ≤ s.cfg.outCap ∧
    t = ({ (appended s (le32 s.clen.toNat)).setBits ((cur s).flatMap (cellBits s.code)) with cnt := s.clen }.setPrev
      (cur s) s.clen).markPrev := by
  simp only [encFullEffect, bind_eq_ok, require_eq_ok, requireFrame_eq_ok, requireCodes_eq_ok, requireBitCap_eq_ok,
    outAppend_eq_ok, le32_length, Except.ok.injEq]
  constructor
  · rintro ⟨-, h1, -, h2, -, h3, -, h4, _, ⟨h5, rfl⟩, rfl⟩; exact ⟨h1, h2, h3, h4, h5, rfl⟩
  · rintro ⟨h1, h2, h3, h4, h5, rfl⟩; exact ⟨(), h1, (), h2, (), h3, (), h4, _, ⟨h5, rfl⟩, rfl⟩

theorem encDeltaEffect_eq_ok : encDeltaEffect s = .ok t ↔ (s.codeV = true ∧ s.prevV = true) ∧
    s.clen.toNat ≤ s.cfg.cellCap ∧
    (∀ p ∈ changedCells s.prev s.plen.toNat (cur s), (Table.at s.code p.1.sym).isSome = true) ∧
    ((changedCells s.prev s.plen.toNat (cur s)).flatMap (deltaBits s.code)).length ≤ s.cfg.bitCap ∧
    s.olen.toNat + 4 ≤ s.cfg.outCap ∧
    t = { (appended s (le32 (changedCells s.prev s.plen.toNat (cur s)).length)).setBits
        ((changedCells s.prev s.plen.toNat (cur s)).flatMap (deltaBits s.code)) with
        cnt := BitVec.ofNat 32 (changedCells s.prev s.plen.toNat (cur s)).length }.setPrev (cur s) s.clen := by
  simp only [encDeltaEffect, bind_eq_ok, require_eq_ok, requireFrame_eq_ok, requireCodes_eq_ok, requireBitCap_eq_ok,
    outAppend_eq_ok, le32_length, Except.ok.injEq]
  constructor
  · rintro ⟨-, h1, -, h2, -, h3, -, h4, _, ⟨h5, rfl⟩, rfl⟩; exact ⟨h1, h2, h3, h4, h5, rfl⟩
  · rintro ⟨h1, h2, h3, h4, h5, rfl⟩; exact ⟨(), h1, (), h2, (), h3, (), h4, _, ⟨h5, rfl⟩, rfl⟩

theorem decFullEffect_eq_ok : decFullEffect s = .ok t ↔ s.cnt.toNat ≤ fieldMax ∧ s.cnt.toNat ≤ s.cfg.cellCap ∧
    ∃ f c, decodeCells s s.cnt.toNat 0 0 = .ok (f, c) ∧ t = (s.putFrame f s.cnt c).markPrev := by
  simp only [decFullEffect, requireCount, bind_eq_ok, require_eq_ok]
  constructor
  · rintro ⟨-, h1, -, h2, ⟨f, c⟩, h3, h4⟩; exact ⟨h1, h2, f, c, h3, by simpa using h4.symm⟩
  · rintro ⟨h1, h2, f, c, h3, rfl⟩; exact ⟨(), h1, (), h2, (f, c), h3, rfl⟩

theorem decDeltaEffect_eq_ok : decDeltaEffect s = .ok t ↔ s.prevV = true ∧ s.cnt.toNat ≤ fieldMax ∧
    ∃ f c, decodeUpdates s s.cnt.toNat 0 0 s.prev = .ok (f, c) ∧ t = s.putFrame f s.plen c := by
  simp only [decDeltaEffect, requireCount, bind_eq_ok, require_eq_ok]
  constructor
  · rintro ⟨-, h1, -, h2, ⟨f, c⟩, h3, h4⟩; exact ⟨h1, h2, f, c, h3, by simpa using h4.symm⟩
  · rintro ⟨h1, h2, f, c, h3, rfl⟩; exact ⟨(), h1, (), h2, (f, c), h3, rfl⟩

end Sys2Proof.Machine
end

