-- ==== Sys2Proof/Laws/FrameCodec.lean ====
section
/-! SUPPORT. The frame codec's round trips at the level of bits: a decoder reads back exactly what the encoder's formats write (rules R102, R103, R182, R196 and R205). -/

namespace Sys2Proof.Machine

/-! ### Reading fields -/

theorem rest_split {s : State} {c : Nat} {a b : Bits} (h : a ++ b <+: rest s c) :
    a <+: rest s c ∧ b <+: rest s (c + a.length) := by
  refine ⟨(List.prefix_append a b).trans h, ?_⟩
  obtain ⟨e, he⟩ := h
  refine ⟨e, ?_⟩
  rw [rest, ← List.drop_drop, show List.drop c s.bits = rest s c from rfl, ← he]
  simp

theorem rest_join {s : State} {c : Nat} {a b : Bits} (h1 : a <+: rest s c) (h2 : b <+: rest s (c + a.length)) :
    a ++ b <+: rest s c := by
  obtain ⟨e1, h1⟩ := h1
  obtain ⟨e2, h2⟩ := h2
  refine ⟨e2, ?_⟩
  have : rest s (c + a.length) = e1 := by
    rw [rest, ← List.drop_drop, show List.drop c s.bits = rest s c from rfl, ← h1]; simp
  rw [List.append_assoc, h2, this, h1]

theorem rest_prefix_bound {s : State} {c : Nat} {a : Bits} (ha : a ≠ []) (h : a <+: rest s c) :
    c + a.length ≤ s.bits.length := by
  have := h.length_le
  simp only [rest, List.length_drop] at this
  have : 0 < a.length := List.length_pos_iff.2 ha
  omega

/-- A field of `n` bits that lies at the cursor is read back (rule R72). -/
theorem bitsRead_of_prefix {s : State} {c : Nat} {a : Bits} (h : a <+: rest s c) : bitsRead s c a.length = a := by
  obtain ⟨e, he⟩ := h
  rw [bitsRead, show List.drop c s.bits = rest s c from rfl, ← he]
  simp

theorem decodeField8_of_prefix {s : State} (hb : s.blen.toNat = s.bits.length) {c : Nat} {a : Bits} (hl : a.length = 8)
    (h : a <+: rest s c) : decodeField8 s c = .ok (val a) := by
  have := rest_prefix_bound (by rintro rfl; simp at hl) h
  have e := bitsRead_of_prefix h
  rw [hl] at e this
  simp [decodeField8, requireBits, require, hb, this, e]

/-- An 8-bit field decodes exactly when its 8 bits lie in `BITS`. -/
theorem decodeField8_eq_ok {s : State} (hb : s.blen.toNat = s.bits.length) {c v : Nat} :
    decodeField8 s c = .ok v ↔ v < 256 ∧ bitsN 8 v <+: rest s c := by
  constructor
  · intro h
    simp only [decodeField8, bind_eq_ok, requireBits_eq_ok, Except.ok.injEq, hb] at h
    obtain ⟨-, h1, h2⟩ := h
    have hl := bitsRead_length h1
    have hv := val_lt (bitsRead s c 8)
    have e := bitsN_val (bitsRead s c 8)
    rw [hl, h2] at e
    rw [hl, h2] at hv
    exact ⟨hv, e ▸ List.take_prefix 8 _⟩
  · rintro ⟨hv, h⟩
    rw [decodeField8_of_prefix hb (bitsN_length 8 v) h, val_bitsN, Nat.mod_eq_of_lt (show v < 2 ^ 8 from hv)]

theorem decodeField8_ok {s : State} {c : Nat} (h : c + 8 ≤ s.blen.toNat) :
    decodeField8 s c = .ok (val (bitsRead s c 8)) := by
  simp [decodeField8, requireBits, require_true h]

theorem decodeField8_short {s : State} {c : Nat} (h : s.blen.toNat < c + 8) :
    decodeField8 s c = .error ⟨.truncatedStream, 8, s.blen.toNat - c⟩ := by
  simp [decodeField8, requireBits, require_false (Nat.not_le.2 h), bitsAvail]

theorem decodeField8_error {s : State} {c : Nat} {r : Raise} (h : decodeField8 s c = .error r) :
    r.cause = .truncatedStream := by
  simp only [decodeField8, requireBits, bind_eq_error, require_eq_error] at h
  rcases h with ⟨-, rfl⟩ | ⟨_, -, h⟩
  · rfl
  · simp at h

/-- What lies at the cursor, said by its length and its bits (rule R72). -/
theorem prefix_rest_iff {s : State} (hb : s.blen.toNat = s.bits.length) {c : Nat} {k : Bits} (hk : k ≠ []) :
    k <+: rest s c ↔ c + k.length ≤ s.blen.toNat ∧ bitsRead s c k.length = k := by
  constructor
  · intro h; exact ⟨hb ▸ rest_prefix_bound hk h, bitsRead_of_prefix h⟩
  · rintro ⟨-, h2⟩
    rw [← h2]; exact List.take_prefix _ _

/-! ### One cell -/

theorem isCellEncoding_length {n : Node} {c : Cell} {b : Bits} (h : isCellEncoding n c b) : 33 ≤ b.length := by
  obtain ⟨k, hk, -, rfl⟩ := h
  have : k ≠ [] := by
    rintro rfl
    cases n <;> simp [Node.symbolAt, Node.follow] at hk
  have := List.length_pos_iff.2 this
  simp; omega

/-- A cell decodes exactly when an encoding of it lies in `BITS` at the cursor (rules R102 and R182). -/
theorem decodeCell_eq_ok {s : State} (hb : s.blen.toNat = s.bits.length) {n : Node} (hn : heldTree s = some n)
    {p j e : Nat} {c : Cell} : decodeCell s p j = .ok (c, e) ↔
      ∃ b, isCellEncoding n c b ∧ b <+: rest s p ∧ e = p + b.length := by
  constructor
  · intro h
    simp only [decodeCell, bind_eq_ok, require_eq_ok] at h
    obtain ⟨len, h1, ⟨x, q⟩, h2, -, h3, r, h4, g, h5, bl, h6, h7⟩ := h
    simp only [Except.ok.injEq, Prod.mk.injEq] at h7
    obtain ⟨rfl, rfl⟩ := h7
    obtain ⟨k, hk, rfl, hp⟩ := (decodeOne_eq_ok hb hn).1 h2
    dsimp only at h3 h4 h5 h6
    obtain rfl : k.length = len := by omega
    obtain ⟨l1, p1⟩ := (decodeField8_eq_ok hb).1 h1
    obtain ⟨l4, p4⟩ := (decodeField8_eq_ok hb).1 h4
    obtain ⟨l5, p5⟩ := (decodeField8_eq_ok hb).1 h5
    obtain ⟨l6, p6⟩ := (decodeField8_eq_ok hb).1 h6
    refine ⟨bitsN 8 k.length ++ (k ++ (bitsN 8 r ++ (bitsN 8 g ++ bitsN 8 bl))), ⟨k, hk, by omega, ?_⟩, ?_, by simp; omega⟩
    · simp only [bits8, BitVec.toNat_ofNat, Nat.mod_eq_of_lt l4, Nat.mod_eq_of_lt l5, Nat.mod_eq_of_lt l6]
    · refine rest_join p1 ?_
      rw [bitsN_length]
      refine rest_join hp (rest_join p4 ?_)
      rw [bitsN_length]
      refine rest_join p5 ?_
      rwa [bitsN_length]
  · rintro ⟨b, ⟨k, hk, hl, rfl⟩, h, rfl⟩
    obtain ⟨h1, h⟩ := rest_split h
    obtain ⟨h2, h⟩ := rest_split h
    obtain ⟨h3, h⟩ := rest_split h
    obtain ⟨h4, h5⟩ := rest_split h
    simp only [bitsN_length, bits8_length] at h2 h3 h4 h5
    have d1 : decodeOne s (p + 8) j = .ok (c.sym, p + 8 + k.length) := (decodeOne_eq_ok hb hn).2 ⟨k, hk, rfl, h2⟩
    have f1 := (decodeField8_eq_ok hb).2 ⟨by omega, h1⟩
    have f2 := decodeField8_of_prefix hb (bits8_length _) h3
    have f3 := decodeField8_of_prefix hb (bits8_length _) h4
    have f4 := decodeField8_of_prefix hb (bits8_length _) h5
    rw [val_bits8] at f2 f3 f4
    simp only [decodeCell, f1, ok_bind', d1, require, show p + 8 + k.length - (p + 8) = k.length by omega, if_true, f2, f3,
      show p + 8 + k.length + 16 = p + 8 + k.length + 8 + 8 by omega, f4, Except.ok.injEq, Prod.mk.injEq]
    exact ⟨by simp, by simp; omega⟩

/-- A decoded cell lies within `BITS` and takes at least 33 bits (rules R102 and R182). -/
theorem decodeCell_bounds {s : State} {p j e : Nat} {c : Cell} (h : decodeCell s p j = .ok (c, e)) :
    p + 33 ≤ e ∧ e ≤ s.blen.toNat := by
  simp only [decodeCell, decodeField8, bind_eq_ok, requireBits_eq_ok, require_eq_ok] at h
  obtain ⟨_, ⟨-, _, _⟩, ⟨x, q⟩, hd, h⟩ := h
  obtain ⟨-, _, _, ⟨-, _, _⟩, _, ⟨-, _, _⟩, _, ⟨-, hq, _⟩, h⟩ := h
  have := decodeOne_bounds hd
  simp only [Except.ok.injEq, Prod.mk.injEq] at h
  dsimp only at hq
  omega

/-- The causes the cell decoder raises (rule R182). -/
theorem decodeCell_error {s : State} {c j : Nat} {r : Raise} (h : decodeCell s c j = .error r) :
    r.cause = .truncatedStream ∨ r.cause = .malformedTree := by
  simp only [decodeCell, bind_eq_error, require_eq_error] at h
  rcases h with h | ⟨_, -, h | ⟨_, -, ⟨-, rfl⟩ | ⟨_, -, h | ⟨_, -, h | ⟨_, -, h | ⟨_, -, h⟩⟩⟩⟩⟩⟩
  · exact .inl (decodeField8_error h)
  · exact .inr (by rw [decodeOne_error h])
  · exact .inr rfl
  · exact .inl (decodeField8_error h)
  · exact .inl (decodeField8_error h)
  · exact .inl (decodeField8_error h)
  · simp at h

/-- The cell decoder sees only the bit sequence and the tree. -/
theorem decodeCell_congr {s s' : State} (hb : s'.bits = s.bits) (hl : s'.blen = s.blen) (ht : heldTree s' = heldTree s)
    (c j : Nat) : decodeCell s' c j = decodeCell s c j := by
  have h8 : ∀ c, decodeField8 s' c = decodeField8 s c := by
    intro c; simp only [decodeField8, requireBits, bitsAvail, bitsRead]; rw [hl, hb]
  simp only [decodeCell, decodeOne_congr hb hl ht, h8]

/-! ### What the encoders write -/

/-- The lowest position without a code is the one reported (rule R183). -/
theorem requireCodes_first {code : Table (Option Bits)} {ps : List (Cell × Nat)} (hp : ps.Pairwise fun p q => p.2 < q.2)
    {p : Cell × Nat} (h : p ∈ ps) (hn : Table.at code p.1.sym = none)
    (hl : ∀ q ∈ ps, q.2 < p.2 → Table.at code q.1.sym ≠ none) :
    requireCodes code ps = .error ⟨.missingCode, p.2, p.1.sym.toNat⟩ := by
  have find : ∀ {l : List (Cell × Nat)}, (l.Pairwise fun p q => p.2 < q.2) → p ∈ l →
      (∀ q ∈ l, q.2 < p.2 → Table.at code q.1.sym ≠ none) → l.find? (fun p => (Table.at code p.1.sym).isNone) = some p := by
    intro l
    induction l with
    | nil => intro _ hx; simp at hx
    | cons y l ih =>
      intro hp hx hlt
      rcases List.mem_cons.1 hx with rfl | hx'
      · simp [hn]
      · have hp' := List.pairwise_cons.1 hp
        have hy := hlt y List.mem_cons_self (hp'.1 p hx')
        rw [List.find?_cons, show (Table.at code y.1.sym).isNone = false by simpa [Option.isSome_iff_ne_none] using hy]
        exact ih hp'.2 hx' fun z hz hz' => hlt z (List.mem_cons_of_mem _ hz) hz'
  simp only [requireCodes]
  rw [find hp h hl]

theorem requireCodes_error {code : Table (Option Bits)} {ps : List (Cell × Nat)} {r : Raise}
    (h : requireCodes code ps = .error r) : r.cause = .missingCode := by
  simp only [requireCodes] at h
  split at h
  · cases h; rfl
  · simp at h

theorem zipIdx_ascending {α : Type} (l : List α) (k : Nat) : (l.zipIdx k).Pairwise fun p q => p.2 < q.2 := by
  induction l generalizing k with
  | nil => simp
  | cons a l ih =>
    rw [List.zipIdx_cons, List.pairwise_cons]
    exact ⟨fun q hq => List.le_snd_of_mem_zipIdx hq, ih (k + 1)⟩

theorem forall_zipIdx {f : Frame} {P : Cell → Prop} (h : ∀ p ∈ f.zipIdx, P p.1) : ∀ c ∈ f, P c := by
  intro c hc
  obtain ⟨i, hi⟩ := List.mem_iff_getElem?.1 hc
  exact h (c, i) (List.mem_zipIdx_iff_getElem?.2 hi)


/-- The codes a frame needs: each is a code path of its symbol in the tree, and its length fits the length field. -/
def codesFrom (n : Node) (code : Table (Option Bits)) (f : Frame) : Prop :=
  ∀ c ∈ f, ∃ k, Table.at code c.sym = some k ∧ n.symbolAt k = some c.sym ∧ k.length ≤ 255

theorem codesFrom_genCodes {n : Node} (hn : n.size ≤ 511) {f : Frame}
    (h : ∀ c ∈ f, (Table.at (genCodes n) c.sym).isSome = true) : codesFrom n (genCodes n) f := by
  intro c hc
  obtain ⟨k, hk⟩ := Option.isSome_iff_exists.1 (h c hc)
  have := Node.depth_le_of_size hn
  have := genCodes_length hk
  exact ⟨k, hk, symbolAt_of_genCodes hk, by omega⟩

theorem cellBits_length {code : Table (Option Bits)} {c : Cell} {k : Bits} (hk : Table.at code c.sym = some k) :
    (cellBits code c).length = 32 + k.length := by
  simp [cellBits, hk]; omega

theorem isCellEncoding_cellBits {n : Node} {code : Table (Option Bits)} {c : Cell} {k : Bits}
    (hk : Table.at code c.sym = some k) (hs : n.symbolAt k = some c.sym) (hl : k.length ≤ 255) :
    isCellEncoding n c (cellBits code c) := ⟨k, hs, hl, by simp [cellBits, hk]⟩

theorem isFrameEncoding_flatMap {n : Node} {code : Table (Option Bits)} {f : Frame} (h : codesFrom n code f) :
    isFrameEncoding n f (f.flatMap (cellBits code)) := by
  induction f with
  | nil => rfl
  | cons c f ih =>
    obtain ⟨k, hk, hs, hl⟩ := h c List.mem_cons_self
    exact ⟨_, _, isCellEncoding_cellBits hk hs hl, ih fun c' h' => h c' (List.mem_cons_of_mem _ h'), rfl⟩

theorem isDeltaEncoding_flatMap {n : Node} {code : Table (Option Bits)} {ch : List (Cell × Nat)}
    (h : codesFrom n code (ch.map (·.1))) : isDeltaEncoding n ch (ch.flatMap (deltaBits code)) := by
  induction ch with
  | nil => rfl
  | cons p ch ih =>
    obtain ⟨k, hk, hs, hl⟩ := h p.1 (by simp)
    refine ⟨_, _, isCellEncoding_cellBits hk hs hl, ih fun c' h' => h c' ?_, by simp [deltaBits]⟩
    rw [List.map_cons]; exact List.mem_cons_of_mem _ h'

/-! ### Full frames -/

/-- A frame decodes exactly when the encodings of its cells lie in `BITS` from the cursor on (rules R100 and R190). -/
theorem decodeCells_eq_ok {s : State} (hb : s.blen.toNat = s.bits.length) {n : Node} (hn : heldTree s = some n) :
    ∀ {m j p e : Nat} {f : Frame}, decodeCells s m j p = .ok (f, e) ↔
      f.length = m ∧ ∃ b, isFrameEncoding n f b ∧ b <+: rest s p ∧ e = p + b.length := by
  intro m
  induction m with
  | zero =>
    intro j p e f
    simp only [decodeCells, Except.ok.injEq, Prod.mk.injEq]
    constructor
    · rintro ⟨rfl, rfl⟩; exact ⟨rfl, [], rfl, List.nil_prefix, rfl⟩
    · rintro ⟨hf, b, h1, -, rfl⟩
      obtain rfl := List.length_eq_zero_iff.1 hf
      obtain rfl : b = [] := h1
      exact ⟨rfl, rfl⟩
  | succ m ih =>
    intro j p e f
    simp only [decodeCells, bind_eq_ok]
    constructor
    · rintro ⟨⟨x, c1⟩, h1, ⟨xs, c2⟩, h2, h3⟩
      simp only [Except.ok.injEq, Prod.mk.injEq] at h3
      obtain ⟨rfl, rfl⟩ := h3
      obtain ⟨b1, e1, p1, rfl⟩ := (decodeCell_eq_ok hb hn).1 h1
      obtain ⟨hl, b2, e2, p2, rfl⟩ := ih.1 h2
      exact ⟨by simp [hl], b1 ++ b2, ⟨b1, b2, e1, e2, rfl⟩, rest_join p1 p2, by simp; omega⟩
    · rintro ⟨hf, b, h1, h2, rfl⟩
      cases f with
      | nil => simp at hf
      | cons x xs =>
        obtain ⟨b1, b2, e1, e2, rfl⟩ := h1
        obtain ⟨p1, p2⟩ := rest_split h2
        exact ⟨(x, p + b1.length), (decodeCell_eq_ok hb hn).2 ⟨b1, e1, p1, rfl⟩, (xs, p + b1.length + b2.length),
          ih.2 ⟨by simpa using hf, b2, e2, p2, rfl⟩, by simp; omega⟩

theorem decodeCells_length {s : State} : ∀ {m j p e : Nat} {f : Frame}, decodeCells s m j p = .ok (f, e) → f.length = m := by
  intro m
  induction m with
  | zero => intro j p e f h; simp only [decodeCells, Except.ok.injEq, Prod.mk.injEq] at h; simp [← h.1]
  | succ m ih =>
    intro j p e f h
    simp only [decodeCells, bind_eq_ok] at h
    obtain ⟨⟨x, c1⟩, h1, ⟨xs, c2⟩, h2, h3⟩ := h
    simp only [Except.ok.injEq, Prod.mk.injEq] at h3
    simp [← h3.1, ih h2]

theorem decodeCells_error {s : State} : ∀ {n j c : Nat} {r : Raise}, decodeCells s n j c = .error r →
    r.cause = .truncatedStream ∨ r.cause = .malformedTree := by
  intro n
  induction n with
  | zero => intro j c r h; simp [decodeCells] at h
  | succ n ih =>
    intro j c r h
    simp only [decodeCells, bind_eq_error] at h
    rcases h with h | ⟨_, -, h | ⟨_, -, h⟩⟩
    · exact decodeCell_error h
    · exact ih h
    · simp at h

/-- The first cell that does not decode gives the fault (rule R190). -/
theorem decodeCells_stop {s : State} {r : Raise} (d : Nat) : ∀ {m j p c : Nat} {f : Frame},
    decodeCells s m j p = .ok (f, c) → decodeCell s c (j + m) = .error r → decodeCells s (m + 1 + d) j p = .error r := by
  intro m
  induction m with
  | zero =>
    intro j p c f h1 h2
    simp only [decodeCells, Except.ok.injEq, Prod.mk.injEq] at h1
    obtain ⟨-, rfl⟩ := h1
    simp only [Nat.add_zero] at h2
    simp [Nat.add_comm 1 d, decodeCells, h2]
  | succ m ih =>
    intro j p c f h1 h2
    simp only [decodeCells, bind_eq_ok] at h1
    obtain ⟨⟨x, c1⟩, h3, ⟨xs, c2⟩, h4, h5⟩ := h1
    simp only [Except.ok.injEq, Prod.mk.injEq] at h5
    obtain ⟨-, rfl⟩ := h5
    have := ih h4 (by rwa [show j + 1 + m = j + (m + 1) by omega])
    rw [show m + 1 + 1 + d = (m + 1 + d) + 1 by omega]
    simp [decodeCells, h3, this]

theorem decodeCells_congr {s s' : State} (hc : ∀ c j, decodeCell s' c j = decodeCell s c j) :
    ∀ n j c, decodeCells s' n j c = decodeCells s n j c := by
  intro n
  induction n with
  | zero => intro j c; rfl
  | succ n ih => intro j c; simp only [decodeCells, hc, ih]

theorem decodeCells_bound {s : State} : ∀ {m j p e : Nat} {f : Frame}, decodeCells s m j p = .ok (f, e) →
    p + 33 * m ≤ e ∧ (e ≤ s.blen.toNat ∨ m = 0) := by
  intro m
  induction m with
  | zero => intro j p e f h; simp only [decodeCells, Except.ok.injEq, Prod.mk.injEq] at h; omega
  | succ m ih =>
    intro j p e f h
    simp only [decodeCells, bind_eq_ok] at h
    obtain ⟨⟨x, c1⟩, h1, ⟨xs, c2⟩, h2, h3⟩ := h
    simp only [Except.ok.injEq, Prod.mk.injEq] at h3
    have := decodeCell_bounds h1
    have := ih h2
    dsimp only at this
    obtain ⟨-, rfl⟩ := h3
    rcases Nat.eq_zero_or_pos m with rfl | hm
    · simp only [decodeCells, Except.ok.injEq, Prod.mk.injEq] at h2; omega
    · omega

/-! ### Delta frames -/

/-- An index decodes exactly when its 32 bits lie in `BITS`. -/
theorem bitsRead32_of_prefix {s : State} (hb : s.blen.toNat = s.bits.length) {p i : Nat} (hi : i < 2 ^ 32)
    (h : bits32 i <+: rest s p) : p + 32 ≤ s.blen.toNat ∧ val (bitsRead s p 32) = i := by
  have h1 := rest_prefix_bound (by intro e; simpa using congrArg List.length e) h
  have h2 := bitsRead_of_prefix h
  rw [bits32_length] at h1 h2
  exact ⟨by omega, by rw [h2, val_bits32 hi]⟩

/-- The updates a delta encoding describes are applied, and decoding goes on after them (rule R200). -/
theorem decodeUpdates_of_prefix {s : State} (hb : s.blen.toNat = s.bits.length) {n : Node} (hn : heldTree s = some n)
    (ch : List (Cell × Nat)) : ∀ {p j m : Nat} {w : Frame} {b : Bits},
    isDeltaEncoding n ch b → (∀ q ∈ ch, q.2 < s.plen.toNat) → b <+: rest s p →
    decodeUpdates s (ch.length + m) j p w = decodeUpdates s m (j + ch.length) (p + b.length) (applyUpdates w ch) := by
  induction ch with
  | nil =>
    intro p j m w b h _ _
    obtain rfl : b = [] := h
    simp [applyUpdates]
  | cons q ch ih =>
    intro p j m w b h hi hp
    obtain ⟨b1, b2, e1, e2, rfl⟩ := h
    obtain ⟨h3, h4⟩ := rest_split hp
    obtain ⟨h5, h6⟩ := rest_split h4
    rw [bits32_length] at h5 h6
    have hq := hi q List.mem_cons_self
    obtain ⟨hb3, hv⟩ := bitsRead32_of_prefix hb (by have := s.plen.isLt; omega) h3
    have d := (decodeCell_eq_ok hb hn (j := j)).2 ⟨b1, e1, h5, rfl⟩
    have ihm := ih (j := j + 1) (m := m) (w := w.set q.2 q.1) e2 (fun q' h' => hi q' (List.mem_cons_of_mem _ h')) h6
    simp only [List.length_cons, show ch.length + 1 + m = (ch.length + m) + 1 by omega, decodeUpdates, requireBits, require,
      hb3, if_true, ok_bind', hv, hq, d]
    rw [ihm, List.length_append, List.length_append, bits32_length, show j + (ch.length + 1) = j + 1 + ch.length by omega,
      ← Nat.add_assoc, ← Nat.add_assoc]
    rfl

/-- A delta frame decodes exactly when a delta encoding with every index inside the frame lies in `BITS` (rules R101 and R200). -/
theorem decodeUpdates_eq_ok {s : State} (hb : s.blen.toNat = s.bits.length) {n : Node} (hn : heldTree s = some n) :
    ∀ {m j p e : Nat} {w f : Frame}, decodeUpdates s m j p w = .ok (f, e) ↔
      ∃ ch b, ch.length = m ∧ (∀ q ∈ ch, q.2 < s.plen.toNat) ∧ isDeltaEncoding n ch b ∧ b <+: rest s p ∧ e = p + b.length ∧
        f = applyUpdates w ch := by
  intro m j p e w f
  constructor
  · intro h
    induction m generalizing j p e w f with
    | zero =>
      simp only [decodeUpdates, Except.ok.injEq, Prod.mk.injEq] at h
      exact ⟨[], [], rfl, by simp, rfl, List.nil_prefix, h.2.symm, h.1.symm⟩
    | succ m ih =>
      simp only [decodeUpdates, bind_eq_ok, requireBits_eq_ok, require_eq_ok] at h
      obtain ⟨-, h1, -, h2, ⟨x, c1⟩, h3, h4⟩ := h
      obtain ⟨b1, e1, p1, rfl⟩ := (decodeCell_eq_ok hb hn).1 h3
      obtain ⟨ch, b2, hl, hi, e2, p2, rfl, rfl⟩ := ih h4
      rw [hb] at h1
      have hl32 := bitsRead_length h1
      have e32 := bitsN_val (bitsRead s p 32)
      rw [hl32] at e32
      refine ⟨(x, val (bitsRead s p 32)) :: ch, bits32 (val (bitsRead s p 32)) ++ (b1 ++ b2), by simp [hl], ?_,
        ⟨b1, b2, e1, e2, rfl⟩, ?_, by simp; omega, rfl⟩
      · intro q hq
        rcases List.mem_cons.1 hq with rfl | hq
        · exact h2
        · exact hi q hq
      · refine rest_join (by rw [bits32, e32]; exact List.take_prefix 32 _) (rest_join ?_ ?_)
        · rwa [bits32_length]
        · rwa [bits32_length]
  · rintro ⟨ch, b, rfl, hi, he, hp, rfl, rfl⟩
    have := decodeUpdates_of_prefix hb hn ch (j := j) (m := 0) (w := w) he hi hp
    simpa [decodeUpdates] using this

theorem decodeUpdates_length {s : State} : ∀ {m j p e : Nat} {w f : Frame}, decodeUpdates s m j p w = .ok (f, e) →
    f.length = w.length := by
  intro m
  induction m with
  | zero => intro j p e w f h; simp only [decodeUpdates, Except.ok.injEq, Prod.mk.injEq] at h; rw [h.1]
  | succ m ih =>
    intro j p e w f h
    simp only [decodeUpdates, bind_eq_ok] at h
    obtain ⟨-, -, -, -, ⟨x, c1⟩, h1, h2⟩ := h
    simpa using ih h2

theorem decodeUpdates_error {s : State} : ∀ {n j c : Nat} {w : Frame} {r : Raise}, decodeUpdates s n j c w = .error r →
    r.cause = .truncatedStream ∨ r.cause = .malformedTree ∨ r.cause = .indexOutOfRange := by
  intro n
  induction n with
  | zero => intro j c w r h; simp [decodeUpdates] at h
  | succ n ih =>
    intro j c w r h
    simp only [decodeUpdates, requireBits, bind_eq_error, require_eq_error] at h
    rcases h with ⟨-, rfl⟩ | ⟨_, -, ⟨-, rfl⟩ | ⟨_, -, h | ⟨_, -, h⟩⟩⟩
    · simp
    · simp
    · rcases decodeCell_error h with h | h <;> simp [h]
    · exact ih h

/-- The first update that does not decode gives the fault (rule R200). -/
theorem decodeUpdates_stop {s : State} {r : Raise} {w' : Frame} {j' c : Nat} (d : Nat)
    (hd : ∀ w, decodeUpdates s (1 + d) j' c w = .error r) : ∀ {m j p : Nat} {w : Frame},
    decodeUpdates s m j p w = .ok (w', c) → j + m = j' → decodeUpdates s (m + 1 + d) j p w = .error r := by
  intro m
  induction m with
  | zero =>
    intro j p w h1 h2
    simp only [decodeUpdates, Except.ok.injEq, Prod.mk.injEq] at h1
    obtain ⟨-, rfl⟩ := h1
    obtain rfl : j = j' := by omega
    simpa using hd w
  | succ m ih =>
    intro j p w h1 h2
    simp only [decodeUpdates, bind_eq_ok, requireBits_eq_ok, require_eq_ok] at h1
    obtain ⟨-, h3, -, h4, ⟨x, c1⟩, h5, h6⟩ := h1
    have := ih h6 (by omega)
    rw [show m + 1 + 1 + d = (m + 1 + d) + 1 by omega]
    simp [decodeUpdates, requireBits, require_true h3, require_true h4, h5, this]

theorem decodeUpdates_congr {s s' : State} (hb : s'.bits = s.bits) (hl : s'.blen = s.blen) (hp : s'.plen = s.plen)
    (hc : ∀ c j, decodeCell s' c j = decodeCell s c j) : ∀ n j c w, decodeUpdates s' n j c w = decodeUpdates s n j c w := by
  intro n
  induction n with
  | zero => intro j c w; rfl
  | succ n ih =>
    intro j c w
    have hbr : bitsRead s' = bitsRead s := by funext c n; simp [bitsRead, hb]
    simp only [decodeUpdates, hc, ih, requireBits, bitsAvail]; rw [hl, hp, hbr]

theorem decodeUpdates_bound {s : State} : ∀ {m j p e : Nat} {w f : Frame}, decodeUpdates s m j p w = .ok (f, e) →
    p + 65 * m ≤ e ∧ (e ≤ s.blen.toNat ∨ m = 0) := by
  intro m
  induction m with
  | zero => intro j p e w f h; simp only [decodeUpdates, Except.ok.injEq, Prod.mk.injEq] at h; omega
  | succ m ih =>
    intro j p e w f h
    simp only [decodeUpdates, bind_eq_ok] at h
    obtain ⟨-, -, -, -, ⟨x, c1⟩, h1, h2⟩ := h
    have := decodeCell_bounds h1
    have := ih h2
    dsimp only at this
    rcases Nat.eq_zero_or_pos m with rfl | hm
    · simp only [decodeUpdates, Except.ok.injEq, Prod.mk.injEq] at h2; omega
    · omega

/-- Overwriting the changed cells from position `k` on makes the working frame agree with the new one there (rule R205). -/
theorem applyUpdates_changed (prev : Frame) (f : Frame) : ∀ (k : Nat) (w : Frame), w.length = prev.length →
    (∀ i, k ≤ i → w[i]? = prev[i]?) → k + f.length ≤ prev.length →
    ∀ i, (applyUpdates w ((f.zipIdx k).filter fun p =>
      decide (prev.length ≤ p.2) || decide (prev[p.2]? ≠ some p.1)))[i]? =
      if k ≤ i ∧ i < k + f.length then f[i - k]? else w[i]? := by
  induction f with
  | nil => intro k w _ _ _ i; simp [applyUpdates]
  | cons c f ih =>
    intro k w hw hp hl i
    simp only [List.length_cons] at hl
    rw [List.zipIdx_cons, List.filter_cons]
    have hk : k < w.length := by omega
    split
    · next hc =>
      have := ih (k + 1) (w.set k c) (by simpa using hw)
        (fun i hi => by rw [List.getElem?_set_ne (by omega)]; exact hp i (by omega)) (by omega) i
      simp only [applyUpdates, List.foldl_cons] at this ⊢
      rw [this]
      simp only [List.length_cons]
      by_cases hi : i = k
      · subst hi; simp [hk]
      · rw [List.getElem?_set_ne (Ne.symm hi)]
        by_cases h2 : k + 1 ≤ i ∧ i < k + 1 + f.length
        · rw [if_pos h2, if_pos (by omega), show i - k = (i - (k + 1)) + 1 by omega]; simp
        · rw [if_neg h2, if_neg (by omega)]
    · next hc =>
      have hpk : prev[k]? = some c := by
        by_contra hne
        exact hc (by simp [hne])
      have := ih (k + 1) w hw (fun i hi => hp i (by omega)) (by omega) i
      rw [this]
      simp only [List.length_cons]
      by_cases hi : i = k
      · subst hi; rw [if_neg (by omega), if_pos (by omega), hp i (Nat.le_refl _), hpk]; simp
      · by_cases h2 : k + 1 ≤ i ∧ i < k + 1 + f.length
        · rw [if_pos h2, if_pos (by omega), show i - k = (i - (k + 1)) + 1 by omega]; simp
        · rw [if_neg h2, if_neg (by omega)]

/-- A frame no longer than its predecessor: decoding its delta gives the frame, followed by what the predecessor has beyond it (rule R205 (b) and (c)). -/
theorem applyUpdates_changedCells {prev f : Frame} (h : f.length ≤ prev.length) :
    applyUpdates prev (changedCells prev prev.length f) = f ++ prev.drop f.length := by
  apply List.ext_getElem?
  intro i
  have := applyUpdates_changed prev f 0 prev rfl (fun _ _ => rfl) (by omega) i
  rw [changedCells, this]
  simp only [Nat.zero_le, true_and, Nat.zero_add, Nat.sub_zero]
  split
  · next hi => rw [List.getElem?_append_left hi]
  · next hi => rw [List.getElem?_append_right (by omega), List.getElem?_drop]; congr 1; omega

theorem changedCells_ascending (prev f : Frame) (plen : Nat) : (changedCells prev plen f).Pairwise fun p q => p.2 < q.2 :=
  (zipIdx_ascending f 0).filter _

theorem changedCells_length (prev f : Frame) (plen : Nat) : (changedCells prev plen f).length ≤ f.length := by
  have := List.length_filter_le (fun p : Cell × Nat => decide (plen ≤ p.2) || decide (prev[p.2]? ≠ some p.1)) f.zipIdx
  simpa [changedCells] using this

/-- Nothing is changed against an equal frame. -/
theorem changedCells_self (f : Frame) : changedCells f f.length f = [] := by
  rw [changedCells, List.filter_eq_nil_iff]
  intro p hp
  have := List.mem_zipIdx_iff_getElem?.1 hp
  have := (List.getElem?_eq_some_iff.1 this).1
  simp_all

/-- Every cell past the end of the previous frame is changed, after the changes inside it (rule R196). -/
theorem changedCells_longer (prev f : Frame) : changedCells prev prev.length f =
    changedCells prev prev.length (f.take prev.length) ++ (f.drop prev.length).zipIdx (min f.length prev.length) := by
  have hz : f.zipIdx = (f.take prev.length).zipIdx ++ (f.drop prev.length).zipIdx (min f.length prev.length) := by
    conv_lhs => rw [← List.take_append_drop prev.length f]
    rw [List.zipIdx_append]; congr 2; simp [Nat.min_comm]
  rw [changedCells, hz, List.filter_append, ← changedCells]
  congr 1
  rw [List.filter_eq_self]
  intro p hp
  have := List.le_snd_of_mem_zipIdx hp
  by_cases h : prev.length ≤ f.length
  · simp; omega
  · have hd := List.drop_eq_nil_of_le (as := f) (i := prev.length) (by omega)
    simp [hd] at hp

/-- A changed cell is a cell of the frame at its position. -/
theorem mem_changedCells {prev f : Frame} {plen : Nat} {p : Cell × Nat} (h : p ∈ changedCells prev plen f) :
    f[p.2]? = some p.1 ∧ p ∈ f.zipIdx := by
  have h := List.mem_of_mem_filter h
  exact ⟨by simpa using List.mem_zipIdx_iff_getElem?.1 h, h⟩

/-! ### The decoded frame in its place -/

/-- A decoded frame takes its own words of `CURW` and no other (rules R42, R190 and R200). -/
theorem curWord_putFrame (s : State) (f : Frame) (n : Word) (c i : Nat) :
    curWord (s.putFrame f n c) i = if h : i < f.length then wordOfCell f[i] else curWord s i := by
  simp only [curWord, State.putFrame]
  split
  · next h =>
    have := Memory.find?_writeRun_same s.curw 0 (f.map wordOfCell) (i := i) (by simpa using h)
    rw [Nat.zero_add] at this
    simp [this]
  · next h => rw [Memory.find?_writeRun_other _ _ (by simp; omega)]

theorem cur_putFrame (s : State) {f : Frame} {n : Word} (c : Nat) (hn : n.toNat = f.length) :
    cur (s.putFrame f n c) = f := by
  apply List.ext_getElem
  · simp [cur, State.putFrame, hn]
  · intro i h1 h2
    simp only [cur, List.getElem_map, List.getElem_range, curWord_putFrame, h2, dif_pos, cellOfWord_wordOfCell]

@[simp] theorem cur_markPrev (s : State) : cur s.markPrev = cur s := rfl

@[simp] theorem curWord_markPrev (s : State) (i : Nat) : curWord s.markPrev i = curWord s i := rfl

end Sys2Proof.Machine
end

