-- ==== Sys2Proof/Laws/Invariant.lean ====
section
/-! SUPPORT. The machine's invariant: the shared updates keep it. -/

namespace Sys2Proof.Machine

variable {s : State}

/-- A well-formed part's reset state meets the invariant, whatever its parameters, epoch and host side. -/
theorem inv_resetWith {c : Config} (h : c.WellFormed) (e : Nat) (q : List HostAccess) (d : Word) :
    ({ State.reset with cfg := c, epoch := e, hostQueue := q, rdata := d } : State).Inv where
  cfg := h
  treeFlag := by simp [State.reset]
  codeFlag := by simp [State.reset]
  treeSize := by simp [State.reset]
  blenIsLength := rfl
  blenBound := Nat.zero_le _
  plenIsLength := rfl
  plenBound := Nat.zero_le _
  iposBound := Nat.zero_le _
  olenBound := Nat.zero_le _
  faultFlag := by simp [State.reset]
  errCode := by simp [State.reset, errCodes]
  prevFlag := fun _ => rfl
  inbForm := List.Pairwise.nil
  outbForm := List.Pairwise.nil
  curwForm := List.Pairwise.nil
  inbBound := by simp [State.reset]
  curwBound := by simp [State.reset]
  outbWritten := by simp [State.reset]

namespace State.Inv

theorem afterReset (h : s.Inv) : s.afterReset.Inv := inv_resetWith h.cfg _ _ _

theorem heldTree_eq (h : s.Inv) : heldTree s = s.tree := by
  simp only [heldTree]
  cases hv : s.treeV with
  | true => simp
  | false =>
    cases ht : s.tree with
    | none => simp
    | some n => exact absurd (h.treeFlag.2 (by simp [ht])) (by simp [hv])

theorem heldTree_size (h : s.Inv) {n : Node} (hn : heldTree s = some n) : n.size ≤ 511 :=
  h.treeSize n (h.heldTree_eq ▸ hn)

theorem heldTree_isSome (h : s.Inv) (hv : s.treeV = true) : ∃ n, heldTree s = some n := by
  rw [h.heldTree_eq]; exact Option.isSome_iff_exists.1 (h.treeFlag.1 hv)

theorem cause_code (c : Cause) (hc : c ≠ .invalidSource) : c.code ∈ errCodes := by
  cases c <;> simp_all [Cause.code, errCodes]

/-- Fault entry with any cause the block raises (rule R245: never InvalidSource). -/
theorem raise (h : s.Inv) {r : Raise} (hr : r.cause ≠ .invalidSource) : (s.raise r).Inv :=
  { h with
    faultFlag := by simpa using Cause.code_ne_zero r.cause
    errCode := cause_code _ hr }

/-- Room in the window leaves `OLEN` below `2^32`. -/
theorem room (h : s.Inv) {n : Nat} (hr : s.olen.toNat + n ≤ s.cfg.outCap) : s.olen.toNat + n < 2 ^ 32 := by
  have := h.cfg.outCap_le; omega

theorem setCnt (h : s.Inv) (w : Word) : ({ s with cnt := w } : State).Inv := { h with }

theorem setTree (h : s.Inv) {n : Node} (hn : n.size ≤ 511) : (s.setTree n).Inv :=
  { h with
    treeFlag := by simp
    codeFlag := by simp
    treeSize := by simpa using hn }

theorem setCode (h : s.Inv) {n : Node} (hn : heldTree s = some n) : (s.setCode (genCodes n)).Inv :=
  { h with
    codeFlag := fun _ => by
      have hn := h.heldTree_eq ▸ hn
      exact ⟨h.treeFlag.2 (by simp [hn]), n, hn, rfl⟩ }

theorem consume (h : s.Inv) {n : Nat} (hl : s.ilen.toNat ≤ s.cfg.inCap) (hn : 0 < n) (ha : n ≤ inAvail s) :
    (s.consume n).Inv :=
  { h with
    iposBound := by
      simp only [inAvail] at ha
      simp only [State.consume_ipos, State.consume_cfg, BitVec.toNat_ofNat]
      have := h.cfg.inCap_le
      omega }

theorem setBits (h : s.Inv) {b : Bits} (hb : b.length ≤ s.cfg.bitCap) : (s.setBits b).Inv :=
  have hlen : (BitVec.ofNat 32 b.length).toNat = b.length := by
    have := h.cfg.bitCap_le
    simp only [BitVec.toNat_ofNat]; omega
  { h with
    blenIsLength := hlen
    blenBound := by simp only [State.setBits_blen, hlen]; exact hb }

theorem setPrev (h : s.Inv) {f : Frame} {n : Word} (hv : s.prevV = true) (hn : n.toNat = f.length)
    (hc : n.toNat ≤ s.cfg.cellCap) : (s.setPrev f n).Inv :=
  { h with
    plenIsLength := hn
    plenBound := hc
    prevFlag := by simp [hv] }

theorem markPrev (h : s.Inv) : s.markPrev.Inv := { h with prevFlag := by simp }

theorem appended (h : s.Inv) {bs : List Byte} (hr : s.olen.toNat + bs.length ≤ s.cfg.outCap) :
    (appended s bs).Inv :=
  have ho : s.olen.toNat + bs.length < 2 ^ 32 := by have := h.cfg.outCap_le; omega
  { h with
    olenBound := by rw [appended_olen ho]; exact hr
    outbForm := Memory.wf_writeRun h.outbForm _ _
    outbWritten := by
      intro k
      rw [appended_olen ho]
      simp only [Machine.appended]
      by_cases h1 : k < s.olen.toNat
      · rw [Memory.find?_writeRun_other _ _ (.inl h1), h.outbWritten]; omega
      · by_cases h2 : k < s.olen.toNat + bs.length
        · have := Memory.find?_writeRun_same s.outb s.olen.toNat bs (i := k - s.olen.toNat) (by omega)
          rw [show s.olen.toNat + (k - s.olen.toNat) = k by omega] at this
          simp [this, h2]
        · rw [Memory.find?_writeRun_other _ _ (.inr (by omega)), h.outbWritten]; omega }

theorem putFrame (h : s.Inv) {f : Frame} {n : Word} {c : Nat} (hv : s.prevV = true) (hn : n.toNat = f.length)
    (hc : n.toNat ≤ s.cfg.cellCap) : (s.putFrame f n c).Inv :=
  { h with
    plenIsLength := hn
    plenBound := hc
    prevFlag := by simp [hv]
    curwForm := Memory.wf_writeRun h.curwForm _ _
    curwBound := Memory.forall_writeRun (P := (· < s.cfg.cellCap)) h.curwBound fun i hi => by
      rw [List.length_map] at hi; omega }

/-- The invariant after `WRCUR` (rule R107). -/
theorem wrcur (h : s.Inv) {f : Frame} (hf : f.length ≤ s.cfg.cellCap) (n : Word) :
    ({ s with curw := Memory.writeRun s.curw 0 (f.map wordOfCell), clen := n } : State).Inv :=
  { h with
    curwForm := Memory.wf_writeRun h.curwForm _ _
    curwBound := Memory.forall_writeRun (P := (· < s.cfg.cellCap)) h.curwBound fun i hi => by
      rw [List.length_map] at hi; omega }

/-- The invariant after `WRIN` (rule R107). -/
theorem wrin (h : s.Inv) {b : List Byte} (hb : b.length ≤ s.cfg.inCap) (n : Word) :
    ({ s with inb := Memory.writeRun s.inb 0 b, ilen := n } : State).Inv :=
  { h with
    inbForm := Memory.wf_writeRun h.inbForm _ _
    inbBound := Memory.forall_writeRun (P := (· < s.cfg.inCap)) h.inbBound fun i hi => by omega }

end State.Inv

/-- What the stream holds past `n` bytes it holds once `IPOS` has moved past them (rule R69). -/
theorem holds_consume {n : Nat} {b : List Byte}
    (h : holds s n b) (hn : 0 < n) (ha : n ≤ inAvail s) : holds (s.consume n) 0 b := by
  have := s.ilen.isLt
  simp only [inAvail] at ha
  have e : (s.consume n).ipos.toNat = s.ipos.toNat + n := by
    simp only [State.consume, BitVec.toNat_ofNat]; omega
  refine ⟨?_, ?_⟩
  · have := h.1; simp only [inAvail, State.consume_ilen, e] at this ⊢; omega
  · refine Eq.trans ?_ h.2
    apply List.map_congr_left
    intro i hi
    simp only [inByte, e, Nat.add_assoc, Nat.zero_add]
    rfl

/-- `WellFormed` is what the runnable test says. -/
theorem configWf_iff (c : Config) : c.wf = true ↔ c.WellFormed := by
  simp only [Config.wf, Bool.and_eq_true, decide_eq_true_eq]
  constructor
  · rintro ⟨⟨⟨⟨⟨⟨⟨⟨a, b⟩, c⟩, d⟩, e⟩, f⟩, g⟩, h⟩, i⟩; exact ⟨a, b, c, d, e, f, g, h, i⟩
  · rintro ⟨a, b, c, d, e, f, g, h, i⟩; exact ⟨⟨⟨⟨⟨⟨⟨⟨a, b⟩, c⟩, d⟩, e⟩, f⟩, g⟩, h⟩, i⟩

end Sys2Proof.Machine
end

