-- ==== Sys2Proof/Laws/Exec.lean ====
section
/-! SUPPORT. What `exec` can do, said once for all commands. -/

namespace Sys2Proof.Machine

/-- The effect of each command but RESET, as its meaning hands it to `runCommand`. -/
def effectOf : Instr → State → Except Raise State
  | .nop, s => .ok s
  | .reset, s => .ok s
  | .freqClr, s => freqClrEffect s
  | .freqAcc, s => freqAccEffect s
  | .buildTree, s => buildTreeEffect s
  | .genCodes, s => genCodesEffect s
  | .decodeOne, s => decodeOneEffect s
  | .treeWr, s => treeWrEffect s
  | .treeRd, s => treeRdEffect s
  | .pack, s => packEffect s
  | .unpack, s => unpackEffect s
  | .encFull, s => encFullEffect s
  | .decFull, s => decFullEffect s
  | .encDelta, s => encDeltaEffect s
  | .decDelta, s => decDeltaEffect s
  | .put32, s => put32Effect s
  | .get32, s => get32Effect s

/-- Every command but RESET is its effect run as one command (rule R15). -/
theorem exec_effect {i : Instr} (hi : i ≠ .reset) (s : State) : exec i s = runCommand s (effectOf i s) := by
  cases i <;> first | rfl | exact absurd rfl hi

/-- While `FAULT = 1` every command but RESET is ignored (rule R251). -/
theorem exec_ignored {i : Instr} (hi : i ≠ .reset) {s : State} (h : s.fault = true) : exec i s = .next s := by
  rw [exec_effect hi, runCommand_ignored h]

/-- A command that succeeds leaves `FAULT` as it was. -/
theorem effectOf_fault {i : Instr} {s t : State} (h : effectOf i s = .ok t) : t.fault = s.fault := by
  cases i
  case nop | reset => simp [effectOf] at h; rw [h]
  case freqClr => rw [freqClrEffect_eq_ok.1 h]
  case freqAcc => rw [(freqAccEffect_eq_ok.1 h).2.2]
  case buildTree => obtain ⟨n, -, rfl⟩ := buildTreeEffect_eq_ok.1 h; rfl
  case genCodes => obtain ⟨n, -, rfl⟩ := genCodesEffect_eq_ok.1 h; rfl
  case decodeOne => obtain ⟨_, _, -, rfl⟩ := decodeOneEffect_eq_ok.1 h; rfl
  case treeWr => obtain ⟨n, -, -, rfl⟩ := treeWrEffect_eq_ok.1 h; rfl
  case treeRd => obtain ⟨-, n, -, -, rfl⟩ := treeRdEffect_eq_ok.1 h; rfl
  case pack => obtain ⟨-, rfl⟩ := packEffect_eq_ok.1 h; rfl
  case unpack => obtain ⟨-, -, -, -, rfl⟩ := unpackEffect_eq_ok.1 h; rfl
  case encFull => obtain ⟨-, -, -, -, -, rfl⟩ := encFullEffect_eq_ok.1 h; rfl
  case decFull => obtain ⟨-, -, _, _, -, rfl⟩ := decFullEffect_eq_ok.1 h; rfl
  case encDelta => obtain ⟨-, -, -, -, -, rfl⟩ := encDeltaEffect_eq_ok.1 h; rfl
  case decDelta => obtain ⟨-, -, _, _, -, rfl⟩ := decDeltaEffect_eq_ok.1 h; rfl
  case put32 => obtain ⟨-, -, rfl⟩ := put32Effect_eq_ok.1 h; rfl
  case get32 => obtain ⟨-, -, -, rfl⟩ := get32Effect_eq_ok.1 h; rfl

/-- All a command but RESET can do: be ignored, take its effect, or enter one fault. -/
theorem exec_inv {i : Instr} (hi : i ≠ .reset) {s t : State} (h : exec i s = .next t) :
    (s.fault = true ∧ t = s) ∨ (s.fault = false ∧ t.fault = false ∧ effectOf i s = .ok t) ∨
    (s.fault = false ∧ ∃ r, effectOf i s = .error r ∧ t = s.raise r) := by
  rw [exec_effect hi] at h
  rcases runCommand_cases h with h | ⟨h1, h2⟩ | h
  · exact .inl h
  · exact .inr (.inl ⟨h1, (effectOf_fault h2).trans h1, h2⟩)
  · exact .inr (.inr h)

/-- A command whose effect succeeds completes. -/
theorem exec_ok {i : Instr} (hi : i ≠ .reset) {s t : State} (hf : s.fault = false) (h : effectOf i s = .ok t) :
    exec i s = .next t := by rw [exec_effect hi, h, runCommand_ok hf]

/-- A command whose effect raises enters that fault. -/
theorem exec_error {i : Instr} (hi : i ≠ .reset) {s : State} {r : Raise} (hf : s.fault = false) (h : effectOf i s = .error r) :
    exec i s = .next (s.raise r) := by rw [exec_effect hi, h, runCommand_error hf]

/-- No command raises InvalidSource (rule R245), and IllegalCommand is the dispatcher's alone (rule R249). -/
theorem effectOf_error {i : Instr} {s : State} {r : Raise} (h : effectOf i s = .error r) :
    r.cause ≠ .invalidSource ∧ r.cause ≠ .illegalCommand := by
  cases i
  case nop | reset => simp [effectOf] at h
  case freqClr => simp [effectOf, freqClrEffect] at h
  case freqAcc =>
    simp only [effectOf, freqAccEffect, requireFrame, bind_eq_error, require_eq_error, accumulate] at h
    rcases h with ⟨-, rfl⟩ | ⟨_, -, h | ⟨_, -, h⟩⟩
    · simp
    · split at h
      · cases h; simp
      · simp at h
    · simp at h
  case buildTree => simp only [effectOf, buildTreeEffect] at h; split at h <;> cases h; simp
  case genCodes => simp only [effectOf, genCodesEffect] at h; split at h <;> cases h; simp
  case decodeOne =>
    simp only [effectOf, decodeOneEffect, bind_eq_error] at h
    rcases h with h | ⟨_, -, h⟩
    · simp [decodeOne_error h]
    · simp at h
  case treeWr =>
    simp only [effectOf, treeWrEffect] at h
    split at h
    · cases h; simp
    · simp [outAppend_error h]
  case treeRd =>
    simp only [effectOf, treeRdEffect, requireInput, bind_eq_error, require_eq_error] at h
    rcases h with ⟨-, rfl⟩ | ⟨_, -, h | ⟨_, -, h⟩⟩
    · simp
    · rcases parseNode_error h with h | h | h <;> simp [h]
    · simp at h
  case pack => simp [outAppend_error h]
  case unpack =>
    simp only [effectOf, unpackEffect, requireInput, requireBytes, requireBitCap, bind_eq_error, require_eq_error] at h
    rcases h with ⟨-, rfl⟩ | ⟨_, -, ⟨-, rfl⟩ | ⟨_, -, ⟨-, rfl⟩ | ⟨_, -, ⟨-, rfl⟩ | ⟨_, -, ⟨-, rfl⟩ | ⟨_, -, h⟩⟩⟩⟩⟩ <;> simp at *
  case encFull =>
    simp only [effectOf, encFullEffect, requireFrame, requireBitCap, bind_eq_error, require_eq_error] at h
    rcases h with ⟨-, rfl⟩ | ⟨_, -, ⟨-, rfl⟩ | ⟨_, -, h | ⟨_, -, ⟨-, rfl⟩ | ⟨_, -, h | ⟨_, -, h⟩⟩⟩⟩⟩
    · simp
    · simp
    · simp [requireCodes_error h]
    · simp
    · simp [outAppend_error h]
    · simp at h
  case decFull =>
    simp only [effectOf, decFullEffect, requireCount, bind_eq_error, require_eq_error] at h
    rcases h with ⟨-, rfl⟩ | ⟨_, -, ⟨-, rfl⟩ | ⟨_, -, h | ⟨_, -, h⟩⟩⟩
    · simp
    · simp
    · rcases decodeCells_error h with h | h <;> simp [h]
    · simp at h
  case encDelta =>
    simp only [effectOf, encDeltaEffect, requireFrame, requireBitCap, bind_eq_error, require_eq_error] at h
    rcases h with ⟨-, rfl⟩ | ⟨_, -, ⟨-, rfl⟩ | ⟨_, -, h | ⟨_, -, ⟨-, rfl⟩ | ⟨_, -, h | ⟨_, -, h⟩⟩⟩⟩⟩
    · simp
    · simp
    · simp [requireCodes_error h]
    · simp
    · simp [outAppend_error h]
    · simp at h
  case decDelta =>
    simp only [effectOf, decDeltaEffect, requireCount, bind_eq_error, require_eq_error] at h
    rcases h with ⟨-, rfl⟩ | ⟨_, -, ⟨-, rfl⟩ | ⟨_, -, h | ⟨_, -, h⟩⟩⟩
    · simp
    · simp
    · rcases decodeUpdates_error h with h | h | h <;> simp [h]
    · simp at h
  case put32 =>
    simp only [effectOf, put32Effect, bind_eq_error, require_eq_error] at h
    rcases h with ⟨-, rfl⟩ | ⟨_, -, h⟩
    · simp
    · simp [outAppend_error h]
  case get32 =>
    simp only [effectOf, get32Effect, requireInput, requireBytes, bind_eq_error, require_eq_error] at h
    rcases h with ⟨-, rfl⟩ | ⟨_, -, ⟨-, rfl⟩ | ⟨_, -, ⟨-, rfl⟩ | ⟨_, -, h⟩⟩⟩ <;> simp at *

/-- What a command that succeeds leaves meets the invariant (rule R49). -/
theorem effectOf_inv {i : Instr} {s t : State} (h : s.Inv) (he : effectOf i s = .ok t) : t.Inv := by
  cases i
  case nop | reset => simp [effectOf] at he; subst he; exact h
  case freqClr => rw [freqClrEffect_eq_ok.1 he]; exact { h with }
  case freqAcc => rw [(freqAccEffect_eq_ok.1 he).2.2]; exact { h with }
  case buildTree =>
    obtain ⟨n, hn, rfl⟩ := buildTreeEffect_eq_ok.1 he
    have hne : countedSymbols s.freq ≠ [] := fun e => by simp [buildDet_none e] at hn
    obtain ⟨n', h1, h2⟩ := buildDet_huffman hne
    obtain rfl : n = n' := by simpa [hn] using h1
    exact h.setTree h2.size_le
  case genCodes => obtain ⟨n, hn, rfl⟩ := genCodesEffect_eq_ok.1 he; exact h.setCode hn
  case decodeOne => obtain ⟨_, _, -, rfl⟩ := decodeOneEffect_eq_ok.1 he; exact { h with }
  case treeWr => obtain ⟨n, -, hr, rfl⟩ := treeWrEffect_eq_ok.1 he; exact h.appended hr
  case treeRd =>
    obtain ⟨hl, n, hn, hh, rfl⟩ := treeRdEffect_eq_ok.1 he
    exact (h.setTree hn).consume hl (ser_pos n) (by simpa [inAvail] using hh.1)
  case pack => obtain ⟨hr, rfl⟩ := packEffect_eq_ok.1 he; exact h.appended (by simpa using hr)
  case unpack =>
    obtain ⟨hl, -, hb, ha, rfl⟩ := unpackEffect_eq_ok.1 he
    exact (h.setBits (by simpa using hb)).consume hl (by omega) ha
  case encFull =>
    obtain ⟨hv, hc, -, hb, ho, rfl⟩ := encFullEffect_eq_ok.1 he
    have h1 := (h.appended (bs := le32 s.clen.toNat) ho).setBits (b := (cur s).flatMap (cellBits s.code)) hb
    exact (h1.setCnt s.clen).markPrev.setPrev (f := cur s) (n := s.clen) rfl (by simp [cur]) hc
  case decFull =>
    obtain ⟨-, hc, f, c, hd, rfl⟩ := decFullEffect_eq_ok.1 he
    exact h.markPrev.putFrame (f := f) (n := s.cnt) (c := c) rfl (decodeCells_length hd).symm hc
  case encDelta =>
    obtain ⟨⟨hv, hp⟩, hc, -, hb, ho, rfl⟩ := encDeltaEffect_eq_ok.1 he
    have h1 := (h.appended (bs := le32 (changedCells s.prev s.plen.toNat (cur s)).length) ho).setBits hb
    exact (h1.setCnt _).setPrev (f := cur s) (n := s.clen) hp (by simp [cur]) hc
  case decDelta =>
    obtain ⟨hp, -, f, c, hd, rfl⟩ := decDeltaEffect_eq_ok.1 he
    exact h.putFrame hp (by rw [decodeUpdates_length hd, h.plenIsLength]) h.plenBound
  case put32 => obtain ⟨-, ho, rfl⟩ := put32Effect_eq_ok.1 he; exact h.appended ho
  case get32 =>
    obtain ⟨hl, ha, -, rfl⟩ := get32Effect_eq_ok.1 he
    exact (h.setCnt _).consume hl (by omega) ha

end Sys2Proof.Machine
end

