-- ==== Sys2Proof/Laws/HostPort.lean ====
section
/-! SUPPORT. What a host access can do: where each defined address lands, and what a register access is. -/

namespace Sys2Proof.Machine

/-! ### The map -/

theorem placeOf_register {c : Config} {o : Nat} (h : o < 0x100) (ha : o % 4 = 0) : placeOf c o 4 = .ok (.register o) := by
  rw [placeOf, if_pos h, if_pos ⟨rfl, ha⟩]

theorem placeOf_inb {c : Config} (hc : c.WellFormed) {k : Nat} (h : k < c.inCap) :
    placeOf c (c.inBase + k) 1 = .ok (.inb k) := by
  have := hc.aboveRegisters
  rw [placeOf, if_neg (by omega), if_pos (by omega), if_pos rfl, Nat.add_sub_cancel_left]

theorem placeOf_outb {c : Config} (hc : c.WellFormed) {k : Nat} (h : k < c.outCap) :
    placeOf c (c.outBase + k) 1 = .ok (.outb k) := by
  have := hc.aboveRegisters; have := hc.inOut
  rw [placeOf, if_neg (by omega), if_neg (by omega), if_pos (by omega), if_pos rfl, Nat.add_sub_cancel_left]

theorem placeOf_curw {c : Config} (hc : c.WellFormed) {i : Nat} (h : i < c.cellCap) :
    placeOf c (c.curBase + 4 * i) 4 = .ok (.curw i) := by
  have := hc.aboveRegisters; have := hc.inCur; have := hc.outCur
  rw [placeOf, if_neg (by omega), if_neg (by omega), if_neg (by omega), if_pos (by omega), if_pos (by omega),
    Nat.add_sub_cancel_left]
  simp

theorem placeOf_inb_bound {c : Config} {addr width k : Nat} (h : placeOf c addr width = .ok (.inb k)) : k < c.inCap := by
  simp only [placeOf] at h
  repeat' split at h
  all_goals simp at h
  omega

theorem placeOf_curw_bound {c : Config} {addr width i : Nat} (h : placeOf c addr width = .ok (.curw i)) :
    i < c.cellCap := by
  simp only [placeOf] at h
  repeat' split at h
  all_goals simp at h
  omega

/-- No register stands at or above 0x38 (rule R47). -/
theorem regAt_reserved {o : Nat} (h : 0x38 ≤ o) : regAt o = none := by
  simp only [regAt, allRegs, List.find?_eq_none]
  intro r hr
  have : r.offset < 0x38 := by revert hr; revert r; decide
  simp; omega

/-- Each register stands at its own offset (rule R47). -/
theorem regAt_offset (r : Reg) : regAt r.offset = some r := by cases r <;> rfl

theorem Reg.offset_lt (r : Reg) : r.offset < 0x100 ∧ r.offset % 4 = 0 := by cases r <;> decide

/-- The bits of `STATUS` (rule R22). -/
theorem status_bits (s : State) : (status s).getLsbD 0 = s.treeV ∧ (status s).getLsbD 1 = s.codeV ∧
    (status s).getLsbD 2 = s.prevV ∧ (status s).getLsbD 3 = s.fault ∧ (status s).toNat < 16 := by
  simp only [status]
  cases s.treeV <;> cases s.codeV <;> cases s.prevV <;> cases s.fault <;> decide

/-! ### Accesses -/

theorem hostAccess_readReg (r : Reg) (s : State) :
    hostAccess (.read r.offset 4) s = .next { s with rdata := readReg s r } := by
  simp only [hostAccess, placeOf_register r.offset_lt.1 r.offset_lt.2, readPlace, regAt_offset]

theorem hostAccess_writeReg (r : Reg) (v : Word) (s : State) :
    hostAccess (.write r.offset 4 v) s = writeReg r v s := by
  simp only [hostAccess, placeOf_register r.offset_lt.1 r.offset_lt.2, writePlace, regAt_offset]

/-- The word of a command, written to `CMD`, runs it (rule R91). -/
theorem hostAccess_cmd (i : Instr) (s : State) : hostAccess (cmdWrite (encode i)) s = exec i s := by
  have := hostAccess_writeReg .cmd (encode i) s
  rw [writeReg, writeCmd, decode_encode] at this
  exact this

/-- An access lands somewhere exactly when the spec defines it (rules R34 and R62). -/
theorem placeOf_defined {c : Config} {addr width : Nat} (hc : c.WellFormed) :
    (∃ p, placeOf c addr width = .ok p) ↔ HostAccess.defined c (.read addr width) := by
  constructor
  · rintro ⟨p, h⟩
    simp only [HostAccess.defined]
    simp only [placeOf] at h
    split at h
    · split at h
      · next h1 h2 => exact .inl ⟨h1, h2⟩
      · simp at h
    · split at h
      · split at h
        · next h1 h2 => exact .inr (.inl ⟨addr - c.inBase, by omega, by omega, h2⟩)
        · simp at h
      · split at h
        · split at h
          · next h1 h2 => exact .inr (.inr (.inl ⟨addr - c.outBase, by omega, by omega, h2⟩))
          · simp at h
        · split at h
          · split at h
            · next h1 h2 => exact .inr (.inr (.inr ⟨(addr - c.curBase) / 4, by omega, by omega, h2.1⟩))
            · simp at h
          · simp at h
  · rintro (⟨h1, rfl, h3⟩ | ⟨k, h1, rfl, rfl⟩ | ⟨k, h1, rfl, rfl⟩ | ⟨k, h1, rfl, rfl⟩)
    · exact ⟨_, placeOf_register h1 h3⟩
    · exact ⟨_, placeOf_inb hc h1⟩
    · exact ⟨_, placeOf_outb hc h1⟩
    · exact ⟨_, placeOf_curw hc h1⟩

end Sys2Proof.Machine
end

