-- ==== Sys2Proof/Laws/HostSequences.lean ====
section
/-! SUPPORT. What the lines of the host's sequences do: the rules a proof about COMPRESS or DECOMPRESS is built from. -/

namespace Sys2Proof.Machine

/-! ### One command and its STATUS check -/

theorem hostDo_eq {a : HostAccess} {s t : State} (h : hostAccess a s = .next t) : hostDo a s = .ok t := by
  simp [hostDo, h]

/-- After a command the host goes on, or has failed with the kind the command raised (rules R215 and R216). -/
theorem runLines_cmd {i : Instr} {s t : State} (ls : List HostLine) (h : exec i s = .next t) :
    runLines (.cmd i :: ls) s =
      if t.fault then .error (.failed t.err) else runLines ls { t with rdata := status t } := by
  have h1 : runLine (.cmd i) s = .ok ([], t) := by
    have := hostDo_eq ((hostAccess_cmd i s).trans h)
    simp only [cmdWrite] at this
    simp [runLine, HostLine.accesses, cmdWrite, runAccesses, this]
  have h2 : checkStatus t = if t.fault then .error (.failed t.err) else .ok { t with rdata := status t } := by
    have a := hostDo_eq (hostAccess_readReg .status t)
    have b := hostDo_eq (hostAccess_readReg .err { t with rdata := status t })
    simp only [readReg] at a b
    simp only [checkStatus, runAccesses, readOf, a, ok_bind', (status_bits t).2.2.2.1]
    split
    · simp only [b, ok_bind']
      congr 2
      apply BitVec.eq_of_toNat_eq
      simp
    · rfl
  rw [runLines]
  simp only [h1, ok_bind', h2]
  split <;> rfl

/-- A command whose effect succeeds: the host reads `STATUS` and goes on. -/
theorem runLines_cmd_ok {i : Instr} {s t : State} (ls : List HostLine) (hi : i ≠ .reset) (hf : s.fault = false)
    (h : effectOf i s = .ok t) : runLines (.cmd i :: ls) s = runLines ls { t with rdata := status t } := by
  rw [runLines_cmd ls (exec_ok hi hf h), if_neg (by simp [effectOf_fault h, hf])]

/-- A command whose effect raises: the call has failed with that kind. -/
theorem runLines_cmd_error {i : Instr} {s : State} {r : Raise} (ls : List HostLine) (hi : i ≠ .reset) (hf : s.fault = false)
    (h : effectOf i s = .error r) : runLines (.cmd i :: ls) s = .error (.failed r.cause.code) := by
  rw [runLines_cmd ls (exec_error hi hf h)]
  simp

theorem runLines_append (l1 l2 : List HostLine) (s : State) :
    runLines (l1 ++ l2) s = (runLines l1 s >>= runLines l2) := by
  induction l1 generalizing s with
  | nil => rfl
  | cons l l1 ih =>
    cases l <;> simp only [List.cons_append, runLines, ih, bind, Except.bind]
    · split
      · rfl
      · split <;> simp_all
    all_goals split <;> rfl

/-! ### Register and window lines -/

/-- `WR reg, value` (rule R107). -/
theorem runLine_wr_cnt (v : Word) (s : State) : runLine (.wr .cnt v) s = .ok ([], { s with cnt := v }) := by
  have := hostDo_eq (s := s) (t := { s with cnt := v }) (hostAccess_writeReg .cnt v s)
  simp [runLine, HostLine.accesses, writeOf, runAccesses, this]

/-- `RD reg` (rule R107). -/
theorem runLine_rd (r : Reg) (s : State) :
    runLine (.rd r) s = .ok ([readReg s r], { s with rdata := readReg s r }) := by
  have := hostDo_eq (hostAccess_readReg r s)
  simp [runLine, HostLine.accesses, readOf, runAccesses, this]

/-- `WRCUR` puts the frame's words into the window from word 0 on and its size into `CLEN` (rule R107). -/
theorem runLine_wrcur {f : Frame} {s : State} (hc : s.cfg.WellFormed) (hf : f.length ≤ s.cfg.cellCap) :
    runLine (.wrcur f) s = .ok ([], { s with
      curw := Memory.writeRun s.curw 0 (f.map wordOfCell), clen := BitVec.ofNat 32 f.length }) := by
  have key : ∀ (f : Frame) (k : Nat) (s : State) (bs : List HostAccess), s.cfg.WellFormed → k + f.length ≤ s.cfg.cellCap →
      runAccesses ((f.zipIdx k).map (fun p => HostAccess.write (s.cfg.curBase + 4 * p.2) 4 (wordOfCell p.1)) ++ bs) s =
      runAccesses bs { s with curw := Memory.writeRun s.curw k (f.map wordOfCell) } := by
    intro f
    induction f with
    | nil => intro k s bs _ _; rfl
    | cons c f ih =>
      intro k s bs hc hk
      simp only [List.length_cons] at hk
      have h1 : hostDo (.write (s.cfg.curBase + 4 * k) 4 (wordOfCell c)) s =
          .ok { s with curw := Memory.write s.curw k (wordOfCell c) } :=
        hostDo_eq (by simp only [hostAccess, placeOf_curw hc (show k < s.cfg.cellCap by omega), writePlace])
      simp only [List.zipIdx_cons, List.map_cons, List.cons_append, runAccesses, h1, ok_bind']
      exact ih (k + 1) { s with curw := Memory.write s.curw k (wordOfCell c) } bs hc (by show k + 1 + f.length ≤ s.cfg.cellCap; omega)
  have h2 := hostAccess_writeReg .clen (BitVec.ofNat 32 f.length) { s with curw := Memory.writeRun s.curw 0 (f.map wordOfCell) }
  rw [runLine, HostLine.accesses, key f 0 s _ hc (by omega)]
  simp only [runAccesses, writeOf, hostDo_eq (h2.trans (by rw [writeReg])), ok_bind']

/-- After `WRCUR` the current frame is the one written (rule R42). -/
theorem cur_wrcur (s : State) {f : Frame} (h : f.length < 2 ^ 32) :
    cur { s with curw := Memory.writeRun s.curw 0 (f.map wordOfCell), clen := BitVec.ofNat 32 f.length } = f := by
  have hn : (BitVec.ofNat 32 f.length).toNat = f.length := by simp only [BitVec.toNat_ofNat]; omega
  exact cur_putFrame { s with prev := s.prev } 0 hn

/-- `WRIN` puts the bytes into the window from byte 0 on and their number into `ILEN` (rule R107). -/
theorem runLine_wrin {b : List Byte} {s : State} (hc : s.cfg.WellFormed) (hb : b.length ≤ s.cfg.inCap) :
    runLine (.wrin b) s = .ok ([], { s with
      inb := Memory.writeRun s.inb 0 b, ilen := BitVec.ofNat 32 b.length }) := by
  have key : ∀ (f : List Byte) (k : Nat) (s : State) (bs : List HostAccess), s.cfg.WellFormed → k + f.length ≤ s.cfg.inCap →
      runAccesses ((f.zipIdx k).map (fun p => HostAccess.write (s.cfg.inBase + p.2) 1 (p.1.setWidth 32)) ++ bs) s =
      runAccesses bs { s with inb := Memory.writeRun s.inb k f } := by
    intro f
    induction f with
    | nil => intro k s bs _ _; rfl
    | cons c f ih =>
      intro k s bs hc hk
      simp only [List.length_cons] at hk
      have hw : (c.setWidth 32).setWidth 8 = c := by apply BitVec.eq_of_toNat_eq; simp
      have h1 : hostDo (.write (s.cfg.inBase + k) 1 (c.setWidth 32)) s = .ok { s with inb := Memory.write s.inb k c } :=
        hostDo_eq (by simp only [hostAccess, placeOf_inb hc (show k < s.cfg.inCap by omega), writePlace, hw])
      simp only [List.zipIdx_cons, List.map_cons, List.cons_append, runAccesses, h1, ok_bind']
      exact ih (k + 1) { s with inb := Memory.write s.inb k c } bs hc (by show k + 1 + f.length ≤ s.cfg.inCap; omega)
  have h2 := hostAccess_writeReg .ilen (BitVec.ofNat 32 b.length) { s with inb := Memory.writeRun s.inb 0 b }
  rw [runLine, HostLine.accesses, key b 0 s _ hc (by omega)]
  simp only [runAccesses, writeOf, hostDo_eq (h2.trans (by rw [writeReg])), ok_bind']

/-- After `WRIN` the stream holds the bytes written (rules R44 and R66). -/
theorem holds_wrin (s : State) {b : List Byte} (h : b.length < 2 ^ 32) (hp : s.ipos = 0) :
    holds { s with inb := Memory.writeRun s.inb 0 b, ilen := BitVec.ofNat 32 b.length } 0 b := by
  have hn : (BitVec.ofNat 32 b.length).toNat = b.length := by simp only [BitVec.toNat_ofNat]; omega
  refine ⟨by simp only [inAvail, hn, hp]; simp, ?_⟩
  apply List.ext_getElem (by simp)
  intro i h1 h2
  have := Memory.find?_writeRun_same s.inb 0 b h2
  rw [Nat.zero_add] at this
  simp [inBytes, inByte, inbByte, hp, this]

/-- `RDOUT` returns the output stream, after the word of `OLEN`, and changes only what was last read (rule R107). -/
theorem runLine_rdout {s : State} (hc : s.cfg.WellFormed) (ho : s.olen.toNat ≤ s.cfg.outCap) :
    ∃ d, runLine .rdout s = .ok (s.olen :: (out s).map (·.setWidth 32), { s with rdata := d }) := by
  have key : ∀ (l : List Nat) (d : Word), (∀ k ∈ l, k < s.cfg.outCap) →
      ∃ d', runAccesses (l.map fun k => .read (s.cfg.outBase + k) 1) { s with rdata := d } =
        .ok (l.map (fun k => (outbByte s k).setWidth 32), { s with rdata := d' }) := by
    intro l
    induction l with
    | nil => intro d _; exact ⟨d, rfl⟩
    | cons k l ih =>
      intro d hl
      obtain ⟨d', h'⟩ := ih ((outbByte s k).setWidth 32) fun k hk => hl k (List.mem_cons_of_mem _ hk)
      have h1 : hostDo (.read (s.cfg.outBase + k) 1) { s with rdata := d } =
          .ok { s with rdata := (outbByte s k).setWidth 32 } :=
        hostDo_eq (by simp only [hostAccess, placeOf_outb hc (hl k List.mem_cons_self), readPlace]; rfl)
      refine ⟨d', ?_⟩
      simp only [List.map_cons, runAccesses, h1, ok_bind', h']
  obtain ⟨d, h⟩ := key (List.range s.olen.toNat) s.olen fun k hk => by have := List.mem_range.1 hk; omega
  refine ⟨d, ?_⟩
  have h1 := hostDo_eq (hostAccess_readReg .olen s)
  simp only [readReg] at h1
  simp only [runLine, HostLine.accesses, readOf, runAccesses, h1, ok_bind', h, out, List.map_map]
  rfl

/-- `RDCUR` returns the words of the current frame, after the word of `CLEN` (rule R107). -/
theorem runLine_rdcur {s : State} (hc : s.cfg.WellFormed) (hl : s.clen.toNat ≤ s.cfg.cellCap) :
    ∃ d ws, runLine .rdcur s = .ok (ws, { s with rdata := d }) ∧ ws.tail.map cellOfWord = cur s := by
  have key : ∀ (l : List Nat) (d : Word), (∀ i ∈ l, i < s.cfg.cellCap) →
      ∃ d', runAccesses (l.map fun i => .read (s.cfg.curBase + 4 * i) 4) { s with rdata := d } =
        .ok (l.map (curWord s), { s with rdata := d' }) := by
    intro l
    induction l with
    | nil => intro d _; exact ⟨d, rfl⟩
    | cons i l ih =>
      intro d hl
      obtain ⟨d', h'⟩ := ih (curWord s i) fun i hi => hl i (List.mem_cons_of_mem _ hi)
      have h1 : hostDo (.read (s.cfg.curBase + 4 * i) 4) { s with rdata := d } = .ok { s with rdata := curWord s i } :=
        hostDo_eq (by simp only [hostAccess, placeOf_curw hc (hl i List.mem_cons_self), readPlace]; rfl)
      refine ⟨d', ?_⟩
      simp only [List.map_cons, runAccesses, h1, ok_bind', h']
  obtain ⟨d, h⟩ := key (List.range s.clen.toNat) s.clen fun i hi => by have := List.mem_range.1 hi; omega
  have h1 := hostDo_eq (hostAccess_readReg .clen s)
  simp only [readReg] at h1
  refine ⟨d, s.clen :: (List.range s.clen.toNat).map (curWord s), ?_, ?_⟩
  · simp only [runLine, HostLine.accesses, readOf, runAccesses, h1, ok_bind', h]
  · simp [cur]

end Sys2Proof.Machine
end

