-- ==== Sys2Proof/Laws/PerInstr.lean ====
section
/-! SUPPORT. Statements about every command as syntax, one lemma per constructor. -/

namespace Sys2Proof.Laws.CommandWord

/-- A command is well formed; its word has a zero reserved field and an opcode of the opcode map, and the decoder, the table's reader included, gives the command back (rules R90 to R94). -/
def Statement (i : Instr) : Prop :=
  i.wf = true ∧ fieldRsv (encode i) = 0 ∧ (fieldOpcode (encode i), i) ∈ opcodeMap ∧
    decode (encode i) = .ok i ∧ decodeTableWord 32 (encode i).toNat = some i

theorem nop : Statement .nop := by unfold Statement; decide
theorem reset : Statement .reset := by unfold Statement; decide
theorem freqClr : Statement .freqClr := by unfold Statement; decide
theorem freqAcc : Statement .freqAcc := by unfold Statement; decide
theorem buildTree : Statement .buildTree := by unfold Statement; decide
theorem genCodes : Statement .genCodes := by unfold Statement; decide
theorem decodeOne : Statement .decodeOne := by unfold Statement; decide
theorem treeWr : Statement .treeWr := by unfold Statement; decide
theorem treeRd : Statement .treeRd := by unfold Statement; decide
theorem pack : Statement .pack := by unfold Statement; decide
theorem unpack : Statement .unpack := by unfold Statement; decide
theorem encFull : Statement .encFull := by unfold Statement; decide
theorem decFull : Statement .decFull := by unfold Statement; decide
theorem encDelta : Statement .encDelta := by unfold Statement; decide
theorem decDelta : Statement .decDelta := by unfold Statement; decide
theorem put32 : Statement .put32 := by unfold Statement; decide
theorem get32 : Statement .get32 := by unfold Statement; decide

end Sys2Proof.Laws.CommandWord
end

