-- ==== Sys2Proof/Laws/TieRule.lean ====
section
/-! SUPPORT. The tree builder follows the tie rule of rule R128, and that rule leaves no choice. -/

namespace Sys2Proof.Machine

theorem Entry.before_iff {a b : Entry} :
    a.before b = true ↔ a.weight < b.weight ∨ (a.weight = b.weight ∧ a.seq < b.seq) := by
  simp [Entry.before]

theorem Entry.before_trans {a b c : Entry} (h1 : a.before b = true) (h2 : b.before c = true) : a.before c = true := by
  rw [Entry.before_iff] at *; omega

theorem Entry.before_asymm {a b : Entry} (h1 : a.before b = true) : ¬ b.before a = true := by
  rw [Entry.before_iff] at *; omega

theorem Entry.before_total {a b : Entry} (h : a.seq ≠ b.seq) (h1 : ¬ a.before b = true) : b.before a = true := by
  rw [Entry.before_iff] at *; omega

/-- Among entries with distinct sequence numbers, the one extracted is before every other. -/
theorem extractLeast_first {q : List Entry} {m : Entry} {rest : List Entry} (hd : (q.map Entry.seq).Nodup)
    (h : extractLeast q = some (m, rest)) : ∀ x ∈ rest, m.before x = true := by
  induction q generalizing m rest with
  | nil => simp [extractLeast] at h
  | cons e es ih =>
    rw [List.map_cons, List.nodup_cons] at hd
    simp only [extractLeast] at h
    split at h
    · next hn =>
      obtain ⟨rfl, rfl⟩ : e = m ∧ ([] : List Entry) = rest := by simpa using h
      simp
    · next m' rest' hs =>
      have hp := (extractLeast_some hs).1
      have hf := ih hd.2 hs
      split at h
      · next hb =>
        obtain ⟨rfl, rfl⟩ : e = m ∧ es = rest := by simpa using h
        intro x hx
        rcases List.mem_cons.1 (hp.subset hx) with rfl | hx
        · exact hb
        · exact Entry.before_trans hb (hf x hx)
      · next hb =>
        obtain ⟨rfl, rfl⟩ : m' = m ∧ e :: rest' = rest := by simpa using h
        intro x hx
        rcases List.mem_cons.1 hx with rfl | hx
        · refine Entry.before_total (fun he => hd.1 ?_) hb
          rw [he]
          exact List.mem_map_of_mem (hp.symm.subset List.mem_cons_self)
        · exact hf x hx

theorem mergeEntries_single (fuel seq : Nat) (e : Entry) : mergeEntries fuel seq [e] = [e] := by
  cases fuel <;> rfl

/-- Distinct sequence numbers stay distinct when two entries are merged into a new one. -/
theorem seqs_merged {seq : Nat} {a b : Entry} {m rest : List Entry} (hp : m.Perm (a :: b :: rest))
    (hd : (m.map Entry.seq).Nodup) (hl : ∀ x ∈ m, x.seq < seq) (w : Nat) (n : Node) :
    (((⟨w, seq, n⟩ : Entry) :: rest).map Entry.seq).Nodup ∧ ∀ x ∈ (⟨w, seq, n⟩ : Entry) :: rest, x.seq < seq + 1 := by
  have hd' := (hp.map Entry.seq).nodup_iff.1 hd
  simp only [List.map_cons, List.nodup_cons] at hd'
  have hr : ∀ x ∈ rest, x.seq < seq := fun x hx =>
    hl x (hp.symm.subset (List.mem_cons_of_mem _ (List.mem_cons_of_mem _ hx)))
  constructor
  · rw [List.map_cons, List.nodup_cons]
    refine ⟨fun hm => ?_, hd'.2.2⟩
    obtain ⟨x, hx, he⟩ := List.mem_map.1 hm
    have := hr x hx
    simp only at he
    omega
  · intro x hx
    rcases List.mem_cons.1 hx with rfl | hx
    · exact Nat.lt_succ_self _
    · have := hr x hx; omega

/-- With fuel for every round the builder's loop is a run of rule R128. -/
theorem mergeEntries_det : ∀ (fuel seq : Nat) (q : List Entry), q ≠ [] → q.length ≤ fuel + 1 →
    (q.map Entry.seq).Nodup → (∀ x ∈ q, x.seq < seq) → ∃ e, mergeEntries fuel seq q = [e] ∧ DetRun seq q e.node := by
  intro fuel
  induction fuel with
  | zero =>
    intro seq q hq hl _ _
    match q, hq, hl with
    | [e], _, _ => exact ⟨e, rfl, .done _ _⟩
    | _ :: _ :: _, _, hl => simp at hl
  | succ fuel ih =>
    intro seq q hq hl hd hs
    simp only [mergeEntries]
    cases ha : extractLeast q with
    | none => exact absurd (extractLeast_none ha) hq
    | some p =>
      obtain ⟨a, q1⟩ := p
      have pa := (extractLeast_some ha).1
      have fa := extractLeast_first hd ha
      have hd1 : (q1.map Entry.seq).Nodup := by
        have := (pa.map Entry.seq).nodup_iff.1 hd
        rw [List.map_cons, List.nodup_cons] at this
        exact this.2
      cases hb : extractLeast q1 with
      | none =>
        have h1 := extractLeast_none hb
        subst h1
        obtain rfl : q = [a] := List.perm_singleton.1 pa
        exact ⟨a, rfl, .done _ _⟩
      | some p =>
        obtain ⟨b, q2⟩ := p
        have pb := (extractLeast_some hb).1
        have fb := extractLeast_first hd1 hb
        have len := pa.length_eq
        have lenb := pb.length_eq
        simp only [List.length_cons] at len lenb
        have pick := pa.trans (pb.cons a)
        have hm := seqs_merged pick hd hs (a.weight + b.weight) (.internal a.node b.node)
        obtain ⟨e, he, run⟩ := ih (seq + 1) (⟨a.weight + b.weight, seq, .internal a.node b.node⟩ :: q2) (by simp)
          (by simp only [List.length_cons]; omega) hm.1 hm.2
        exact ⟨e, by simpa only [hb] using he,
          .round pick (fun x hx => fa x (pb.symm.subset hx)) fb run⟩

/-- Two entries of one set that are each before all others are the same. -/
theorem first_unique {q r r' : List Entry} {a a' : Entry} (hp : q.Perm (a :: r)) (hp' : q.Perm (a' :: r'))
    (h : ∀ x ∈ r, a.before x = true) (h' : ∀ x ∈ r', a'.before x = true) : a = a' := by
  by_contra hne
  have h1 : a' ∈ r := by
    rcases List.mem_cons.1 (hp.subset (hp'.symm.subset List.mem_cons_self)) with e | e
    · exact absurd e.symm hne
    · exact e
  have h2 : a ∈ r' := by
    rcases List.mem_cons.1 (hp'.subset (hp.symm.subset List.mem_cons_self)) with e | e
    · exact absurd e hne
    · exact e
  exact Entry.before_asymm (h a' h1) (h' a h2)

/-- Every run of rule R128 ends in the tree the builder's loop makes, whatever the order the queue is kept in. -/
theorem DetRun.mergeEntries {seq : Nat} {m : List Entry} {t : Node} (run : DetRun seq m t) :
    ∀ (fuel : Nat) (q : List Entry), q.Perm m → q.length ≤ fuel + 1 → (m.map Entry.seq).Nodup → (∀ x ∈ m, x.seq < seq) →
      ∃ e, mergeEntries fuel seq q = [e] ∧ e.node = t := by
  induction run with
  | done seq e =>
    intro fuel q hq _ _ _
    obtain rfl : q = [e] := List.perm_singleton.1 hq
    exact ⟨e, mergeEntries_single _ _ _, rfl⟩
  | @round seq m rest a b t pick fa fb more ih =>
    intro fuel q hq hl hd hs
    have hqd : (q.map Entry.seq).Nodup := (hq.map Entry.seq).nodup_iff.2 hd
    have len := (hq.trans pick).length_eq
    simp only [List.length_cons] at len
    obtain ⟨fuel, rfl⟩ : ∃ f, fuel = f + 1 := ⟨fuel - 1, by omega⟩
    simp only [Machine.mergeEntries]
    cases ha : extractLeast q with
    | none => simp [extractLeast_none ha] at len
    | some p =>
      obtain ⟨a', q1⟩ := p
      have pa := (extractLeast_some ha).1
      have ea := first_unique (hq.trans pick) pa fa (extractLeast_first hqd ha)
      subst ea
      have p1 : q1.Perm (b :: rest) := (pa.symm.trans (hq.trans pick)).cons_inv
      have hd1 : (q1.map Entry.seq).Nodup := by
        have := (pa.map Entry.seq).nodup_iff.1 hqd
        rw [List.map_cons, List.nodup_cons] at this
        exact this.2
      cases hb : extractLeast q1 with
      | none => have := p1.length_eq; simp [extractLeast_none hb] at this
      | some p =>
        obtain ⟨b', q2⟩ := p
        have pb := (extractLeast_some hb).1
        have eb := first_unique p1 pb fb (extractLeast_first hd1 hb)
        subst eb
        have p2 : q2.Perm rest := (pb.symm.trans p1).cons_inv
        have hm := seqs_merged pick hd hs (a.weight + b.weight) (.internal a.node b.node)
        have l2 := p2.length_eq
        obtain ⟨e, he, hn⟩ := ih fuel (⟨a.weight + b.weight, seq, .internal a.node b.node⟩ :: q2) (p2.cons _)
          (by simp only [List.length_cons]; omega) hm.1 hm.2
        exact ⟨e, by simpa only [hb] using he, hn⟩

theorem initialEntries_eq (freq : Table (BitVec 64)) (l : List Byte) (seq : Nat) :
    initialEntries freq l seq = ((l.filter fun s => decide (0 < (Table.at freq s).toNat)).zipIdx seq).map
      fun p => ⟨(Table.at freq p.1).toNat, p.2, .leaf p.1⟩ := by
  induction l generalizing seq with
  | nil => rfl
  | cons s l ih =>
    simp only [initialEntries]
    split
    · next h => simp [h, ih]
    · next h => simp [h, ih]

theorem initialEntries_numbered (freq : Table (BitVec 64)) : initialEntries freq allSymbols 0 = numberedLeaves freq :=
  initialEntries_eq freq allSymbols 0

theorem numberedLeaves_seqs (freq : Table (BitVec 64)) :
    ((numberedLeaves freq).map Entry.seq).Nodup ∧ ∀ x ∈ numberedLeaves freq, x.seq < (numberedLeaves freq).length := by
  have hmap : (numberedLeaves freq).map Entry.seq = List.range' 0 (countedSymbols freq).length := by
    rw [numberedLeaves, List.map_map, ← List.zipIdx_map_snd 0 (countedSymbols freq)]
    rfl
  refine ⟨hmap ▸ List.nodup_range', fun x hx => ?_⟩
  have := List.mem_map_of_mem (f := Entry.seq) hx
  rw [hmap, List.mem_range'_1] at this
  simpa [numberedLeaves] using this.2

/-- The builder's tree is the one tree a run of rule R128 can leave. -/
theorem buildDet_det {freq : Table (BitVec 64)} (h : countedSymbols freq ≠ []) :
    ∃ t, buildDet freq = some t ∧ DetRun (numberedLeaves freq).length (numberedLeaves freq) t ∧
      ∀ t', DetRun (numberedLeaves freq).length (numberedLeaves freq) t' → t' = t := by
  obtain ⟨hd, hl⟩ := numberedLeaves_seqs freq
  have hne : numberedLeaves freq ≠ [] := by
    intro e
    have := congrArg List.length e
    simp only [numberedLeaves, List.length_map, List.length_zipIdx, List.length_nil] at this
    exact h (List.length_eq_zero_iff.1 this)
  obtain ⟨e, he, run⟩ := mergeEntries_det (numberedLeaves freq).length _ _ hne (Nat.le_succ _) hd hl
  refine ⟨e.node, by simp [buildDet, initialEntries_numbered, he], run, fun t' run' => ?_⟩
  obtain ⟨e', he', rfl⟩ := run'.mergeEntries (numberedLeaves freq).length _ (List.Perm.refl _) (Nat.le_succ _) hd hl
  rw [he] at he'
  simp only [List.cons.injEq, and_true] at he'
  rw [he']

end Sys2Proof.Machine
end

