-- ==== Sys2Proof/Laws/TreeRecord.lean ====
section
/-! SUPPORT. Tree records node by node, and the one fault of TREE_RD on a stream that holds no record (rule R156). -/

namespace Sys2Proof.Machine

/-- The nodes of a tree in preorder, as its record lists them (rule R98). -/
def Node.preorder : Node → List (Option Byte)
  | .leaf s => [some s]
  | .internal l r => none :: (l.preorder ++ r.preorder)

theorem Node.preorder_length (n : Node) : n.preorder.length = n.size := by
  induction n with
  | leaf s => rfl
  | internal l r hl hr => simp only [Node.preorder, Node.size, List.length_cons, List.length_append, hl, hr]

theorem preorder_flatMap_nodeBytes (n : Node) : n.preorder.flatMap nodeBytes = ser n := by
  induction n with
  | leaf s => rfl
  | internal l r hl hr => simp [Node.preorder, ser, nodeBytes, hl, hr]

/-- A whole tree takes one of the nodes to be read. -/
theorem unfinished_preorder (n : Node) (d : Nat) (ns : List (Option Byte)) :
    unfinished (d + 1) (n.preorder ++ ns) ↔ unfinished d ns := by
  induction n generalizing d ns with
  | leaf s => simp [Node.preorder, unfinished]
  | internal l r hl hr => simp only [Node.preorder, List.cons_append, List.append_assoc, unfinished, hl, hr]

/-- With one more node to be read the record is still unfinished. -/
theorem unfinished_succ {ns : List (Option Byte)} : ∀ {d : Nat}, unfinished d ns → unfinished (d + 1) ns := by
  induction ns with
  | nil => intro d _; trivial
  | cons x ns ih =>
    intro d h
    cases d with
    | zero => exact h.elim
    | succ d => cases x <;> exact ih h

/-- Nodes in preorder are the beginning of a record, or a whole one begins them. -/
theorem unfinished_or_preorder : ∀ (len : Nat) (ns : List (Option Byte)), ns.length ≤ len →
    unfinished 1 ns ∨ ∃ (n : Node) (rest : List (Option Byte)), ns = n.preorder ++ rest := by
  intro len
  induction len with
  | zero => intro ns h; rw [List.length_eq_zero_iff.1 (Nat.le_zero.1 h)]; exact .inl trivial
  | succ len ih =>
    intro ns h
    match ns with
    | [] => exact .inl trivial
    | some x :: ns => exact .inr ⟨.leaf x, ns, rfl⟩
    | none :: ns =>
      rw [List.length_cons] at h
      rcases ih ns (by omega) with hu | ⟨l, rest, rfl⟩
      · exact .inl (show unfinished 2 ns from unfinished_succ hu)
      · rw [List.length_append] at h
        rcases ih rest (by omega) with hu | ⟨r, rest, rfl⟩
        · exact .inl ((unfinished_preorder l 1 rest).2 hu)
        · exact .inr ⟨.internal l r, rest, by simp [Node.preorder]⟩

/-- A node whose first test fails is read as that fault (rule R156). -/
theorem parseNode_nodeFault {s : State} {k m : Nat} {r : Raise} (h : nodeFault s k m r) (fuel : Nat) :
    parseNode s (fuel + 1) k m = .error r := by
  rcases h with ⟨h1, rfl⟩ | ⟨h1, h2, rfl⟩ | ⟨h1, h2, h3, h4, rfl⟩ | ⟨h1, h2, h3, h4, rfl⟩
  · rw [parseNode, require_false (show ¬m < nodeCap from Nat.not_lt.2 h1)]; rfl
  · rw [parseNode, require_true (show m < nodeCap from h1), requireBytes, require_false (by omega)]; rfl
  · rw [parseNode, require_true (show m < nodeCap from h1), requireBytes, require_true h2]
    simp only [ok_bind', if_pos h3]
    rw [requireBytes, require_false (by omega)]; rfl
  · rw [parseNode, require_true (show m < nodeCap from h1), requireBytes, require_true h2]
    simp only [ok_bind', if_neg h3, if_neg h4]

/-- An internal node is read as its two subtrees, left first (rule R156). -/
theorem parseNode_internal {s : State} {k m : Nat} (hm : m < nodeCap) (h1 : k + 1 ≤ inAvail s) (h0 : inByte s k = 0x00)
    (fuel : Nat) : parseNode s (fuel + 1) k m = (do
      let (l, k1, m1) ← parseNode s fuel (k + 1) (m + 1)
      let (r, k2, m2) ← parseNode s fuel k1 m1
      .ok (.internal l r, k2, m2)) := by
  rw [parseNode, require_true hm, requireBytes, require_true h1]
  simp only [ok_bind', h0, if_true, show ¬((0x00 : Byte) = 0x01) by decide, if_false]

/-- The reader reads the nodes the stream holds and then faults at the first node it cannot read, at any depth (rule R156). -/
theorem parseNode_fault (s : State) : ∀ (len : Nat) (ns : List (Option Byte)) (fuel k m : Nat) (r : Raise),
    ns.length ≤ len → unfinished 1 ns → holds s k (ns.flatMap nodeBytes) → m + ns.length ≤ nodeCap →
    nodeCap + 1 ≤ fuel + m → nodeFault s (k + (ns.flatMap nodeBytes).length) (m + ns.length) r →
    parseNode s fuel k m = .error r := by
  intro len
  induction len with
  | zero =>
    intro ns fuel k m r hl _ _ hm hf h
    obtain rfl := List.length_eq_zero_iff.1 (Nat.le_zero.1 hl)
    obtain ⟨fuel, rfl⟩ : ∃ f, fuel = f + 1 := ⟨fuel - 1, by simp at hm; omega⟩
    exact parseNode_nodeFault (by simpa using h) fuel
  | succ len ih =>
    intro ns fuel k m r hl hu hh hm hf h
    obtain ⟨fuel, rfl⟩ : ∃ f, fuel = f + 1 := ⟨fuel - 1, by omega⟩
    match ns with
    | [] => exact parseNode_nodeFault (by simpa using h) fuel
    | some x :: ns => simp [unfinished] at hu
    | none :: ns =>
      simp only [List.length_cons] at hl hm h
      simp only [List.flatMap_cons, nodeBytes, List.singleton_append, List.length_cons] at hh h
      obtain ⟨h0, h1, h2⟩ := holds_cons hh
      rw [parseNode_internal (by omega) h0 h1]
      rcases unfinished_or_preorder len ns (by omega) with hl1 | ⟨l, rest, rfl⟩
      · rw [ih ns fuel (k + 1) (m + 1) r (by omega) hl1 h2 (by omega) (by omega)
          (by rw [show k + 1 + (ns.flatMap nodeBytes).length = k + ((ns.flatMap nodeBytes).length + 1) by omega,
                show m + 1 + ns.length = m + (ns.length + 1) by omega]; exact h)]
        rfl
      · have hur : unfinished 1 rest := (unfinished_preorder l 1 rest).1 hu
        rw [List.flatMap_append, preorder_flatMap_nodeBytes] at h2 h
        simp only [List.length_append, Node.preorder_length] at hl hm h
        obtain ⟨h3, h4⟩ := holds_append h2
        have := l.leaves_pos
        have := l.size_add_one
        rw [parseNode_ser s l fuel (k + 1) (m + 1) (by omega) (by omega) h3]
        simp only [ok_bind']
        rw [ih rest fuel _ _ r (by omega) hur h4 (by omega) (by omega)
          (by rw [show k + 1 + (ser l).length + (rest.flatMap nodeBytes).length =
                  k + ((ser l).length + (rest.flatMap nodeBytes).length + 1) by omega,
                show m + 1 + l.size + rest.length = m + (l.size + rest.length + 1) by omega]; exact h)]
        rfl

/-- Every fault of the reader is one of those: the nodes read before it, and the first test that failed after them (rule R156). -/
theorem parseNode_eq_error {s : State} : ∀ {fuel k m : Nat} {r : Raise}, nodeCap + 1 ≤ fuel + m → m ≤ nodeCap →
    k ≤ inAvail s → parseNode s fuel k m = .error r →
    ∃ ns : List (Option Byte), unfinished 1 ns ∧ holds s k (ns.flatMap nodeBytes) ∧
      m + ns.length ≤ nodeCap ∧ nodeFault s (k + (ns.flatMap nodeBytes).length) (m + ns.length) r := by
  intro fuel
  induction fuel with
  | zero => intro k m r hf hm; omega
  | succ fuel ih =>
    intro k m r hf hm hk h
    by_cases hfault : ∃ e, nodeFault s k m e
    · obtain ⟨e, he⟩ := hfault
      rw [parseNode_nodeFault he] at h
      obtain rfl := Except.error.inj h
      exact ⟨[], trivial, ⟨by simpa using hk, rfl⟩, by simpa using hm, by simpa using he⟩
    · simp only [nodeFault, not_exists, not_or, not_and] at hfault
      have hm' : m < nodeCap := by
        by_contra hc
        exact (hfault _).1 (Nat.not_lt.1 hc) rfl
      have h1 : k + 1 ≤ inAvail s := by
        by_contra hc
        exact (hfault _).2.1 hm' (by omega) rfl
      by_cases hb : inByte s k = 0x00
      · rw [parseNode_internal hm' h1 hb] at h
        have first : ∀ ns : List (Option Byte), holds s (k + 1) (ns.flatMap nodeBytes) →
            holds s k ((none :: ns).flatMap nodeBytes) := fun ns hh => holds_of_cons hb hh
        simp only [bind_eq_error] at h
        rcases h with h | ⟨⟨l, k1, m1⟩, hl, h | ⟨_, -, h⟩⟩
        · obtain ⟨ns, hu, hh, hlen, hn⟩ := ih (by omega) (by omega) h1 h
          refine ⟨none :: ns, (unfinished_succ hu : unfinished 2 ns), first ns hh, by simp only [List.length_cons]; omega, ?_⟩
          simp only [List.flatMap_cons, nodeBytes, List.singleton_append, List.length_cons]
          rw [show k + ((ns.flatMap nodeBytes).length + 1) = k + 1 + (ns.flatMap nodeBytes).length by omega,
            show m + (ns.length + 1) = m + 1 + ns.length by omega]
          exact hn
        · obtain ⟨a1, a2, a3, a4⟩ := parseNode_sound s _ _ _ (by omega) hl
          dsimp only at h
          have := l.leaves_pos
          have := l.size_add_one
          obtain ⟨ns, hu, hh, hlen, hn⟩ := ih (by omega) a4 (by have := a1.1; omega) h
          refine ⟨none :: (l.preorder ++ ns), (unfinished_preorder l 1 ns).2 hu, first _ ?_, ?_, ?_⟩
          · rw [List.flatMap_append, preorder_flatMap_nodeBytes]
            exact holds_of_append a1 (a2 ▸ hh)
          · simp only [List.length_cons, List.length_append, Node.preorder_length]; omega
          · simp only [List.flatMap_cons, nodeBytes, List.singleton_append, List.length_cons, List.flatMap_append,
              preorder_flatMap_nodeBytes, List.length_append, Node.preorder_length]
            rw [show k + ((ser l).length + (ns.flatMap nodeBytes).length + 1) = k1 + (ns.flatMap nodeBytes).length by omega,
              show m + (l.size + ns.length + 1) = m1 + ns.length by omega]
            exact hn
        · simp at h
      · exfalso
        by_cases hb1 : inByte s k = 0x01
        · have h2 : k + 2 ≤ inAvail s := by
            by_contra hc
            exact (hfault _).2.2.1 hm' h1 hb1 (by omega) rfl
          rw [parseNode, require_true hm', requireBytes, require_true h1] at h
          simp only [ok_bind', if_pos hb1, requireBytes, require_true h2] at h
          cases h
        · exact (hfault _).2.2.2 hm' h1 hb hb1 rfl

end Sys2Proof.Machine
end

