-- ==== Sys2Proof/Tests/Slice0.lean ====
section
/-! SUPPORT. Tests. Expected values come from spec/95_test_vectors.md (the vector's id stands in the comment), from the encoding tables of spec/30_encoding.md, or from the rule cited; then, for each obligation with hypotheses, states that meet them. -/

namespace Sys2Proof.Tests

open Sys2Proof Sys2Proof.Machine

-- One kernel check at a time: in parallel the checks below take more memory than the build has.
set_option Elab.async false

/-! ### Well-formedness: each check refuses -/

/-- A small part. -/
def small : Config where
  cellCap := 4
  bitCap := 256
  inCap := 1024
  outCap := 128
  inBase := 0x100
  outBase := 0x500
  curBase := 0x600

theorem test_wf_small : small.wf = true := by decide
theorem test_wf_unbounded : Config.unbounded.wf = true := by decide
theorem test_wf_cellCap : { Config.unbounded with cellCap := 2147483648 }.wf = false := by decide
theorem test_wf_bitCap : { small with bitCap := 2147483648 }.wf = false := by decide
theorem test_wf_inCap : { Config.unbounded with inCap := 4294967296, inBase := 0x400000000 }.wf = false := by decide
theorem test_wf_outCap : { Config.unbounded with outCap := 4294967296, outBase := 0x500000000 }.wf = false := by decide
theorem test_wf_aligned : { small with inBase := 0x101, inCap := 16 }.wf = false := by decide
theorem test_wf_aboveRegisters : { small with inBase := 0xFC, inCap := 16 }.wf = false := by decide
theorem test_wf_inOut : { small with outBase := 0x4FC }.wf = false := by decide
theorem test_wf_inCur : { small with curBase := 0x4FC }.wf = false := by decide
theorem test_wf_outCur : { small with curBase := 0x57C }.wf = false := by decide
/-- No command has an operand that could be ill formed (rule R93). -/
theorem test_wf_instr : (opcodeMap.all fun row => row.2.wf) = true := by decide

/-! ### Decoding: words written out from rule R92, bit by bit: `rsv` 31 to 8, `grp` 7 to 4, `fn` 3 to 0 -/

theorem test_decode_nop : decode 0b00000000000000000000000000000000 = .ok .nop := by decide
theorem test_decode_reset : decode 0b00000000000000000000000000000001 = .ok .reset := by decide
theorem test_decode_freqClr : decode 0b00000000000000000000000000010000 = .ok .freqClr := by decide
theorem test_decode_freqAcc : decode 0b00000000000000000000000000010001 = .ok .freqAcc := by decide
theorem test_decode_buildTree : decode 0b00000000000000000000000000010010 = .ok .buildTree := by decide
theorem test_decode_genCodes : decode 0b00000000000000000000000000010011 = .ok .genCodes := by decide
theorem test_decode_decodeOne : decode 0b00000000000000000000000000010100 = .ok .decodeOne := by decide
theorem test_decode_treeWr : decode 0b00000000000000000000000000100000 = .ok .treeWr := by decide
theorem test_decode_treeRd : decode 0b00000000000000000000000000100001 = .ok .treeRd := by decide
theorem test_decode_pack : decode 0b00000000000000000000000000110000 = .ok .pack := by decide
theorem test_decode_unpack : decode 0b00000000000000000000000000110001 = .ok .unpack := by decide
theorem test_decode_encFull : decode 0b00000000000000000000000001000000 = .ok .encFull := by decide
theorem test_decode_decFull : decode 0b00000000000000000000000001000001 = .ok .decFull := by decide
theorem test_decode_encDelta : decode 0b00000000000000000000000001000010 = .ok .encDelta := by decide
theorem test_decode_decDelta : decode 0b00000000000000000000000001000011 = .ok .decDelta := by decide
theorem test_decode_put32 : decode 0b00000000000000000000000001010000 = .ok .put32 := by decide
theorem test_decode_get32 : decode 0b00000000000000000000000001010001 = .ok .get32 := by decide
/-- Y2. -/
theorem test_decode_unassigned : decode 0x00000015 = .error .unassignedOpcode := by decide
/-- Y4: BUILD_TREE with a reserved bit set is not BUILD_TREE. -/
theorem test_decode_reserved : decode 0x80000012 = .error .reservedBits := by decide
theorem test_decode_table : decodeTableWord 32 0x43 = some .decDelta ∧ decodeTableWord 32 0x44 = none := by decide
theorem test_opcodes_distinct : (opcodeMap.map (·.1)).Nodup := by decide

/-! ### Small states -/

/-- The state a command leaves. -/
def result (i : Instr) (s : State) : State :=
  match exec i s with
  | .next t => t
  | _ => s

theorem exec_result (i : Instr) (s : State) : exec i s = .next (result i s) := by
  have h : ∃ t, exec i s = .next t := by
    cases i
    case reset => exact ⟨_, rfl⟩
    all_goals (rw [exec_effect (by simp)]; exact runCommand_next _ _)
  obtain ⟨t, h⟩ := h
  rw [result, h]

/-- Fault and its words, as the vectors give them: `FAULT`, `ERR`, `ERRINFO0`, `ERRINFO1`. -/
def faultOf (s : State) : Bool × Byte × Word × Word := (s.fault, s.err, s.errInfo0, s.errInfo1)

def base : State := { State.reset with cfg := small }
/-- A part whose bit store holds one 33-bit cell and no more. -/
def tight (bitCap : Nat) : State := { State.reset with cfg := { small with bitCap := bitCap } }

/-- `FREQ` of the table H. -/
def counts (l : List (Byte × Nat)) : Table (BitVec 64) :=
  Table.make fun x => BitVec.ofNat 64 ((l.find? fun p => p.1 == x).elim 0 (·.2))

def withFreq (l : List (Byte × Nat)) (s : State) : State := { s with freq := counts l }
/-- What `WRIN` leaves (rule R107). -/
def feed (b : List Byte) (s : State) : State :=
  { s with inb := Memory.writeRun s.inb 0 b, ilen := BitVec.ofNat 32 b.length }
/-- What `WRCUR` leaves (rule R107). -/
def put (f : Frame) (s : State) : State :=
  { s with curw := Memory.writeRun s.curw 0 (f.map wordOfCell), clen := BitVec.ofNat 32 f.length }
def withCnt (n : Nat) (s : State) : State := { s with cnt := BitVec.ofNat 32 n }
def withBc (n : Nat) (s : State) : State := { s with bc := BitVec.ofNat 32 n }
def withPrev (f : Frame) (s : State) : State := s.markPrev.setPrev f (BitVec.ofNat 32 f.length)
/-- `n` bytes already in `OUT`. -/
def filled (n : Nat) (s : State) : State := appended s (List.replicate n 0)

/-- The trees of H1 and H2. -/
def h1 : Node := .internal (.internal (.leaf 0x43) (.leaf 0x42)) (.leaf 0x41)
def h2 : Node := .leaf 0x41
def withTree (n : Node) (s : State) : State := s.setTree n
def coded (n : Node) (s : State) : State := (s.setTree n).setCode (genCodes n)

def red : Cell := ⟨0x41, 255, 0, 0⟩
def green : Cell := ⟨0x42, 0, 255, 0⟩
def blue : Cell := ⟨0x43, 0, 0, 255⟩
def noCode : Cell := ⟨0x44, 0, 0, 0⟩

/-- Bits written as in the vectors. -/
def bin (s : String) : Bits := s.toList.filterMap fun c => if c = '1' then some true else if c = '0' then some false else none

/-- The 33 and 34 bits of 2.5. -/
def redBits : Bits := bin "00000001|1|11111111|00000000|00000000"
def greenBits : Bits := bin "00000010|01|00000000|11111111|00000000"
/-- The 66 bits of E2. -/
def e2Bits : Bits := bin "00000000000000000000000000000001|00000010|01|00000000|11111111|00000000"

/-! ### One command at a time -/

theorem test_freqClr : Table.at (result .freqClr (withFreq [(0x41, 4)] base)).freq 0x41 = 0 := by decide +kernel
theorem test_freqAcc : let t := result .freqAcc (put [red, green, red] (withFreq [(0x41, 2), (0x42, 1)] base))
    Table.at t.freq 0x41 = 4 ∧ Table.at t.freq 0x42 = 2 ∧ Table.at t.freq 0x00 = 0 := by decide +kernel
/-- H4: a tie on weight goes to the lower sequence number. -/
theorem test_buildTree_tie : (result .buildTree (withFreq [(0x41, 1), (0x42, 1), (0x43, 2)] base)).tree =
    some (.internal (.leaf 0x43) (.internal (.leaf 0x41) (.leaf 0x42))) := by decide +kernel
/-- H9. -/
theorem test_buildTree_empty : faultOf (result .buildTree base) = (true, 1, 0, 0) := by decide +kernel
/-- H1. -/
theorem test_genCodes : let t := result .genCodes (withTree h1 base)
    Table.at t.code 0x43 = some [false, false] ∧ Table.at t.code 0x42 = some [false, true] ∧
    Table.at t.code 0x41 = some [true] ∧ Table.at t.code 0x44 = none ∧ t.codeV = true := by decide +kernel
/-- T9: of two leaves with one symbol the later one is kept. -/
theorem test_genCodes_later : Table.at (result .genCodes (withTree (.internal h2 h2) base)).code 0x41 = some [true] := by
  decide +kernel
/-- W1. -/
theorem test_decodeOne : let t := result .decodeOne ((withTree h1 base).setBits (bin "011"))
    t.sym = 0x42 ∧ t.bc = 2 := by decide +kernel
/-- W10. -/
theorem test_decodeOne_far : faultOf (result .decodeOne (withBc 100 ((withTree h1 base).setBits (bin "011")))) =
    (true, 3, 0, 100) := by decide +kernel
/-- H1, last column. -/
theorem test_treeWr : out (result .treeWr (withTree h1 base)) = [0x00, 0x00, 0x01, 0x43, 0x01, 0x42, 0x01, 0x41] := by
  decide +kernel
theorem test_treeWr_none : faultOf (result .treeWr base) = (true, 10, 0x20, 0) := by decide +kernel
/-- T2: what follows the record is not read. -/
theorem test_treeRd : let t := result .treeRd (feed [0x01, 0x41, 0x01, 0x42] base)
    t.tree = some h2 ∧ t.ipos = 2 ∧ t.treeV = true := by decide +kernel
/-- T6. -/
theorem test_treeRd_short : faultOf (result .treeRd (feed [0x00, 0x01, 0x41] base)) = (true, 2, 4, 3) := by decide +kernel
/-- K4. -/
theorem test_pack : out (result .pack (base.setBits (bin "101100111"))) = [0x09, 0x00, 0x00, 0x00, 0xB3, 0x80, 0x01] := by
  decide +kernel
/-- K1. -/
theorem test_pack_empty : out (result .pack base) = [0x00, 0x00, 0x00, 0x00, 0x00] := by decide +kernel
/-- U1: padding bits and remainder are not checked. -/
theorem test_unpack : let t := result .unpack (withBc 7 (feed [0x09, 0x00, 0x00, 0x00, 0xB3, 0xFF, 0x00] base))
    t.bits = bin "101100111" ∧ t.blen = 9 ∧ t.bc = 0 ∧ t.ipos = 7 := by decide +kernel
/-- U3: the remainder byte is required. -/
theorem test_unpack_short : faultOf (result .unpack (feed [0x09, 0x00, 0x00, 0x00, 0xB3, 0x80] base)) = (true, 2, 7, 6) := by
  decide +kernel
/-- F1. -/
theorem test_encFull : let t := result .encFull (put [red, red, red] (coded h1 base))
    out t = [0x03, 0x00, 0x00, 0x00] ∧ t.bits = redBits ++ redBits ++ redBits ∧ t.cnt = 3 ∧ t.prev = [red, red, red] ∧
    t.prevV = true := by decide +kernel
/-- F3. -/
theorem test_encFull_noCode : faultOf (result .encFull (put [red, noCode] (coded h1 base))) = (true, 6, 1, 0x44) := by
  decide +kernel
/-- E2. -/
theorem test_encDelta : let t := result .encDelta (put [red, green, red] (withPrev [red, red, red] (coded h1 base)))
    out t = [0x01, 0x00, 0x00, 0x00] ∧ t.bits = e2Bits ∧ t.cnt = 1 ∧ t.prev = [red, green, red] := by decide +kernel
/-- E5: a shorter frame changes nothing. -/
theorem test_encDelta_shorter : let t := result .encDelta (put [red] (withPrev [red, red, red] (coded h1 base)))
    t.cnt = 0 ∧ t.bits = [] ∧ t.plen = 1 := by decide +kernel
/-- D10: bits past the cells counted are ignored. -/
theorem test_decFull : let t := result .decFull (withCnt 2 ((withTree h1 base).setBits (redBits ++ redBits ++ redBits)))
    cur t = [red, red] ∧ t.bc = 66 ∧ t.clen = 2 ∧ t.prev = [red, red] := by decide +kernel
/-- D3: the length field says 2 and the walk ends after 1. -/
theorem test_decFull_length : faultOf (result .decFull (withCnt 1 ((withTree h1 base).setBits
    (bin "00000010|1|111111110000000000000000")))) = (true, 3, 0, 8) := by decide +kernel
/-- X2. -/
theorem test_decDelta : let t := result .decDelta (withCnt 1 ((withPrev [red, red, red] (withTree h1 base)).setBits e2Bits))
    cur t = [red, green, red] ∧ t.prev = [red, green, red] ∧ t.bc = 66 := by decide +kernel
/-- X3. -/
theorem test_decDelta_index : faultOf (result .decDelta (withCnt 1 ((withPrev [red, red, red] (withTree h1 base)).setBits
    (bits32 3 ++ redBits)))) = (true, 4, 3, 3) := by decide +kernel
/-- G2. -/
theorem test_put32 : out (result .put32 (withCnt 0x7FFFFFFF base)) = [0xFF, 0xFF, 0xFF, 0x7F] := by decide +kernel
/-- G3. -/
theorem test_put32_reserved : faultOf (result .put32 (withCnt 0x80000000 base)) = (true, 8, 0x80000000, 0x7FFFFFFF) := by
  decide +kernel
/-- G4. -/
theorem test_get32 : let t := result .get32 (feed [0x63, 0x00, 0x00, 0x00] base)
    t.cnt = 99 ∧ t.ipos = 4 := by decide +kernel
/-- G6. -/
theorem test_get32_reserved : faultOf (result .get32 (feed [0x03, 0x00, 0x00, 0x80] base)) = (true, 7, 0x80000003, 0) := by
  decide +kernel

/-! ### Steps -/

/-- The state after one step, and whether there is one. -/
def stepped (s : State) : State :=
  match step s with
  | .next t => t
  | _ => s

/-- The first step after power-on runs the word given: P7. -/
theorem test_step_buildTree : faultOf (stepped (State.reset.withFetchWord 32 0x12)) = (true, 1, 0, 0) := by decide +kernel
/-- P7: with `CNT = 0` DEC_FULL decodes no cell. -/
theorem test_step_decFull : status (stepped (State.reset.withFetchWord 32 0x41)) = 4 := by decide +kernel
/-- Y3. -/
theorem test_step_illegal : faultOf (stepped (State.reset.withFetchWord 32 0x100)) = (true, 9, 0x100, 0) := by decide +kernel
/-- Y5 and Y8. -/
theorem test_step_ignored : let s := base.raise ⟨.illegalState, 0x13, 0⟩
    faultOf (stepped (s.withFetchWord 32 0x12)) = (true, 10, 0x13, 0) ∧
    faultOf (stepped (s.withFetchWord 32 0x101)) = (true, 10, 0x13, 0) := by decide +kernel
/-- Y7. -/
theorem test_step_reset : let t := stepped ((base.raise ⟨.illegalState, 0x13, 0⟩).withFetchWord 32 0x1)
    status t = 0 ∧ t.err = 0 := by decide +kernel
/-- A host read of `ERR` (rule R82). -/
theorem test_step_read : (stepped { base.raise ⟨.illegalState, 0x13, 0⟩ with hostQueue := [.read 0x08 4] }).rdata = 10 := by
  decide +kernel
/-- `CURW[1]` at `CUR_BASE + 4` (rule R62). -/
theorem test_step_window : curWord (stepped { base with hostQueue := [.write 0x604 4 0x4200FF00] }) 1 = 0x4200FF00 := by
  decide +kernel
/-- U9: a byte-wide access to a register is not defined. -/
theorem test_step_refused : step { base with hostQueue := [.write 0x14 1 7] } = .refused .registerAccessNotDefined := rfl

/-! ### Sequences -/

/-- The container COMPRESS returns, if it is done. -/
def made (v : List Frame) (s : State) : Option (List Byte) :=
  match compress v s with
  | .ok (b, _) => some b
  | .error _ => none

theorem made_eq {v : List Frame} {s : State} {b : List Byte} (h : made v s = some b) : ∃ t, compress v s = .ok (b, t) := by
  unfold made at h
  generalize compress v s = r at h ⊢
  cases r with
  | ok p => exact ⟨p.2, by rw [← Option.some.inj h]⟩
  | error e => simp at h

/-- The video DECOMPRESS returns, if it is done. -/
def read (b : List Byte) (s : State) : Option (List Frame) :=
  match decompress b s with
  | .ok (v, _) => some v
  | .error _ => none

/-- The start of P5, with one frame. -/
theorem test_compress : made [[red]] base =
    some [0x01, 0x00, 0x00, 0x00, 0x01, 0x41, 0x01, 0x00, 0x00, 0x00, 0x21, 0x00, 0x00, 0x00, 0x01, 0x7F, 0x80, 0x00, 0x00, 0x01] := by
  decide +kernel

/-- P6 (b): a shrinking frame keeps the rest of the one before it. -/
theorem test_decompress_shrinking : read [0x02, 0x00, 0x00, 0x00, 0x00, 0x01, 0x42, 0x01, 0x41, 0x02, 0x00, 0x00, 0x00, 0x42, 0x00, 0x00,
      0x00, 0x01, 0xFF, 0x80, 0x00, 0x00, 0x80, 0x40, 0x40, 0x40, 0x02, 0x00, 0x00, 0x00, 0x00, 0x00, 0x00, 0x00, 0x00, 0x00] base =
    some [[red, ⟨0x42, 1, 1, 1⟩], [red, ⟨0x42, 1, 1, 1⟩]] := by
  decide +kernel

/-! ### Invariants of the small states -/

theorem small_wf : small.WellFormed := (configWf_iff _).1 (by decide)

theorem inv_base : base.Inv := inv_resetWith small_wf 0 [] 0

theorem inv_tight {n : Nat} (h : n ≤ 2147483647) : (tight n).Inv :=
  inv_resetWith (c := { small with bitCap := n }) { small_wf with bitCap_le := h } 0 [] 0

variable {s : State}

theorem inv_withFreq (h : s.Inv) (l : List (Byte × Nat)) : (withFreq l s).Inv := { h with }

theorem inv_feed (h : s.Inv) {b : List Byte} (hb : b.length ≤ s.cfg.inCap) : (feed b s).Inv := h.wrin hb _

theorem inv_put (h : s.Inv) {f : Frame} (hf : f.length ≤ s.cfg.cellCap) : (put f s).Inv := h.wrcur hf _

theorem inv_withCnt (h : s.Inv) (n : Nat) : (withCnt n s).Inv := h.setCnt _

theorem inv_withBc (h : s.Inv) (n : Nat) : (withBc n s).Inv := { h with }

theorem inv_withTree (h : s.Inv) {n : Node} (hn : n.size ≤ 511) : (withTree n s).Inv := h.setTree hn

theorem inv_coded (h : s.Inv) {n : Node} (hn : n.size ≤ 511) : (coded n s).Inv :=
  (h.setTree hn).setCode (by simp [heldTree])

theorem inv_withPrev (h : s.Inv) {f : Frame} (hf : f.length ≤ s.cfg.cellCap) : (withPrev f s).Inv := by
  have := h.cfg.cellCap_le
  have hn : (BitVec.ofNat 32 f.length).toNat = f.length := by simp only [BitVec.toNat_ofNat]; omega
  exact h.markPrev.setPrev rfl hn (by rw [hn]; exact hf)

theorem inv_filled (h : s.Inv) {n : Nat} (hn : s.olen.toNat + n ≤ s.cfg.outCap) : (filled n s).Inv :=
  h.appended (by simpa using hn)

theorem inv_bits (h : s.Inv) {b : Bits} (hb : b.length ≤ s.cfg.bitCap) : (s.setBits b).Inv := h.setBits hb

/-- The part of H1 with its code table. -/
theorem inv_h1 : (coded h1 base).Inv := inv_coded inv_base (by decide)

theorem inv_h1tree : (withTree h1 base).Inv := inv_withTree inv_base (by decide)

/-- The deepest tree of 256 leaves (T11). -/
def chain : List Byte → Node
  | [] => .leaf 0
  | [x] => .leaf x
  | x :: xs => .internal (.leaf x) (chain xs)

def deepest : Node := chain allSymbols

theorem deepest_size : deepest.size = 511 := by decide +kernel

theorem deepest_nodup : deepest.leaves.Nodup := by
  have h : ∀ l : List Byte, l ≠ [] → (chain l).leaves = l := by
    intro l
    induction l with
    | nil => intro h; exact absurd rfl h
    | cons x xs ih =>
      intro _
      cases xs with
      | nil => rfl
      | cons y ys => simp [chain, Node.leaves, ih]
  rw [deepest, h _ (List.ne_nil_of_mem (mem_allSymbols 0))]
  exact allSymbols_nodup

/-- The last symbol's code is 255 bits long (rule R40). -/
theorem deepest_code : Table.at (genCodes deepest) 255 = some (List.replicate 255 true) := by
  have h : ∃ l r, deepest = .internal l r := ⟨_, _, rfl⟩
  have hp : deepest.lastPath 255 = some (List.replicate 255 true) := by decide +kernel
  obtain ⟨l, r, h⟩ := h
  rw [h] at hp ⊢
  rw [genCodes_internal, hp]

/-! ### Witnesses: for each obligation with hypotheses, states and operands that meet them, clause by clause, at boundary values where a clause has a range -/

theorem witness_ResetAlwaysRunsAndAloneClearsAFault :
    let s := base.raise ⟨.emptyInput, 0, 0⟩;
    exec .reset s = .next s.afterReset ∧ s.fault = true ∧ s.afterReset.fault = false := ⟨rfl, rfl, rfl⟩

theorem witness_FreqClrZeroesEveryCounter : (withFreq [(0x41, 4)] base).fault = false := rfl

/-- The sum a counter comes to. -/
def sumOf (s : State) (x : Byte) : Nat :=
  (Table.at s.freq x).toNat + (List.range s.clen.toNat).countP fun i => (curWord s i).extractLsb' 24 8 == x

theorem witness_FreqAccCountsTheSymbolsOfTheFrame :
    (let s := { base with clen := 5 }; s.fault = false ∧ s.cfg.cellCap < s.clen.toNat) ∧
    (let s := put [red] (withFreq [(0x41, 2 ^ 64 - 1)] base);
      s.fault = false ∧ s.clen.toNat ≤ s.cfg.cellCap ∧ sumOf s 0x41 = 2 ^ 64 ∧
        ∀ y : Byte, y.toNat < (0x41 : Byte).toNat → sumOf s y < 2 ^ 64) ∧
    (let s := put [red, red, red, red] (withFreq [(0x41, 2 ^ 64 - 5)] base);
      s.fault = false ∧ s.clen.toNat = s.cfg.cellCap ∧ sumOf s 0x41 = 2 ^ 64 - 1 ∧ ∀ x : Byte, sumOf s x < 2 ^ 64) := by
  refine ⟨by decide, ?_, ?_⟩ <;> decide +kernel

theorem witness_BuildTreeFollowsTheTieRule :
    (base.fault = false ∧ ∀ x, Table.at base.freq x = 0) ∧
    (let s := withFreq [(0x41, 6), (0x42, 2), (0x43, 1)] base; s.fault = false ∧ ∃ x, Table.at s.freq x ≠ 0) :=
  ⟨⟨rfl, by simp [base, State.reset]⟩, rfl, 0x41, by decide +kernel⟩

/-- A tree rule R127 allows, from H1. -/
theorem huffman_h1 : HuffmanTreeOf (counts [(0x41, 6), (0x42, 2), (0x43, 1)]) h1 := by
  have hb : buildDet (counts [(0x41, 6), (0x42, 2), (0x43, 1)]) = some h1 := by decide +kernel
  obtain ⟨t, ht, hh⟩ := buildDet_huffman (freq := counts [(0x41, 6), (0x42, 2), (0x43, 1)]) (by decide +kernel)
  rw [hb] at ht
  exact (Option.some.inj ht) ▸ hh

theorem huffman_h2 : HuffmanTreeOf (counts [(0x41, 9)]) h2 := by
  have hb : buildDet (counts [(0x41, 9)]) = some h2 := by decide +kernel
  obtain ⟨t, ht, hh⟩ := buildDet_huffman (freq := counts [(0x41, 9)]) (by decide +kernel)
  rw [hb] at ht
  exact (Option.some.inj ht) ▸ hh

theorem witness_EveryHuffmanTreeHasTheCountedLeaves :
    HuffmanTreeOf (counts [(0x41, 6), (0x42, 2), (0x43, 1)]) h1 ∧
    (HuffmanTreeOf (counts [(0x41, 9)]) h2 ∧ h2.leaves = [0x41]) := ⟨huffman_h1, huffman_h2, rfl⟩

theorem witness_GenCodesTabulatesTheLeafPaths :
    (base.fault = false ∧ base.treeV = false) ∧
    (let s := withTree h1 base; s.fault = false ∧ s.treeV = true ∧ s.tree = some h1) ∧
    (let s := withTree h2 base; s.fault = false ∧ s.treeV = true ∧ s.tree = some h2) := by decide

theorem witness_CodeTableIsPrefixFree :
    (h1.size ≤ 511 ∧ h1.leaves.Nodup ∧ Table.at (genCodes h1) 0x42 = some [false, true] ∧
      Table.at (genCodes h1) 0x43 = some [false, false]) ∧
    (deepest.size = 511 ∧ deepest.leaves.Nodup ∧ Table.at (genCodes deepest) 255 = some (List.replicate 255 true)) ∧
    (h2.size ≤ 511 ∧ h2.leaves.Nodup ∧ h2 = .leaf 0x41) :=
  ⟨by decide +kernel, ⟨deepest_size, deepest_nodup, deepest_code⟩, by decide⟩

theorem witness_DecodeOneWalksOneCodePath :
    (let s := withBc 2 ((withTree h1 base).setBits (bin "011"));
      s.Inv ∧ s.fault = false ∧ s.tree = some h1 ∧ h1.symbolAt [true] = some 0x41 ∧ s.bc.toNat + 1 = s.blen.toNat ∧
        bitsRead s s.bc.toNat 1 = [true]) ∧
    (let s := withBc 3 ((withTree h1 base).setBits (bin "011"));
      s.Inv ∧ s.fault = false ∧ ∀ (n : Node) (k : Bits) (x : Byte), s.tree = some n → n.symbolAt k = some x →
        s.bc.toNat + k.length ≤ s.blen.toNat → bitsRead s s.bc.toNat k.length ≠ k) ∧
    (base.Inv ∧ base.fault = false ∧ base.tree = none) := by
  refine ⟨⟨inv_withBc (inv_bits inv_h1tree (by decide)) 2, by decide⟩, ⟨inv_withBc (inv_bits inv_h1tree (by decide)) 3, rfl, ?_⟩,
    inv_base, rfl, rfl⟩
  intro n k x _ hk hl
  have := List.length_pos_iff.2 (symbolAt_ne_nil hk)
  change 3 + k.length ≤ 3 at hl
  omega

theorem witness_WalkInvertsTheCodeTable :
    let s := (withTree h1 base).setBits (bin "01");
    s.Inv ∧ s.tree = some h1 ∧ h1.leaves.Nodup ∧ Table.at (genCodes h1) 0x42 = some [false, true] ∧
      0 + 2 = s.blen.toNat ∧ bitsRead s 0 2 = [false, true] ∧ Machine.decodeOne s 0 0 = .ok (0x42, 2) :=
  ⟨inv_bits inv_h1tree (by decide), by decide +kernel⟩

theorem witness_TreeWrAppendsTheTreeRecord :
    (base.Inv ∧ base.fault = false ∧ base.treeV = false) ∧
    (let s := filled 121 (withTree h1 base);
      s.Inv ∧ s.fault = false ∧ s.tree = some h1 ∧ s.cfg.outCap + 1 = s.olen.toNat + (ser h1).length) ∧
    (let s := filled 120 (withTree h1 base);
      s.Inv ∧ s.fault = false ∧ s.tree = some h1 ∧ s.olen.toNat + (ser h1).length = s.cfg.outCap) :=
  ⟨⟨inv_base, by decide⟩, ⟨inv_filled inv_h1tree (by decide), by decide +kernel⟩, inv_filled inv_h1tree (by decide), by decide +kernel⟩

/-- The stream that holds exactly `b`. -/
theorem holds_feed {b : List Byte} (h : b.length ≤ 1024) : holds (feed b base) 0 b := holds_wrin base (by omega) rfl

theorem inByte_feed {b : List Byte} (h : b.length ≤ 1024) {k : Nat} (hk : k < b.length) : inByte (feed b base) k = b[k] := by
  have hb := (holds_feed h).2
  have := congrArg (fun l => l[k]?) hb
  simpa [inBytes, hk] using this

theorem witness_TreeRecordRoundTrip :
    (h1.size ≤ 511 ∧ (withTree h1 base).Inv ∧ (withTree h1 base).fault = false ∧ (withTree h1 base).tree = some h1 ∧
      exec .treeWr (withTree h1 base) = .next (result .treeWr (withTree h1 base)) ∧
      (result .treeWr (withTree h1 base)).fault = false) ∧
    (let u := feed (ser deepest) base;
      deepest.size = 511 ∧ u.fault = false ∧ u.ilen.toNat ≤ u.cfg.inCap ∧ holds u 0 (ser deepest)) :=
  ⟨⟨by decide, inv_h1tree, rfl, rfl, exec_result _ _, by decide⟩,
    deepest_size, rfl, by decide +kernel, holds_feed (by decide +kernel)⟩

/-- The stream of a test, with the nodes read before the fault, the bytes they take and the fault: T4, T5, T6 and T8. -/
def treeFaults : List (List Byte × List (Option Byte) × Raise) :=
  [([0x01], [], ⟨.truncatedStream, 2, 1⟩),
   ([0x00, 0x00], [none, none], ⟨.truncatedStream, 3, 2⟩),
   ([0x00, 0x01, 0x41], [none, some 0x41], ⟨.truncatedStream, 4, 3⟩),
   ([0x00, 0x01, 0x41, 0xFF], [none, some 0x41], ⟨.reservedValue, 0xFF, 3⟩)]

theorem unfinished_nones (n : Nat) : unfinished 1 (List.replicate n none) := by
  have h : ∀ d, unfinished (d + 1) (List.replicate n none) := by
    induction n with
    | zero => intro d; trivial
    | succ n ih => exact fun d => ih (d + 1)
  exact h 0

theorem nones_bytes (n : Nat) : (List.replicate n none).flatMap nodeBytes = List.replicate n 0x00 := by
  induction n with
  | zero => rfl
  | succ n ih => simp [List.replicate_succ, nodeBytes, ih]

theorem witness_TreeRdFaultsWithoutARecord :
    (let s := { base with ilen := 1025 }; s.fault = false ∧ s.cfg.inCap + 1 = s.ilen.toNat) ∧
    (∀ v ∈ treeFaults, let s := feed v.1 base;
      s.fault = false ∧ s.ilen.toNat ≤ s.cfg.inCap ∧ unfinished 1 v.2.1 ∧ holds s 0 (v.2.1.flatMap nodeBytes) ∧
      v.2.1.length ≤ 511 ∧ nodeFault s (v.2.1.flatMap nodeBytes).length v.2.1.length v.2.2) ∧
    -- T10: 511 internal nodes, and the 512th does not fit.
    (let s := feed (List.replicate 511 0x00) base; let ns := List.replicate 511 none;
      s.fault = false ∧ s.ilen.toNat ≤ s.cfg.inCap ∧ unfinished 1 ns ∧ holds s 0 (ns.flatMap nodeBytes) ∧
      ns.length ≤ 511 ∧ nodeFault s (ns.flatMap nodeBytes).length ns.length ⟨.capacityExceeded, 512, 511⟩) ∧
    (base.fault = false ∧ base.ilen.toNat ≤ base.cfg.inCap ∧ ∀ n : Node, n.size ≤ 511 → ¬ holds base 0 (ser n)) := by
  refine ⟨by decide, ?_, ⟨rfl, by decide +kernel, ?_, ?_, ?_, ?_⟩, rfl, by decide, fun n _ h => ?_⟩
  · simp only [treeFaults, List.forall_mem_cons, List.not_mem_nil, false_imp_iff, implies_true, and_true]
    refine ⟨⟨rfl, ?_, trivial, ?_, ?_, ?_⟩, ⟨rfl, ?_, trivial, ?_, ?_, ?_⟩, ⟨rfl, ?_, trivial, ?_, ?_, ?_⟩,
      rfl, ?_, trivial, ?_, ?_, ?_⟩ <;> first | decide +kernel | (unfold holds; decide +kernel) | (unfold nodeFault; decide +kernel)
  · generalize 511 = n
    exact unfinished_nones n
  · rw [nones_bytes]; exact holds_feed (by rw [List.length_replicate]; decide)
  · rw [List.length_replicate]
  · exact .inl ⟨by rw [List.length_replicate], by rw [List.length_replicate]⟩
  · have := ser_pos n
    have h1 := h.1
    simp only [show inAvail base = 0 by decide] at h1
    omega

theorem witness_PackAppendsTheRecord :
    (let s := filled 124 base;
      s.Inv ∧ s.fault = false ∧ s.cfg.outCap + 1 = s.olen.toNat + (4 + (s.blen.toNat + 7) / 8 + 1)) ∧
    (let s := filled 121 (base.setBits (bin "101100111"));
      s.Inv ∧ s.fault = false ∧ s.olen.toNat + (4 + (s.blen.toNat + 7) / 8 + 1) = s.cfg.outCap) ∧
    (1 < ((bin "101100111").length + 7) / 8 ∧ 8 * 1 + 0 < (bin "101100111").length ∧ 8 * 1 + 1 = (bin "101100111").length) :=
  ⟨⟨inv_filled inv_base (by decide), by decide +kernel⟩, ⟨inv_filled (inv_bits inv_base (by decide)) (by decide), by decide +kernel⟩,
    by decide +kernel⟩

theorem witness_UnpackReadsTheRecord :
    (let s := { base with ilen := 1025 }; s.fault = false ∧ s.cfg.inCap + 1 = s.ilen.toNat) ∧
    (let s := feed [0x09, 0x00, 0x00] base; s.fault = false ∧ s.ilen.toNat ≤ s.cfg.inCap ∧ inAvail s = 3) ∧
    (let s := feed [0x00, 0x00, 0x00, 0x80] base;
      s.fault = false ∧ s.ilen.toNat ≤ s.cfg.inCap ∧ inAvail s = 4 ∧ in32 s 0 = 2147483648) ∧
    (let s := feed [0xFF, 0xFF, 0xFF, 0x7F] base;
      s.fault = false ∧ s.ilen.toNat ≤ s.cfg.inCap ∧ inAvail s = 4 ∧ in32 s 0 = 2147483647 ∧ s.cfg.bitCap < in32 s 0) ∧
    (let s := feed [0x00, 0x01, 0x00, 0x00] base;
      s.fault = false ∧ s.ilen.toNat ≤ s.cfg.inCap ∧ in32 s 0 = s.cfg.bitCap ∧ 4 ≤ inAvail s ∧
        inAvail s < 4 + (in32 s 0 + 7) / 8 + 1) ∧
    (let s := feed [0x09, 0x00, 0x00, 0x00, 0xB3, 0x80, 0x01] base;
      s.fault = false ∧ s.ilen.toNat ≤ s.cfg.inCap ∧ in32 s 0 = 9 ∧ 4 + (in32 s 0 + 7) / 8 + 1 = inAvail s) := by
  decide +kernel

theorem witness_PackUnpackRoundTrip :
    let s := base.setBits (bin "101100111");
    let u := feed (packRecord 9 (bin "101100111")) base;
    s.Inv ∧ s.fault = false ∧ exec .pack s = .next (result .pack s) ∧ (result .pack s).fault = false ∧
      u.fault = false ∧ u.ilen.toNat ≤ u.cfg.inCap ∧ s.bits.length ≤ u.cfg.bitCap ∧ holds u 0 (packRecord 9 (bin "101100111")) :=
  ⟨inv_bits inv_base (by decide), rfl, exec_result _ _, by decide, rfl, by decide, by decide, holds_feed (by decide)⟩

theorem witness_UnpackIgnoresPaddingAndRemainder :
    let s := feed [0x09, 0x00, 0x00, 0x00, 0xB3, 0x80, 0x01] base;
    let m := (feed [0x09, 0x00, 0x00, 0x00, 0xB3, 0xFF, 0x00] base).inb;
    (∀ k < 4, inByte { s with inb := m } k = inByte s k) ∧
      (∀ k < in32 s 0, (inByte { s with inb := m } (4 + k / 8)).getLsbD (7 - k % 8) =
        (inByte s (4 + k / 8)).getLsbD (7 - k % 8)) ∧
      exec .unpack s = .next (result .unpack s) :=
  ⟨by decide +kernel, by decide +kernel, exec_result _ _⟩

theorem witness_CellBitsHaveTheirLayout :
    (Table.at (genCodes h1) red.sym = some [true] ∧ ([true] : Bits).length = 1 ∧ 0 ≤ 2147483647) ∧
    (Table.at (genCodes deepest) 255 = some (List.replicate 255 true) ∧ (List.replicate 255 true).length = 255 ∧
      2147483647 ≤ 2147483647) := ⟨by decide +kernel, deepest_code, List.length_replicate, by decide⟩

theorem witness_EncFullEncodesTheFrame :
    (base.Inv ∧ base.fault = false ∧ base.codeV = false) ∧
    (let s := { coded h1 base with clen := 5 };
      s.Inv ∧ s.fault = false ∧ s.codeV = true ∧ s.cfg.cellCap + 1 = s.clen.toNat) ∧
    (let s := put [red, noCode, noCode] (coded h1 base);
      s.Inv ∧ s.fault = false ∧ s.codeV = true ∧ s.clen.toNat ≤ s.cfg.cellCap ∧ (cur s)[1]? = some noCode ∧
        Table.at s.code noCode.sym = none ∧ (cur s)[0]? = some red ∧ Table.at s.code red.sym ≠ none) ∧
    (let s := put [red] (coded h1 (tight 32));
      s.Inv ∧ s.fault = false ∧ s.codeV = true ∧ s.clen.toNat ≤ s.cfg.cellCap ∧ cur s = [red] ∧
        Table.at s.code red.sym ≠ none ∧ s.cfg.bitCap + 1 = ((cur s).flatMap (cellBits s.code)).length) ∧
    (let s := filled 125 (put [red] (coded h1 (tight 33)));
      s.Inv ∧ s.fault = false ∧ s.codeV = true ∧ s.clen.toNat ≤ s.cfg.cellCap ∧ cur s = [red] ∧
        Table.at s.code red.sym ≠ none ∧ ((cur s).flatMap (cellBits s.code)).length = s.cfg.bitCap ∧
        s.cfg.outCap + 1 = s.olen.toNat + 4) ∧
    (let s := filled 124 (put [red, red, red, red] (coded h1 base));
      s.Inv ∧ s.fault = false ∧ s.codeV = true ∧ s.clen.toNat = s.cfg.cellCap ∧ cur s = [red, red, red, red] ∧
        Table.at s.code red.sym ≠ none ∧ ((cur s).flatMap (cellBits s.code)).length ≤ s.cfg.bitCap ∧
        s.olen.toNat + 4 = s.cfg.outCap) :=
  ⟨⟨inv_base, by decide⟩, ⟨{ inv_h1 with }, by decide⟩, ⟨inv_put inv_h1 (by decide), by decide +kernel⟩,
    ⟨inv_put (inv_coded (inv_tight (by decide)) (by decide)) (by decide), by decide +kernel⟩,
    ⟨inv_filled (inv_put (inv_coded (inv_tight (by decide)) (by decide)) (by decide)) (by decide), by decide +kernel⟩,
    inv_filled (inv_put inv_h1 (by decide)) (by decide), by decide +kernel⟩

theorem witness_EncDeltaEncodesTheChangedCells :
    (let s := withPrev [red] base; s.Inv ∧ s.fault = false ∧ s.codeV = false) ∧
    (let s := coded h1 base; s.Inv ∧ s.fault = false ∧ s.prevV = false) ∧
    (let s := { withPrev [red] (coded h1 base) with clen := 5 };
      s.Inv ∧ s.fault = false ∧ s.codeV = true ∧ s.prevV = true ∧ s.cfg.cellCap + 1 = s.clen.toNat) ∧
    (let s := put [green, noCode, noCode] (withPrev [red, red, red] (coded h1 base));
      s.Inv ∧ s.fault = false ∧ s.codeV = true ∧ s.prevV = true ∧ s.clen.toNat ≤ s.cfg.cellCap ∧
        changedCells s.prev s.plen.toNat (cur s) = [(green, 0), (noCode, 1), (noCode, 2)] ∧
        Table.at s.code noCode.sym = none ∧ Table.at s.code green.sym ≠ none) ∧
    (let s := put [red] (withPrev [] (coded h1 (tight 64)));
      s.Inv ∧ s.fault = false ∧ s.codeV = true ∧ s.prevV = true ∧ s.clen.toNat ≤ s.cfg.cellCap ∧
        changedCells s.prev s.plen.toNat (cur s) = [(red, 0)] ∧ Table.at s.code red.sym ≠ none ∧
        s.cfg.bitCap + 1 = ((changedCells s.prev s.plen.toNat (cur s)).flatMap (deltaBits s.code)).length) ∧
    (let s := filled 125 (put [red] (withPrev [] (coded h1 (tight 65))));
      s.Inv ∧ s.fault = false ∧ s.codeV = true ∧ s.prevV = true ∧ s.clen.toNat ≤ s.cfg.cellCap ∧
        changedCells s.prev s.plen.toNat (cur s) = [(red, 0)] ∧ Table.at s.code red.sym ≠ none ∧
        ((changedCells s.prev s.plen.toNat (cur s)).flatMap (deltaBits s.code)).length = s.cfg.bitCap ∧
        s.cfg.outCap + 1 = s.olen.toNat + 4) ∧
    (let s := filled 124 (put [red, green, red, red] (withPrev [red, red, red] (coded h1 base)));
      s.Inv ∧ s.fault = false ∧ s.codeV = true ∧ s.prevV = true ∧ s.clen.toNat = s.cfg.cellCap ∧
        changedCells s.prev s.plen.toNat (cur s) = [(green, 1), (red, 3)] ∧ Table.at s.code red.sym ≠ none ∧
        Table.at s.code green.sym ≠ none ∧
        ((changedCells s.prev s.plen.toNat (cur s)).flatMap (deltaBits s.code)).length ≤ s.cfg.bitCap ∧
        s.olen.toNat + 4 = s.cfg.outCap) :=
  ⟨⟨inv_withPrev inv_base (by decide), by decide⟩, ⟨inv_h1, by decide⟩,
    ⟨{ inv_withPrev (f := [red]) inv_h1 (by decide) with }, by decide⟩,
    ⟨inv_put (inv_withPrev inv_h1 (by decide)) (by decide), by decide +kernel⟩,
    ⟨inv_put (inv_withPrev (inv_coded (inv_tight (by decide)) (by decide)) (by decide)) (by decide), by decide +kernel⟩,
    ⟨inv_filled (inv_put (inv_withPrev (inv_coded (inv_tight (by decide)) (by decide)) (by decide)) (by decide)) (by decide),
      by decide +kernel⟩,
    inv_filled (inv_put (inv_withPrev inv_h1 (by decide)) (by decide)) (by decide), by decide +kernel⟩

theorem witness_UnchangedFrameEncodesToNineZeroBytes :
    let s := filled 119 (put [red, red, red] (withPrev [red, red, red] (coded h1 base)));
    s.Inv ∧ s.fault = false ∧ s.codeV = true ∧ s.prevV = true ∧ s.clen = s.plen ∧ cur s = s.prev ∧
      s.olen.toNat + 9 = s.cfg.outCap :=
  ⟨inv_filled (inv_put (inv_withPrev inv_h1 (by decide)) (by decide)) (by decide), by decide +kernel⟩

/-- H1's tree with bits. -/
def walking (b : String) : State := (withTree h1 base).setBits (bin b)

theorem witness_DecodeCellTestsInOrder :
    (let s := walking "0000000"; s.Inv ∧ s.blen.toNat + 1 = 0 + 8) ∧
    (let s := walking "00000001|0";
      s.Inv ∧ 0 + 8 ≤ s.blen.toNat ∧ Machine.decodeOne s (0 + 8) 0 = .error ⟨.malformedTree, 0, 8⟩) ∧
    (let s := walking "00000010|1";
      s.Inv ∧ 0 + 8 ≤ s.blen.toNat ∧ Machine.decodeOne s (0 + 8) 0 = .ok (0x41, 9) ∧ 9 ≠ 0 + 8 + val (bitsRead s 0 8)) ∧
    (let s := walking "00000001|1|1111111";
      s.Inv ∧ Machine.decodeOne s (0 + 8) 0 = .ok (0x41, 9) ∧ 9 = 0 + 8 + val (bitsRead s 0 8) ∧ s.blen.toNat + 1 = 9 + 8) ∧
    (let s := walking "00000001|1|11111111|0000000";
      s.Inv ∧ Machine.decodeOne s (0 + 8) 0 = .ok (0x41, 9) ∧ 9 = 0 + 8 + val (bitsRead s 0 8) ∧ 9 + 8 ≤ s.blen.toNat ∧
        s.blen.toNat + 1 = 9 + 16) ∧
    (let s := walking "00000001|1|11111111|00000000|0000000";
      s.Inv ∧ Machine.decodeOne s (0 + 8) 0 = .ok (0x41, 9) ∧ 9 = 0 + 8 + val (bitsRead s 0 8) ∧ 9 + 16 ≤ s.blen.toNat ∧
        s.blen.toNat + 1 = 9 + 24) ∧
    (let s := walking "00000001|1|11111111|00000000|00000000";
      s.Inv ∧ Machine.decodeOne s (0 + 8) 0 = .ok (0x41, 9) ∧ 9 = 0 + 8 + val (bitsRead s 0 8) ∧ 9 + 24 = s.blen.toNat) := by
  refine ⟨⟨?_, by decide +kernel⟩, ⟨?_, by decide +kernel⟩, ⟨?_, by decide +kernel⟩, ⟨?_, by decide +kernel⟩,
    ⟨?_, by decide +kernel⟩, ⟨?_, by decide +kernel⟩, ?_, by decide +kernel⟩ <;> exact inv_bits inv_h1tree (by decide)

theorem red_encoding : isCellEncoding h1 red redBits := ⟨[true], by decide, by decide, by decide⟩

theorem green_encoding : isCellEncoding h1 green greenBits := ⟨[false, true], by decide, by decide, by decide⟩

/-- F1's three cells. -/
def reds : Bits := redBits ++ (redBits ++ (redBits ++ []))

theorem witness_DecFullDecodesTheFrame :
    (let s := withCnt 0x80000000 base; s.Inv ∧ s.fault = false ∧ s.cnt.toNat = 2147483648) ∧
    (let s := withCnt 5 base; s.Inv ∧ s.fault = false ∧ s.cfg.cellCap + 1 = s.cnt.toNat) ∧
    (let s := withCnt 4 ((withTree h1 base).setBits reds);
      s.Inv ∧ s.fault = false ∧ s.cnt.toNat = s.cfg.cellCap ∧ decodeCells s 3 0 0 = .ok ([red, red, red], 99) ∧
        decodeCell s 99 3 = .error ⟨.truncatedStream, 8, 0⟩) ∧
    (let s := withCnt 3 ((withTree h1 base).setBits reds);
      s.Inv ∧ s.fault = false ∧ s.cnt.toNat = 3 ∧ s.tree = some h1 ∧ reds <+: s.bits ∧
        isFrameEncoding h1 [red, red, red] reds) ∧
    (base.Inv ∧ base.fault = false ∧ base.cnt.toNat = 0 ∧ base.tree = none) := by
  refine ⟨⟨inv_withCnt inv_base _, by decide⟩, ⟨inv_withCnt inv_base _, by decide⟩,
    ⟨inv_withCnt (inv_bits inv_h1tree (by decide)) _, by decide +kernel⟩,
    ⟨inv_withCnt (inv_bits inv_h1tree (by decide)) _, rfl, rfl, rfl, List.prefix_refl _, ?_⟩, inv_base, rfl, rfl, rfl⟩
  exact ⟨_, _, red_encoding, ⟨_, _, red_encoding, ⟨_, _, red_encoding, rfl, rfl⟩, rfl⟩, rfl⟩

theorem witness_DecDeltaAppliesTheUpdates :
    (base.Inv ∧ base.fault = false ∧ base.prevV = false) ∧
    (let s := withCnt 0x80000000 (withPrev [red, red, red] base);
      s.Inv ∧ s.fault = false ∧ s.prevV = true ∧ s.cnt.toNat = 2147483648) ∧
    (let s := withCnt 2 ((withPrev [red, red, red] (withTree h1 base)).setBits e2Bits);
      s.Inv ∧ s.fault = false ∧ s.prevV = true ∧ s.cnt.toNat ≤ 2147483647 ∧ 1 < s.cnt.toNat ∧
        decodeUpdates s 1 0 0 s.prev = .ok ([red, green, red], 66) ∧ s.blen.toNat < 66 + 32) ∧
    (let s := withCnt 1 ((withPrev [red, red, red] (withTree h1 base)).setBits (bits32 3));
      s.Inv ∧ s.fault = false ∧ s.prevV = true ∧ 0 < s.cnt.toNat ∧ decodeUpdates s 0 0 0 s.prev = .ok (s.prev, 0) ∧
        0 + 32 = s.blen.toNat ∧ val (bitsRead s 0 32) = s.plen.toNat) ∧
    (let s := withCnt 1 ((withPrev [red, red, red] (withTree h1 base)).setBits (bits32 2));
      s.Inv ∧ s.fault = false ∧ s.prevV = true ∧ 0 < s.cnt.toNat ∧ decodeUpdates s 0 0 0 s.prev = .ok (s.prev, 0) ∧
        0 + 32 = s.blen.toNat ∧ val (bitsRead s 0 32) + 1 = s.plen.toNat ∧
        decodeCell s (0 + 32) 0 = .error ⟨.truncatedStream, 8, 0⟩) ∧
    (let s := withCnt 1 ((withPrev [red, red] (withTree h1 base)).setBits e2Bits);
      s.Inv ∧ s.fault = false ∧ s.prevV = true ∧ s.cnt.toNat = 1 ∧ 1 + 1 = s.plen.toNat ∧ e2Bits <+: s.bits ∧
        s.tree = some h1 ∧ isDeltaEncoding h1 [(green, 1)] e2Bits) ∧
    (let s := withPrev [red, red, red] base; s.Inv ∧ s.fault = false ∧ s.prevV = true ∧ s.cnt.toNat = 0 ∧ s.tree = none) := by
  refine ⟨⟨inv_base, by decide⟩, ⟨inv_withCnt (inv_withPrev inv_base (by decide)) _, by decide⟩,
    ⟨inv_withCnt (inv_bits (inv_withPrev inv_h1tree (by decide)) (by decide)) _, by decide +kernel⟩,
    ⟨inv_withCnt (inv_bits (inv_withPrev inv_h1tree (by decide)) (by decide)) _, by decide +kernel⟩,
    ⟨inv_withCnt (inv_bits (inv_withPrev inv_h1tree (by decide)) (by decide)) _, by decide +kernel⟩,
    ⟨inv_withCnt (inv_bits (inv_withPrev inv_h1tree (by decide)) (by decide)) _, rfl, rfl, rfl, rfl, List.prefix_refl _, rfl, ?_⟩,
    inv_withPrev inv_base (by decide), by decide⟩
  exact ⟨_, _, green_encoding, rfl, by decide⟩

/-- A decoder's state: the tree, the previous frame, and the bits and count another state was left with. -/
def receiving (prev : Frame) (t : State) : State := { (withPrev prev (withTree h1 base)).setBits t.bits with cnt := t.cnt }

theorem inv_receiving {prev : Frame} {t : State} (hp : prev.length ≤ 4) (hb : t.bits.length ≤ 256) : (receiving prev t).Inv :=
  State.Inv.setCnt (inv_bits (inv_withPrev inv_h1tree hp) hb) t.cnt

/-- The encoder's state for a frame after another. -/
def sending (prev f : Frame) : State := put f (withPrev prev (coded h1 base))

theorem inv_sending {prev f : Frame} (hp : prev.length ≤ 4) (hf : f.length ≤ 4) : (sending prev f).Inv :=
  inv_put (inv_withPrev inv_h1 hp) hf

/-- What (a) and (b) of FrameRoundTrip suppose of the three states, when the command is `i`. -/
def handedOver (i : Instr) (s t v : State) : Prop :=
  s.Inv ∧ v.Inv ∧ s.fault = false ∧ t.fault = false ∧ v.fault = false ∧ v.tree = s.tree ∧ v.bits = t.bits ∧ v.cnt = t.cnt ∧
    exec i s = .next t

theorem handed {i : Instr} {p q f : Frame} (hp : p.length ≤ 4) (hf : f.length ≤ 4) (hq : q.length ≤ 4)
    (h : (result i (sending p f)).bits.length ≤ 256 ∧ (result i (sending p f)).fault = false) :
    handedOver i (sending p f) (result i (sending p f)) (receiving q (result i (sending p f))) :=
  ⟨inv_sending hp hf, inv_receiving hq h.1, rfl, h.2, rfl, rfl, rfl, rfl, exec_result _ _⟩

theorem witness_FrameRoundTrip :
    (let s := sending [] [red, red, red]; let t := result .encFull s; let v := receiving [] t;
      handedOver .encFull s t v ∧ t.cnt.toNat ≤ v.cfg.cellCap) ∧
    (let s := sending [red, red, red] [red, green, red]; let t := result .encDelta s; let v := receiving [red, red, red] t;
      handedOver .encDelta s t v ∧ v.prevV = true ∧ v.prev = s.prev ∧ (cur s).length = s.prev.length) ∧
    (let s := sending [red, red, red] [red, green, red, red]; let t := result .encDelta s; let v := receiving [red, red, red] t;
      handedOver .encDelta s t v ∧ v.prevV = true ∧ v.prev = s.prev ∧ s.prev.length < (cur s).length) ∧
    (let s := sending [red, red, red] [red, green]; let t := result .encDelta s; let v := receiving [red, red, red] t;
      handedOver .encDelta s t v ∧ v.prevV = true ∧ v.prev = s.prev ∧ (cur s).length < s.prev.length) := by
  exact ⟨⟨handed (by decide) (by decide) (by decide) (by decide +kernel), by decide +kernel⟩,
    ⟨handed (by decide) (by decide) (by decide) (by decide +kernel), by decide +kernel⟩,
    ⟨handed (by decide) (by decide) (by decide) (by decide +kernel), by decide +kernel⟩,
    handed (by decide) (by decide) (by decide) (by decide +kernel), by decide +kernel⟩

theorem witness_DecodersIgnoreWhatTheHostLeft :
    (let s := withCnt 3 ((withTree h1 base).setBits reds);
      s.fault = false ∧ exec .decFull s = .next (result .decFull s) ∧ (result .decFull s).fault = false ∧
        s.plen.toNat = s.prev.length) ∧
    (let s := withCnt 1 ((withPrev [red, red, red] (withTree h1 base)).setBits e2Bits);
      s.fault = false ∧ exec .decDelta s = .next (result .decDelta s) ∧ (result .decDelta s).fault = false ∧
        s.plen.toNat = s.prev.length) :=
  ⟨⟨rfl, exec_result _ _, by decide +kernel, rfl⟩, rfl, exec_result _ _, by decide +kernel, rfl⟩

theorem witness_Put32AppendsTheCount :
    (let s := withCnt 0x80000000 base; s.Inv ∧ s.fault = false ∧ s.cnt.toNat = 2147483648) ∧
    (let s := filled 125 (withCnt 0x7FFFFFFF base);
      s.Inv ∧ s.fault = false ∧ s.cnt.toNat = 2147483647 ∧ s.cfg.outCap + 1 = s.olen.toNat + 4) ∧
    (let s := filled 124 (withCnt 0x7FFFFFFF base);
      s.Inv ∧ s.fault = false ∧ s.cnt.toNat = 2147483647 ∧ s.olen.toNat + 4 = s.cfg.outCap) :=
  ⟨⟨inv_withCnt inv_base _, by decide⟩, ⟨inv_filled (inv_withCnt inv_base _) (by decide), by decide +kernel⟩,
    inv_filled (inv_withCnt inv_base _) (by decide), by decide +kernel⟩

theorem witness_Get32ReadsTheCount :
    (let s := { base with ilen := 1025 }; s.fault = false ∧ s.cfg.inCap + 1 = s.ilen.toNat) ∧
    (let s := feed [0x03, 0x00, 0x00] base; s.fault = false ∧ s.ilen.toNat ≤ s.cfg.inCap ∧ inAvail s = 3) ∧
    (let s := feed [0x00, 0x00, 0x00, 0x80] base;
      s.fault = false ∧ s.ilen.toNat ≤ s.cfg.inCap ∧ inAvail s = 4 ∧ in32 s 0 = 2147483648) ∧
    (let s := feed [0xFF, 0xFF, 0xFF, 0x7F] base;
      s.fault = false ∧ s.ilen.toNat ≤ s.cfg.inCap ∧ inAvail s = 4 ∧ in32 s 0 = 2147483647) := by decide +kernel

theorem witness_FaultsArePrecise :
    exec .buildTree base = .next (result .buildTree base) ∧ base.fault = false ∧ (result .buildTree base).fault = true :=
  ⟨exec_result _ _, rfl, by decide +kernel⟩

theorem witness_MissingStateIsIllegalState :
    (base.Inv ∧ base.fault = false ∧ base.treeV = false ∧ base.codeV = false ∧ base.prevV = false) ∧
    (let s := withCnt 4 (base.setBits (bin "00000001"));
      s.Inv ∧ s.fault = false ∧ s.treeV = false ∧ 1 ≤ s.cnt.toNat ∧ s.cnt.toNat ≤ 2147483647 ∧
        s.cnt.toNat = s.cfg.cellCap ∧ 8 = s.blen.toNat) ∧
    (let s := withCnt 1 ((withPrev [red, red, red] base).setBits (bits32 2 ++ bin "00000001"));
      s.Inv ∧ s.fault = false ∧ s.treeV = false ∧ s.prevV = true ∧ 1 = s.cnt.toNat ∧ s.cnt.toNat ≤ 2147483647 ∧
        40 = s.blen.toNat ∧ val (bitsRead s 0 32) + 1 = s.plen.toNat) :=
  ⟨⟨inv_base, by decide⟩, ⟨inv_withCnt (inv_bits inv_base (by decide)) _, by decide +kernel⟩,
    inv_withCnt (inv_bits (inv_withPrev inv_base (by decide)) (by decide)) _, by decide +kernel⟩

theorem witness_LengthsAreTestedFirst :
    let s := { withPrev [red] (coded h1 base) with clen := 5, ilen := 1025 };
    s.fault = false ∧ s.cfg.cellCap + 1 = s.clen.toNat ∧ s.codeV = true ∧ s.prevV = true ∧ s.cfg.inCap + 1 = s.ilen.toNat := by
  decide

theorem witness_ANewTreeMakesTheCodeTableStale :
    (let s := withFreq [(0x41, 1)] (coded h1 base);
      exec .buildTree s = .next (result .buildTree s) ∧ s.fault = false ∧ (result .buildTree s).fault = false) ∧
    (let s := feed [0x01, 0x41] (coded h1 base);
      exec .treeRd s = .next (result .treeRd s) ∧ s.fault = false ∧ (result .treeRd s).fault = false) :=
  ⟨⟨exec_result _ _, rfl, by decide +kernel⟩, exec_result _ _, rfl, by decide +kernel⟩

/-- The flags before and after a command: tree, code, previous frame, fault. -/
def flags (i : Instr) (s : State) : List Bool × List Bool :=
  ([s.treeV, s.codeV, s.prevV, s.fault], [(result i s).treeV, (result i s).codeV, (result i s).prevV, (result i s).fault])

/-- Each change of a flag that some command makes; every state and command has its next state by `exec_result`. -/
theorem witness_FlagsChangeOnlyAsTheTableSays :
    flags .buildTree (withFreq [(0x41, 1)] base) = ([false, false, false, false], [true, false, false, false]) ∧
    flags .genCodes (withTree h1 base) = ([true, false, false, false], [true, true, false, false]) ∧
    flags .treeRd (feed [0x01, 0x41] (coded h1 base)) = ([true, true, false, false], [true, false, false, false]) ∧
    flags .encFull (put [red] (coded h1 base)) = ([true, true, false, false], [true, true, true, false]) ∧
    flags .decFull base = ([false, false, false, false], [false, false, true, false]) ∧
    flags .buildTree base = ([false, false, false, false], [false, false, false, true]) ∧
    flags .reset ((withPrev [red] (coded h1 base)).raise ⟨.emptyInput, 0, 0⟩) =
      ([true, true, true, true], [false, false, false, false]) := by decide +kernel

theorem witness_CommandsWriteOnlyTheirOperands :
    Instr.put32 ≠ .reset ∧ exec .put32 (withCnt 3 base) = .next (result .put32 (withCnt 3 base)) ∧
      (result .put32 (withCnt 3 base)).fault = false := ⟨by decide, exec_result _ _, by decide⟩

theorem witness_CommandsLeaveTheRestOfTheWindows :
    (let s := filled 5 (withCnt 3 base); s.Inv ∧ exec .put32 s = .next (result .put32 s) ∧
      4 < s.olen.toNat ∧ (result .put32 s).olen.toNat ≤ 9) ∧
    (let s := withCnt 3 ((withTree h1 base).setBits reds);
      s.Inv ∧ exec .decFull s = .next (result .decFull s) ∧ (result .decFull s).clen.toNat ≤ 3) :=
  ⟨⟨inv_filled (inv_withCnt inv_base _) (by decide), exec_result _ _, by decide +kernel⟩,
    inv_withCnt (inv_bits inv_h1tree (by decide)) _, exec_result _ _, by decide +kernel⟩

theorem witness_DecodingIsExactlyTheOpcodeMap :
    (0x00000100 : Word).toNat / 256 ≠ 0 ∧ ((0x00000015 : Word).toNat / 256 = 0 ∧ ∀ i, (0x00000015 : Word) ≠ encode i) :=
  ⟨by decide, by decide, fun i => by cases i <;> decide⟩

theorem witness_EveryWordIsDispatched :
    (base.raise ⟨.emptyInput, 0, 0⟩).fault = true ∧ (0x00000101 : Word) ≠ 0x00000001 ∧
    (base.fault = false ∧ ∀ i, (0x00000015 : Word) ≠ encode i) ∧ (0x00000012 : Word) = encode .buildTree :=
  ⟨rfl, by decide, ⟨rfl, fun i => by cases i <;> decide⟩, rfl⟩

theorem witness_StepRunsTheDecodedCommand :
    (base.withFetchWord 32 0x12).hostQueue = .write 0x00 4 0x00000012 :: [] ∧ decode 0x00000012 = .ok .buildTree ∧
    (base.withFetchWord 32 0x100).hostQueue = .write 0x00 4 0x00000100 :: [] ∧ decode 0x00000100 = .error .reservedBits := by
  decide

theorem witness_IdleEngineHoldsItsState : base.hostQueue = [] := rfl

theorem witness_RegisterReadsFollowTheMap :
    (0x38 ≤ 0x38 ∧ 0x38 ≤ 0xFF ∧ 0x38 % 4 = 0) ∧ (0x38 ≤ 0xFC ∧ 0xFC ≤ 0xFF ∧ 0xFC % 4 = 0) := by decide

theorem witness_RegisterWritesFollowTheMap :
    0x34 ∈ [0x04, 0x08, 0x0C, 0x10, 0x18, 0x20, 0x28, 0x30, 0x34] ∧
    (0x38 ≤ 0x38 ∧ 0x38 ≤ 0xFF ∧ 0x38 % 4 = 0) ∧ (0x38 ≤ 0xFC ∧ 0xFC ≤ 0xFF ∧ 0xFC % 4 = 0) := by decide

theorem witness_WindowAccessesFollowTheMap :
    base.cfg.WellFormed ∧ 1023 < base.cfg.inCap ∧ 127 < base.cfg.outCap ∧ 3 < base.cfg.cellCap :=
  ⟨small_wf, by decide⟩

theorem witness_OnlyUndefinedAccessesAreRefused :
    (let s := { base with hostQueue := [.read 0x60C 4] };
      s.cfg.WellFormed ∧ s.hostQueue = .read 0x60C 4 :: [] ∧ HostAccess.defined s.cfg (.read 0x60C 4)) ∧
    (let s := { base with hostQueue := [.read 0x610 4] };
      s.cfg.WellFormed ∧ s.hostQueue = .read 0x610 4 :: [] ∧ ¬ HostAccess.defined s.cfg (.read 0x610 4)) := by
  refine ⟨⟨small_wf, rfl, .inr (.inr (.inr ⟨3, by decide, rfl, rfl⟩))⟩, small_wf, rfl, ?_⟩
  rintro (⟨h, -⟩ | ⟨k, -, -, h⟩ | ⟨k, -, -, h⟩ | ⟨k, hk, h, -⟩)
  · exact absurd h (by decide)
  · exact absurd h (by decide)
  · exact absurd h (by decide)
  · simp only [base, small] at hk h; omega

theorem witness_InvariantHoldsAtReset : small.WellFormed := small_wf

theorem witness_EveryStepKeepsTheInvariant :
    (base.Inv ∧ step base = .next base) ∧
    (let s := base.withFetchWord 32 0x12; s.Inv ∧ step s = exec .buildTree base ∧
      exec .buildTree base = .next (result .buildTree base)) :=
  ⟨⟨inv_base, rfl⟩, { inv_base with }, rfl, exec_result _ _⟩

theorem witness_CellsLieInTheirWords :
    (0 < (put [red] base).clen.toNat) ∧
    (let s := withCnt 1 ((withTree h1 base).setBits redBits);
      s.Inv ∧ exec .decFull s = .next (result .decFull s) ∧ s.fault = false ∧ (result .decFull s).fault = false ∧
      (result .decFull s).prev[0]? = some red ∧ curWord (result .decFull s) 0 = 0x41FF0000) ∧
    (let s := withCnt 0 (withPrev [green] base);
      s.Inv ∧ exec .decDelta s = .next (result .decDelta s) ∧ s.fault = false ∧ (result .decDelta s).fault = false ∧
      (result .decDelta s).prev[0]? = some green ∧ curWord (result .decDelta s) 0 = 0x4200FF00) :=
  ⟨by decide, ⟨inv_withCnt (inv_bits inv_h1tree (by decide)) _, exec_result _ _, by decide +kernel⟩,
    inv_withCnt (inv_withPrev inv_base (by decide)) _, exec_result _ _, by decide +kernel⟩

theorem witness_CompressThenDecompressIsTheVideo :
    base.cfg.WellFormed ∧ (∃ f ∈ [[red]], f ≠ []) ∧ (∀ f ∈ [[red]], f.length = 1) ∧ [[red]].length ≤ 2147483647 ∧
      1 ≤ base.cfg.cellCap ∧ base.cfg.bitCap ≤ base.cfg.bitCap ∧
      ∃ b t, compress [[red]] base = .ok (b, t) ∧ b.length ≤ base.cfg.inCap := by
  obtain ⟨t, ht⟩ := made_eq test_compress
  exact ⟨small_wf, ⟨[red], by simp, by simp⟩, by simp, by simp, by decide, Nat.le_refl _, _, t, ht, by decide⟩

end Sys2Proof.Tests
end

/-! SUPPORT. The statements about the state as a whole (10_state.md): the invariant, the flags, the windows, the host's port, and the decoders' frame. -/

namespace Sys2Proof.Machine

/-! ### RESET and the end of every command -/

theorem exec_reset (s : State) : exec .reset s = .next s.afterReset := rfl

/-- Every command ends in a next state (rule R290). -/
theorem exec_next (i : Instr) (s : State) : ∃ t, exec i s = .next t := by
  by_cases hi : i = .reset
  · exact ⟨s.afterReset, by rw [hi, exec_reset]⟩
  · rw [exec_effect hi]
    exact runCommand_next _ _

/-- Every word written to `CMD` is run, ignored or made a fault (rule R91). -/
theorem writeCmd_next (w : Word) (s : State) : ∃ t, writeCmd w s = .next t := by
  simp only [writeCmd]
  split
  · exact exec_next _ s
  · exact runCommand_next _ _

theorem writeReg_next (r : Reg) (v : Word) (s : State) : ∃ t, writeReg r v s = .next t := by
  cases r
  case cmd => exact writeCmd_next v s
  all_goals exact ⟨_, rfl⟩

theorem writePlace_next (p : Place) (v : Word) (s : State) : ∃ t, writePlace p v s = .next t := by
  cases p with
  | register o =>
    simp only [writePlace]
    split
    · exact writeReg_next _ v s
    · exact ⟨s, rfl⟩
  | inb k | outb k | curw k => exact ⟨_, rfl⟩

/-! ### Every step keeps the invariant (rule R49) -/

namespace State.Inv

variable {s t : State}

theorem exec (h : s.Inv) {i : Instr} (he : exec i s = .next t) : t.Inv := by
  by_cases hi : i = .reset
  · subst hi
    cases he
    exact h.afterReset
  · rcases exec_inv hi he with ⟨-, rfl⟩ | ⟨-, -, hok⟩ | ⟨-, r, herr, rfl⟩
    · exact h
    · exact effectOf_inv h hok
    · exact h.raise (effectOf_error herr).1

theorem writeCmd (h : s.Inv) {w : Word} (he : writeCmd w s = .next t) : t.Inv := by
  simp only [Machine.writeCmd] at he
  split at he
  · exact h.exec he
  · rcases runCommand_cases he with ⟨-, rfl⟩ | ⟨-, hok⟩ | ⟨-, r, herr, rfl⟩
    · exact h
    · cases hok
    · cases herr
      exact h.raise (by simp)

theorem writeReg (h : s.Inv) {r : Reg} {v : Word} (he : writeReg r v s = .next t) : t.Inv := by
  cases r
  case cmd => exact h.writeCmd he
  all_goals
    cases he
    exact { h with }

/-- The host writes windows only where an access lands, below their capacities (rules R62 and R82). -/
theorem writePlace (h : s.Inv) {addr width : Nat} {p : Place} {v : Word} (hp : placeOf s.cfg addr width = .ok p)
    (he : writePlace p v s = .next t) : t.Inv := by
  cases p with
  | register o =>
    simp only [Machine.writePlace] at he
    split at he
    · exact h.writeReg he
    · cases he
      exact h
  | inb k =>
    cases he
    exact { h with
      inbForm := Memory.wf_write h.inbForm _ _
      inbBound := Memory.forall_write (P := (· < s.cfg.inCap)) h.inbBound (placeOf_inb_bound hp) }
  | outb k =>
    cases he
    exact h
  | curw i =>
    cases he
    exact { h with
      curwForm := Memory.wf_write h.curwForm _ _
      curwBound := Memory.forall_write (P := (· < s.cfg.cellCap)) h.curwBound (placeOf_curw_bound hp) }

theorem hostAccess (h : s.Inv) {a : HostAccess} (he : hostAccess a s = .next t) : t.Inv := by
  cases a with
  | read addr width =>
    simp only [Machine.hostAccess] at he
    split at he
    · cases he
      exact { h with }
    · cases he
  | write addr width v =>
    simp only [Machine.hostAccess] at he
    split at he
    · next hp => exact h.writePlace hp he
    · cases he

end State.Inv

/-- Settles O49: with no access waiting nothing changes, and every access, the write of a command included, keeps the invariant. -/
theorem everyStepKeepsTheInvariant : Obligations.EveryStepKeepsTheInvariant := by
  intro s t h he
  simp only [step, nextAccess] at he
  split at he
  · cases he
    exact h
  · next rest _ =>
    have hrest : ({ s with hostQueue := rest } : State).Inv := { h with }
    exact hrest.hostAccess he

/-! ### The reset values (rule R48) -/

theorem unbounded_wellFormed : Config.unbounded.WellFormed := (configWf_iff _).1 (by decide)

/-- Settles O48: power-on is the reset state of its own part. -/
theorem invariantHoldsAtReset : Obligations.InvariantHoldsAtReset :=
  ⟨inv_resetWith unbounded_wellFormed 0 [] 0, fun _ hc => inv_resetWith hc 0 [] 0⟩

/-- The reset state of any part, at any epoch and with anything on the host's side, holds the values of rule R48. -/
theorem hasResetValues_resetWith (c : Config) (e : Nat) (q : List HostAccess) (d : Word) :
    ({ State.reset with cfg := c, epoch := e, hostQueue := q, rdata := d } : State).hasResetValues := by
  simp [State.hasResetValues, State.reset, inbByte, outbByte, curWord]

/-- Settles O1: power-on and RESET leave one state up to the part, the epoch and the host's side. -/
theorem powerOnAndResetLeaveTheResetValues : Obligations.PowerOnAndResetLeaveTheResetValues :=
  ⟨hasResetValues_resetWith Config.unbounded 0 [] 0, fun s =>
    ⟨s.afterReset, exec_reset s, hasResetValues_resetWith s.cfg (s.epoch + 1) s.hostQueue s.rdata⟩⟩

/-! ### Flags (rule R37) -/

/-- The flags a command that succeeds leaves. -/
structure FlagsAfter (i : Instr) (s t : State) : Prop where
  treeV : t.treeV = (decide (i = .buildTree ∨ i = .treeRd) || s.treeV)
  codeV : t.codeV = (decide (i = .genCodes) || (!decide (i = .buildTree ∨ i = .treeRd) && s.codeV))
  prevV : t.prevV = (decide (i = .encFull ∨ i = .decFull) || s.prevV)

theorem effectOf_flags {i : Instr} {s t : State} (h : effectOf i s = .ok t) : FlagsAfter i s t := by
  cases i
  case nop | reset => cases h; exact ⟨rfl, rfl, rfl⟩
  case freqClr => rw [freqClrEffect_eq_ok.1 h]; exact ⟨rfl, rfl, rfl⟩
  case freqAcc => rw [(freqAccEffect_eq_ok.1 h).2.2]; exact ⟨rfl, rfl, rfl⟩
  case buildTree => obtain ⟨n, -, rfl⟩ := buildTreeEffect_eq_ok.1 h; exact ⟨rfl, rfl, rfl⟩
  case genCodes => obtain ⟨n, -, rfl⟩ := genCodesEffect_eq_ok.1 h; exact ⟨rfl, rfl, rfl⟩
  case decodeOne => obtain ⟨_, _, -, rfl⟩ := decodeOneEffect_eq_ok.1 h; exact ⟨rfl, rfl, rfl⟩
  case treeWr => obtain ⟨n, -, -, rfl⟩ := treeWrEffect_eq_ok.1 h; exact ⟨rfl, rfl, rfl⟩
  case treeRd => obtain ⟨-, n, -, -, rfl⟩ := treeRdEffect_eq_ok.1 h; exact ⟨rfl, rfl, rfl⟩
  case pack => obtain ⟨-, rfl⟩ := packEffect_eq_ok.1 h; exact ⟨rfl, rfl, rfl⟩
  case unpack => obtain ⟨-, -, -, -, rfl⟩ := unpackEffect_eq_ok.1 h; exact ⟨rfl, rfl, rfl⟩
  case encFull => obtain ⟨-, -, -, -, -, rfl⟩ := encFullEffect_eq_ok.1 h; exact ⟨rfl, rfl, rfl⟩
  case decFull => obtain ⟨-, -, _, _, -, rfl⟩ := decFullEffect_eq_ok.1 h; exact ⟨rfl, rfl, rfl⟩
  case encDelta => obtain ⟨-, -, -, -, -, rfl⟩ := encDeltaEffect_eq_ok.1 h; exact ⟨rfl, rfl, rfl⟩
  case decDelta => obtain ⟨-, -, _, _, -, rfl⟩ := decDeltaEffect_eq_ok.1 h; exact ⟨rfl, rfl, rfl⟩
  case put32 => obtain ⟨-, -, rfl⟩ := put32Effect_eq_ok.1 h; exact ⟨rfl, rfl, rfl⟩
  case get32 => obtain ⟨-, -, -, rfl⟩ := get32Effect_eq_ok.1 h; exact ⟨rfl, rfl, rfl⟩

/-- Settles O35: RESET clears every flag; any other command is ignored, succeeds with the flags of its row, or faults with all but `FAULT` kept. -/
theorem flagsChangeOnlyAsTheTableSays : Obligations.FlagsChangeOnlyAsTheTableSays := by
  intro i s t he
  by_cases hi : i = .reset
  · subst hi
    cases he
    simp
  · rcases exec_inv hi he with ⟨hf, rfl⟩ | ⟨hs, ht, hok⟩ | ⟨hs, r, -, rfl⟩
    · simp +contextual [hf]
    · obtain ⟨htree, hcode, hprev⟩ := effectOf_flags hok
      rw [htree, hcode, hprev, hs, ht]
      by_cases h1 : i = .buildTree ∨ i = .treeRd
      · rcases h1 with rfl | rfl <;> simp
      · by_cases h2 : i = .genCodes
        · simp [h2]
        · simp +contextual [h1, h2, hi]
    · simp +contextual [hs]

/-! ### The decoded frame in its place (rule R42) -/

/-- What a decoder that succeeds leaves: the words of the frame it put in `PREV`, from `CURW[0]` on, and its length in `CLEN`. -/
structure DecodedFrame (s t : State) : Prop where
  clen : t.clen.toNat = t.prev.length
  curw : t.curw = Memory.writeRun s.curw 0 (t.prev.map wordOfCell)

theorem decodedFrame_of_effectOf {i : Instr} (hi : i = .decFull ∨ i = .decDelta) {s t : State}
    (hp : s.plen.toNat = s.prev.length) (h : effectOf i s = .ok t) : DecodedFrame s t := by
  rcases hi with rfl | rfl
  · obtain ⟨-, -, f, c, hd, rfl⟩ := decFullEffect_eq_ok.1 h
    exact ⟨(decodeCells_length hd).symm, rfl⟩
  · obtain ⟨-, -, f, c, hd, rfl⟩ := decDeltaEffect_eq_ok.1 h
    exact ⟨hp.trans (decodeUpdates_length hd).symm, rfl⟩

/-- A window that holds the words of a frame is the one `putFrame` leaves. -/
theorem curWord_of_writeRun {t : State} {m : Memory 32} {f : Frame} (h : t.curw = Memory.writeRun m 0 (f.map wordOfCell))
    {k : Nat} (hk : k < f.length) : curWord t k = wordOfCell f[k] := by
  have hput : curWord t k = curWord (State.putFrame { t with curw := m } f t.clen 0) k := by
    simp only [curWord, State.putFrame, h]
  rw [hput, curWord_putFrame, dif_pos hk]

theorem cur_of_writeRun {t : State} {m : Memory 32} {f : Frame} (h : t.curw = Memory.writeRun m 0 (f.map wordOfCell))
    (hn : t.clen.toNat = f.length) : cur t = f := by
  have hput : cur t = cur (State.putFrame { t with curw := m } f t.clen 0) := by
    simp only [cur, curWord, State.putFrame, h]
  rw [hput, cur_putFrame _ _ hn]

theorem wordOfCell_eq_append (c : Cell) : wordOfCell c = c.sym ++ c.r ++ c.g ++ c.b := by
  apply BitVec.eq_of_toNat_eq
  simp only [BitVec.toNat_append, ← Nat.shiftLeft_add_eq_or_of_lt (BitVec.isLt _)]
  have := c.sym.isLt; have := c.r.isLt; have := c.g.isLt; have := c.b.isLt
  simp only [wordOfCell, BitVec.toNat_ofNat, Nat.shiftLeft_eq]
  omega

/-- Settles O51: by the definition of `CUR`, and by the decoders' frame. -/
theorem cellsLieInTheirWords : Obligations.CellsLieInTheirWords := by
  refine ⟨fun s => ⟨by simp [cur], fun k hk => by simp [cur, cellOfWord, hk]⟩, ?_⟩
  intro i s t hinv hi he hs ht
  have hne : i ≠ .reset := by rcases hi with rfl | rfl <;> simp
  rcases exec_inv hne he with ⟨hf, -⟩ | ⟨-, -, hok⟩ | ⟨-, r, -, rfl⟩
  · simp [hs] at hf
  · obtain ⟨hlen, hcurw⟩ := decodedFrame_of_effectOf hi hinv.plenIsLength hok
    refine ⟨hlen, fun k c hc => ?_⟩
    obtain ⟨hk, rfl⟩ := List.getElem?_eq_some_iff.1 hc
    rw [curWord_of_writeRun hcurw hk, wordOfCell_eq_append]
  · simp at ht

/-! ### The decoders and what the host left (rules R27, R42 and R281) -/

/-- `s` with other values in what the host may have written before a decoder runs. -/
def State.hostLeft (s : State) (b c l : Word) (m : Memory 32) : State := { s with bc := b, clen := c, ilen := l, curw := m }

/-- What a decoder left, `t`, had it run with `ILEN = l` and the window `m`: `BC` and `CLEN` are its own. -/
def State.redecoded (t : State) (l : Word) (m : Memory 32) : State :=
  { t with ilen := l, curw := Memory.writeRun m 0 (t.prev.map wordOfCell) }

/-- A decoder does the same, fault or success, whatever the host left. -/
theorem effectOf_hostLeft {i : Instr} (hi : i = .decFull ∨ i = .decDelta) (s : State) (b c l : Word) (m : Memory 32) :
    effectOf i (s.hostLeft b c l m) = (·.redecoded l m) <$> effectOf i s := by
  have hcell : ∀ p j, decodeCell (s.hostLeft b c l m) p j = decodeCell s p j := decodeCell_congr rfl rfl rfl
  rcases hi with rfl | rfl
  · simp only [effectOf, decFullEffect, decodeCells_congr hcell, map_bind]
    rfl
  · have hup : ∀ n j p w, decodeUpdates (s.hostLeft b c l m) n j p w = decodeUpdates s n j p w :=
      decodeUpdates_congr rfl rfl rfl hcell
    simp only [effectOf, decDeltaEffect, hup, map_bind]
    rfl

/-- Settles O28: the two runs raise the same fault, or leave one frame in two windows. -/
theorem decodersIgnoreWhatTheHostLeft : Obligations.DecodersIgnoreWhatTheHostLeft := by
  intro i s t b c l m hi hs he hp
  have hne : i ≠ .reset := by rcases hi with rfl | rfl <;> simp
  have hleft := effectOf_hostLeft hi s b c l m
  rcases exec_inv hne he with ⟨hf, -⟩ | ⟨-, -, hok⟩ | ⟨-, r, herr, rfl⟩
  · simp [hs] at hf
  · rw [hok] at hleft
    obtain ⟨hlen, hcurw⟩ := decodedFrame_of_effectOf hi hp hok
    refine ⟨t.redecoded l m, exec_ok hne hs hleft, rfl, rfl, rfl, rfl, rfl, fun _ => ⟨?_, rfl, rfl⟩⟩
    rw [cur_of_writeRun hcurw hlen]
    exact cur_of_writeRun (m := m) rfl hlen
  · rw [herr] at hleft
    exact ⟨_, exec_error hne hs hleft, rfl, rfl, rfl, rfl, rfl, fun ht => by simp at ht⟩

/-! ### The windows (rules R42, R44, R69 and R70) -/

/-- What a command other than RESET does to the windows: `INB` stays, `OUTB` stays or has bytes appended at `OLEN`, and `CURW` stays or takes a decoded frame. -/
structure WindowsAfter (i : Instr) (s t : State) : Prop where
  epoch : t.epoch = s.epoch
  inb : t.inb = s.inb
  output : (t.outb = s.outb ∧ t.olen = s.olen) ∨ (i ∈ [Instr.treeWr, .pack, .put32, .encFull, .encDelta] ∧
    ∃ bs, s.olen.toNat + bs.length ≤ s.cfg.outCap ∧ t.outb = (appended s bs).outb ∧ t.olen = (appended s bs).olen)
  frame : t.curw = s.curw ∨ (i ∈ [Instr.decFull, .decDelta] ∧ DecodedFrame s t)

theorem WindowsAfter.kept {i : Instr} {s t : State} (hepoch : t.epoch = s.epoch) (hinb : t.inb = s.inb)
    (houtb : t.outb = s.outb) (holen : t.olen = s.olen) (hcurw : t.curw = s.curw) : WindowsAfter i s t :=
  ⟨hepoch, hinb, .inl ⟨houtb, holen⟩, .inl hcurw⟩

theorem effectOf_windows {i : Instr} {s t : State} (hp : s.plen.toNat = s.prev.length) (h : effectOf i s = .ok t) :
    WindowsAfter i s t := by
  have frame := fun hi => decodedFrame_of_effectOf (i := i) hi hp h
  cases i
  case nop | reset => cases h; exact .kept rfl rfl rfl rfl rfl
  case freqClr => rw [freqClrEffect_eq_ok.1 h]; exact .kept rfl rfl rfl rfl rfl
  case freqAcc => obtain ⟨-, -, rfl⟩ := freqAccEffect_eq_ok.1 h; exact .kept rfl rfl rfl rfl rfl
  case buildTree => obtain ⟨n, -, rfl⟩ := buildTreeEffect_eq_ok.1 h; exact .kept rfl rfl rfl rfl rfl
  case genCodes => obtain ⟨n, -, rfl⟩ := genCodesEffect_eq_ok.1 h; exact .kept rfl rfl rfl rfl rfl
  case decodeOne => obtain ⟨_, _, -, rfl⟩ := decodeOneEffect_eq_ok.1 h; exact .kept rfl rfl rfl rfl rfl
  case treeRd => obtain ⟨-, n, -, -, rfl⟩ := treeRdEffect_eq_ok.1 h; exact .kept rfl rfl rfl rfl rfl
  case unpack => obtain ⟨-, -, -, -, rfl⟩ := unpackEffect_eq_ok.1 h; exact .kept rfl rfl rfl rfl rfl
  case get32 => obtain ⟨-, -, -, rfl⟩ := get32Effect_eq_ok.1 h; exact .kept rfl rfl rfl rfl rfl
  case treeWr =>
    obtain ⟨n, -, hr, rfl⟩ := treeWrEffect_eq_ok.1 h
    exact ⟨rfl, rfl, .inr ⟨by simp, _, hr, rfl, rfl⟩, .inl rfl⟩
  case pack =>
    obtain ⟨hr, rfl⟩ := packEffect_eq_ok.1 h
    exact ⟨rfl, rfl, .inr ⟨by simp, _, by simpa using hr, rfl, rfl⟩, .inl rfl⟩
  case put32 =>
    obtain ⟨-, hr, rfl⟩ := put32Effect_eq_ok.1 h
    exact ⟨rfl, rfl, .inr ⟨by simp, le32 s.cnt.toNat, hr, rfl, rfl⟩, .inl rfl⟩
  case encFull =>
    obtain ⟨-, -, -, -, hr, rfl⟩ := encFullEffect_eq_ok.1 h
    exact ⟨rfl, rfl, .inr ⟨by simp, le32 s.clen.toNat, hr, rfl, rfl⟩, .inl rfl⟩
  case encDelta =>
    obtain ⟨-, -, -, -, hr, rfl⟩ := encDeltaEffect_eq_ok.1 h
    exact ⟨rfl, rfl, .inr ⟨by simp, le32 (changedCells s.prev s.plen.toNat (cur s)).length, hr, rfl, rfl⟩, .inl rfl⟩
  case decFull =>
    have hd := frame (.inl rfl)
    obtain ⟨-, -, _, _, -, rfl⟩ := decFullEffect_eq_ok.1 h
    exact ⟨rfl, rfl, .inl ⟨rfl, rfl⟩, .inr ⟨by simp, hd⟩⟩
  case decDelta =>
    have hd := frame (.inr rfl)
    obtain ⟨-, -, _, _, -, rfl⟩ := decDeltaEffect_eq_ok.1 h
    exact ⟨rfl, rfl, .inl ⟨rfl, rfl⟩, .inr ⟨by simp, hd⟩⟩

/-- A command ignored or faulting leaves the windows as they are (rules R250 and R251). -/
theorem exec_windows {i : Instr} (hi : i ≠ .reset) {s t : State} (hp : s.plen.toNat = s.prev.length)
    (h : exec i s = .next t) : WindowsAfter i s t := by
  rcases exec_inv hi h with ⟨-, rfl⟩ | ⟨-, -, hok⟩ | ⟨-, r, -, rfl⟩
  · exact .kept rfl rfl rfl rfl rfl
  · exact effectOf_windows hp hok
  · exact .kept rfl rfl rfl rfl rfl

theorem inbByte_congr {s t : State} (he : t.epoch = s.epoch) (hi : t.inb = s.inb) (k : Nat) : inbByte t k = inbByte s k := by
  simp only [inbByte, he, hi]

theorem outbByte_congr {s t : State} (he : t.epoch = s.epoch) (ho : t.outb = s.outb) (hl : t.olen = s.olen) (k : Nat) :
    outbByte t k = outbByte s k := by
  simp only [outbByte, he, ho, hl]

theorem curWord_congr {s t : State} (he : t.epoch = s.epoch) (hc : t.curw = s.curw) (k : Nat) :
    curWord t k = curWord s k := by
  simp only [curWord, he, hc]

/-- A decoded frame leaves every word above it alone. -/
theorem DecodedFrame.curWord_above {s t : State} (h : DecodedFrame s t) (he : t.epoch = s.epoch) {j : Nat}
    (hj : t.clen.toNat ≤ j) : curWord t j = curWord s j := by
  have hfind : Memory.find? t.curw j = Memory.find? s.curw j := by
    rw [h.curw, Memory.find?_writeRun_other _ _ (.inr (by simpa [← h.clen] using hj))]
  simp only [curWord, he, hfind]

/-- Settles O37: what a command appends lies between `OLEN` before and `OLEN` after, and a decoded frame below `CLEN`. -/
theorem commandsLeaveTheRestOfTheWindows : Obligations.CommandsLeaveTheRestOfTheWindows := by
  intro i s t hinv hi h
  obtain ⟨hepoch, hinb, houtput, hframe⟩ := exec_windows hi hinv.plenIsLength h
  have hcur : ∀ j, i ∉ [Instr.decFull, .decDelta] ∨ t.clen.toNat ≤ j → curWord t j = curWord s j := by
    intro j hj
    rcases hframe with hsame | ⟨hmem, hd⟩
    · exact curWord_congr hepoch hsame j
    · exact hd.curWord_above hepoch (hj.resolve_left (absurd hmem))
  rcases houtput with ⟨houtb, holen⟩ | ⟨hmem, bs, hroom, houtb, holen⟩
  · have hout := outbByte_congr hepoch houtb holen
    exact ⟨inbByte_congr hepoch hinb, by rw [holen], fun k _ => hout k, fun _ => hout, hcur⟩
  · have hlt := hinv.room hroom
    have hlen : t.olen.toNat = s.olen.toNat + bs.length := by rw [holen, appended_olen hlt]
    have hout : ∀ k, outbByte t k = outbByte (appended s bs) k := outbByte_congr hepoch houtb holen
    refine ⟨inbByte_congr hepoch hinb, by omega, fun k hk => ?_, fun hn => absurd hmem hn, hcur⟩
    rw [hout, appended_outbByte hlt]
    rcases hk with hk | hk
    · rw [if_pos hk]
    · rw [if_neg (by omega), dif_neg (by omega)]

/-! ### The host's port (rules R34, R47 and R62) -/

theorem hostAccess_read {s : State} {addr width : Nat} {p : Place} (hp : placeOf s.cfg addr width = .ok p) :
    hostAccess (.read addr width) s = .next { s with rdata := readPlace s p } := by
  simp only [hostAccess, hp]

theorem hostAccess_write {s : State} {addr width : Nat} {p : Place} (hp : placeOf s.cfg addr width = .ok p) (v : Word) :
    hostAccess (.write addr width v) s = writePlace p v s := by
  simp only [hostAccess, hp]

/-- An access the spec defines goes on. -/
theorem hostAccess_defined {s : State} {a : HostAccess} (hc : s.cfg.WellFormed) (ha : a.defined s.cfg) :
    ∃ t, hostAccess a s = .next t := by
  cases a with
  | read addr width =>
    obtain ⟨p, hp⟩ := (placeOf_defined hc).2 ha
    exact ⟨_, hostAccess_read hp⟩
  | write addr width v =>
    obtain ⟨p, hp⟩ := (placeOf_defined hc).2 ha
    rw [hostAccess_write hp]
    exact writePlace_next p v s

theorem placeOf_undefined {c : Config} {addr width : Nat} (hc : c.WellFormed)
    (h : ¬ HostAccess.defined c (.read addr width)) : ∃ r, placeOf c addr width = .error r := by
  cases hp : placeOf c addr width with
  | ok p => exact absurd ((placeOf_defined hc).1 ⟨p, hp⟩) h
  | error r => exact ⟨r, rfl⟩

/-- Any other access is refused. -/
theorem hostAccess_undefined {s : State} {a : HostAccess} (hc : s.cfg.WellFormed) (ha : ¬ a.defined s.cfg) :
    ∃ r, hostAccess a s = .refused r := by
  cases a with
  | read addr width | write addr width v =>
    obtain ⟨r, hr⟩ := placeOf_undefined hc ha
    exact ⟨r, by simp only [hostAccess, hr]⟩

theorem step_idle {s : State} (h : s.hostQueue = []) : step s = .next s := by
  simp only [step, nextAccess, h]

theorem step_access {s : State} {a : HostAccess} {rest : List HostAccess} (h : s.hostQueue = a :: rest) :
    step s = hostAccess a { s with hostQueue := rest } := by
  simp only [step, nextAccess, h]

/-- Settles O47: an idle step goes on, and an access goes on exactly when the spec defines it. -/
theorem onlyUndefinedAccessesAreRefused : Obligations.OnlyUndefinedAccessesAreRefused := by
  intro s hc
  have hrefused : ∀ a rest, s.hostQueue = a :: rest → ¬ a.defined s.cfg → ∃ r, step s = .refused r := by
    intro a rest hq ha
    rw [step_access hq]
    exact hostAccess_undefined hc ha
  refine ⟨⟨fun ⟨t, ht⟩ a rest hq => ?_, fun hdef => ?_⟩, hrefused⟩
  · by_contra ha
    obtain ⟨r, hr⟩ := hrefused a rest hq ha
    simp [ht] at hr
  · cases hq : s.hostQueue with
    | nil => exact ⟨s, step_idle hq⟩
    | cons a rest =>
      rw [safeStep, step_access hq]
      exact hostAccess_defined hc (hdef a rest hq)

/-- Settles O42: an access at offset 0 is a write to `CMD`. -/
theorem stepRunsTheDecodedCommand : Obligations.StepRunsTheDecodedCommand := by
  intro s w rest hq
  have hstep : step s = writeCmd w { s with hostQueue := rest } :=
    (step_access hq).trans (hostAccess_writeReg .cmd w _)
  refine ⟨fun i hi => ?_, fun e he => ?_⟩
  · rw [hstep, writeCmd, hi]
  · rw [hstep, writeCmd, he]
    rfl

theorem hostAccess_read_reserved {s : State} {o : Nat} (h1 : 0x38 ≤ o) (h2 : o ≤ 0xFF) (ha : o % 4 = 0) :
    hostAccess (.read o 4) s = .next { s with rdata := 0 } := by
  rw [hostAccess_read (placeOf_register (by omega) ha)]
  simp only [readPlace, regAt_reserved h1]

theorem hostAccess_write_reserved {s : State} {o : Nat} (h1 : 0x38 ≤ o) (h2 : o ≤ 0xFF) (ha : o % 4 = 0) (v : Word) :
    hostAccess (.write o 4 v) s = .next s := by
  rw [hostAccess_write (placeOf_register (by omega) ha)]
  simp only [writePlace, regAt_reserved h1]

/-- Settles O44: one register of the map after another, then the reserved offsets. -/
theorem registerReadsFollowTheMap : Obligations.RegisterReadsFollowTheMap := by
  intro s
  have byte : ∀ v : Byte, (v.setWidth 32).toNat = v.toNat := fun v => by
    rw [BitVec.toNat_setWidth_of_le (by decide)]
  exact ⟨hostAccess_readReg .cmd s, ⟨_, hostAccess_readReg .status s, status_bits s⟩,
    ⟨_, hostAccess_readReg .err s, byte _⟩, hostAccess_readReg .errInfo0 s, hostAccess_readReg .errInfo1 s,
    hostAccess_readReg .cnt s, ⟨_, hostAccess_readReg .sym s, byte _⟩, hostAccess_readReg .bc s,
    hostAccess_readReg .blen s, hostAccess_readReg .clen s, hostAccess_readReg .plen s, hostAccess_readReg .ilen s,
    hostAccess_readReg .ipos s, hostAccess_readReg .olen s, fun _ => hostAccess_read_reserved⟩

theorem writeReg_readOnly {r : Reg} (h : r ∉ [Reg.cmd, .cnt, .bc, .clen, .ilen]) (v : Word) (s : State) :
    writeReg r v s = .next s := by
  cases r
  case cmd | cnt | bc | clen | ilen => simp at h
  all_goals rfl

theorem readOnly_offset : ∀ o ∈ [0x04, 0x08, 0x0C, 0x10, 0x18, 0x20, 0x28, 0x30, 0x34],
    ∃ r ∈ allRegs, r.offset = o ∧ r ∉ [Reg.cmd, .cnt, .bc, .clen, .ilen] := by decide

/-- Settles O45: the four writable registers, the nine read-only ones, and the reserved offsets. -/
theorem registerWritesFollowTheMap : Obligations.RegisterWritesFollowTheMap := by
  intro s v
  refine ⟨hostAccess_writeReg .cnt v s, hostAccess_writeReg .bc v s, hostAccess_writeReg .clen v s,
    hostAccess_writeReg .ilen v s, fun o ho => ?_, fun o h1 h2 ha => hostAccess_write_reserved h1 h2 ha v⟩
  obtain ⟨r, -, rfl, hr⟩ := readOnly_offset o ho
  exact (hostAccess_writeReg r v s).trans (writeReg_readOnly hr v s)

theorem inbByte_write_same (s : State) (k : Nat) (v : Byte) :
    inbByte { s with inb := Memory.write s.inb k v } k = v := by
  simp [inbByte, Memory.find?_write_same]

theorem inbByte_write_other (s : State) {j k : Nat} (h : j ≠ k) (v : Byte) :
    inbByte { s with inb := Memory.write s.inb k v } j = inbByte s j := by
  simp [inbByte, Memory.find?_write_other _ h]

theorem curWord_write_same (s : State) (k : Nat) (v : Word) :
    curWord { s with curw := Memory.write s.curw k v } k = v := by
  simp [curWord, Memory.find?_write_same]

theorem curWord_write_other (s : State) {j k : Nat} (h : j ≠ k) (v : Word) :
    curWord { s with curw := Memory.write s.curw k v } j = curWord s j := by
  simp [curWord, Memory.find?_write_other _ h]

/-- Settles O46: each window address of a well-formed part lands at its own location. -/
theorem windowAccessesFollowTheMap : Obligations.WindowAccessesFollowTheMap := by
  intro s v hc
  refine ⟨fun k hk => ?_, fun k hk => ?_, fun k hk => ?_⟩
  · have hp := placeOf_inb hc hk
    exact ⟨hostAccess_read hp, _, hostAccess_write hp v, rfl,
      (inbByte_write_same s k _).trans (BitVec.setWidth_eq_extractLsb' (by decide)), fun j hj => inbByte_write_other s hj _⟩
  · have hp := placeOf_outb hc hk
    exact ⟨hostAccess_read hp, hostAccess_write hp v⟩
  · have hp := placeOf_curw hc hk
    exact ⟨hostAccess_read hp, _, hostAccess_write hp v, rfl, curWord_write_same s k v,
      fun j hj => curWord_write_other s hj v⟩

end Sys2Proof.Machine

/-! SUPPORT. The statements about when a command may run (20_memory.md): the encoders after a new tree. -/

namespace Sys2Proof.Machine

/-! ### A new tree makes the code table stale (rules R80 and R278) -/

/-- ENC_FULL tests `CODE_V` before anything else (rule R185). -/
theorem effectOf_encFull_of_noCode {s : State} (h : s.codeV = false) :
    effectOf .encFull s = .error ⟨.illegalState, 0x40, (status s).toNat⟩ := by
  have htest : ¬s.codeV = true := by simp [h]
  simp only [effectOf, encFullEffect, require_false htest, error_bind']

/-- ENC_DELTA tests `CODE_V` and `PREV_V` before anything else (rule R195). -/
theorem effectOf_encDelta_of_notReady {s : State} (h : ¬(s.codeV = true ∧ s.prevV = true)) :
    effectOf .encDelta s = .error ⟨.illegalState, 0x42, (status s).toNat⟩ := by
  simp only [effectOf, encDeltaEffect, require_false h, error_bind']

/-- Settles O34: by the table of rule R37 the new tree clears `CODE_V`, the flag that both encoders test first. -/
theorem aNewTreeMakesTheCodeTableStale : Obligations.ANewTreeMakesTheCodeTableStale := by
  intro i s t hi he hs ht
  obtain ⟨-, -, -, -, -, -, -, -, hsuccess⟩ := flagsChangeOnlyAsTheTableSays i s t he
  obtain ⟨htree, hcode⟩ := (hsuccess hs ht).1 hi
  exact ⟨htree, exec_error (by simp) ht (effectOf_encFull_of_noCode hcode),
    exec_error (by simp) ht (effectOf_encDelta_of_notReady (by simp [hcode]))⟩

end Sys2Proof.Machine

/-! SUPPORT. The statements about encoding (30_encoding.md): command words, what each command writes, and the layout of records and cells. -/

namespace Sys2Proof.Machine

/-! ### Command words (rules R90 to R94) -/

/-- The reserved field is what a word has above its opcode. -/
theorem fieldRsv_eq_zero_iff (w : Word) : fieldRsv w = 0 ↔ w.toNat / 256 = 0 := by
  have hw := word_fields w
  have hop := (fieldOpcode w).isLt
  rw [← BitVec.toNat_inj, show (0 : BitVec 24).toNat = 0 from rfl]
  omega

theorem decode_reserved {w : Word} (h : w.toNat / 256 ≠ 0) : decode w = .error .reservedBits :=
  if_pos (mt (fieldRsv_eq_zero_iff w).1 h)

/-- With its reserved field 0, a word is rejected only for its opcode. -/
theorem decode_unassigned {w : Word} (hr : w.toNat / 256 = 0) (h : ∀ i, w ≠ encode i) :
    decode w = .error .unassignedOpcode := by
  have hrsv : ¬fieldRsv w ≠ 0 := by simpa using (fieldRsv_eq_zero_iff w).2 hr
  cases hop : opcodeInstr (fieldOpcode w) with
  | none => simp only [decode, if_neg hrsv, hop]
  | some i => exact absurd (decode_eq_ok.1 (by simp only [decode, if_neg hrsv, hop])) (h i)

/-- Settles O39: the decoder inverts the encoder, and the reserved field is tested before the opcode. -/
theorem decodingIsExactlyTheOpcodeMap : Obligations.DecodingIsExactlyTheOpcodeMap :=
  ⟨fun _ _ => decode_eq_ok, fun _ => decode_reserved, fun _ => decode_unassigned⟩

/-- Settles O40: of the rows of the map, exactly one is a command's, the one with its word. -/
theorem wordsOfTheOpcodeMapDecode : Obligations.WordsOfTheOpcodeMapDecode := by
  intro w i
  rw [decode_eq_ok]
  cases i <;> simp [encode]

/-! ### The dispatcher (rule R91) -/

theorem writeCmd_encode (i : Instr) (s : State) : writeCmd (encode i) s = exec i s := by
  rw [writeCmd, decode_encode]

theorem writeCmd_illegal {w : Word} (h : ∀ i, w ≠ encode i) (s : State) : writeCmd w s = illegalCommand w s := by
  cases hd : decode w with
  | ok i => exact absurd (decode_eq_ok.1 hd) (h i)
  | error e => rw [writeCmd, hd]

/-- While `FAULT = 1` every word but RESET's is ignored, a command or not (rule R254). -/
theorem writeCmd_ignored {w : Word} {s : State} (hf : s.fault = true) (hw : w ≠ encode .reset) :
    writeCmd w s = .next s := by
  by_cases h : ∃ i, w = encode i
  · obtain ⟨i, rfl⟩ := h
    rw [writeCmd_encode]
    exact exec_ignored (fun hi => hw (congrArg encode hi)) hf
  · rw [writeCmd_illegal (not_exists.1 h)]
    exact runCommand_ignored hf _

/-- Settles O41: a word is a command's or no command's, and RESET's is 1. -/
theorem everyWordIsDispatched : Obligations.EveryWordIsDispatched := by
  intro w s
  refine ⟨fun _ hw => ?_, fun hf hw => writeCmd_ignored hf hw, fun hf h => ?_, fun _ i hw => ?_⟩
  · rw [hw]
    exact writeCmd_encode .reset s
  · rw [writeCmd_illegal h]
    exact runCommand_error hf _
  · rw [hw, writeCmd_encode]

/-! ### What a command writes (rule R93) -/

/-- `s` with what rule R93 says the command `i` writes taken from `t`: the column "writes" of its table, for a command that succeeds. -/
def State.withOperands (s : State) (i : Instr) (t : State) : State :=
  { s with
    freq := if i ∈ [Instr.freqClr, .freqAcc] then t.freq else s.freq
    tree := if i ∈ [Instr.buildTree, .treeRd] then t.tree else s.tree
    treeV := if i ∈ [Instr.buildTree, .treeRd] then t.treeV else s.treeV
    code := if i = .genCodes then t.code else s.code
    codeV := if i ∈ [Instr.buildTree, .treeRd, .genCodes] then t.codeV else s.codeV
    sym := if i = .decodeOne then t.sym else s.sym
    bc := if i ∈ [Instr.decodeOne, .unpack, .encFull, .decFull, .encDelta, .decDelta] then t.bc else s.bc
    outb := if i ∈ [Instr.treeWr, .pack, .put32, .encFull, .encDelta] then t.outb else s.outb
    olen := if i ∈ [Instr.treeWr, .pack, .put32, .encFull, .encDelta] then t.olen else s.olen
    ipos := if i ∈ [Instr.treeRd, .unpack, .get32] then t.ipos else s.ipos
    bits := if i ∈ [Instr.unpack, .encFull, .encDelta] then t.bits else s.bits
    blen := if i ∈ [Instr.unpack, .encFull, .encDelta] then t.blen else s.blen
    cnt := if i ∈ [Instr.encFull, .encDelta, .get32] then t.cnt else s.cnt
    prev := if i ∈ [Instr.encFull, .decFull, .encDelta, .decDelta] then t.prev else s.prev
    plen := if i ∈ [Instr.encFull, .decFull, .encDelta, .decDelta] then t.plen else s.plen
    prevV := if i ∈ [Instr.encFull, .decFull] then t.prevV else s.prevV
    curw := if i ∈ [Instr.decFull, .decDelta] then t.curw else s.curw
    clen := if i ∈ [Instr.decFull, .decDelta] then t.clen else s.clen }

/-- A command that succeeds writes its operands and nothing else. -/
theorem effectOf_withOperands {i : Instr} {s t : State} (h : effectOf i s = .ok t) : t = s.withOperands i t := by
  cases i
  case nop | reset => cases h; rfl
  case freqClr => rw [freqClrEffect_eq_ok.1 h]; rfl
  case freqAcc => obtain ⟨-, -, rfl⟩ := freqAccEffect_eq_ok.1 h; rfl
  case buildTree => obtain ⟨n, -, rfl⟩ := buildTreeEffect_eq_ok.1 h; rfl
  case genCodes => obtain ⟨n, -, rfl⟩ := genCodesEffect_eq_ok.1 h; rfl
  case decodeOne => obtain ⟨_, _, -, rfl⟩ := decodeOneEffect_eq_ok.1 h; rfl
  case treeWr => obtain ⟨n, -, -, rfl⟩ := treeWrEffect_eq_ok.1 h; rfl
  case treeRd => obtain ⟨-, n, -, -, rfl⟩ := treeRdEffect_eq_ok.1 h; rfl
  case pack => obtain ⟨-, rfl⟩ := packEffect_eq_ok.1 h; rfl
  case unpack => obtain ⟨-, -, -, -, rfl⟩ := unpackEffect_eq_ok.1 h; rfl
  case encFull => obtain ⟨-, -, -, -, -, rfl⟩ := encFullEffect_eq_ok.1 h; rfl
  case decFull => obtain ⟨-, -, _, _, -, rfl⟩ := decFullEffect_eq_ok.1 h; rfl
  case encDelta => obtain ⟨-, -, -, -, -, rfl⟩ := encDeltaEffect_eq_ok.1 h; rfl
  case decDelta => obtain ⟨-, -, _, _, -, rfl⟩ := decDeltaEffect_eq_ok.1 h; rfl
  case put32 => obtain ⟨-, -, rfl⟩ := put32Effect_eq_ok.1 h; rfl
  case get32 => obtain ⟨-, -, -, rfl⟩ := get32Effect_eq_ok.1 h; rfl

/-- Settles O36: a command ignored changes nothing, one that faults only `FAULT` and the error registers, and one that succeeds only its operands. -/
theorem commandsWriteOnlyTheirOperands : Obligations.CommandsWriteOnlyTheirOperands := by
  intro i s t hi he
  rcases exec_inv hi he with ⟨-, rfl⟩ | ⟨-, -, hok⟩ | ⟨-, r, -, rfl⟩
  · simp
  · have keeps : ∀ {α : Type} (field : State → α), field t = field (s.withOperands i t) :=
      fun field => congrArg field (effectOf_withOperands hok)
    exact ⟨fun h => (keeps (·.freq)).trans (if_neg h),
      fun h => ⟨(keeps (·.tree)).trans (if_neg h), (keeps (·.treeV)).trans (if_neg h)⟩,
      fun h => (keeps (·.code)).trans (if_neg h), fun h => (keeps (·.codeV)).trans (if_neg h),
      fun h => (keeps (·.sym)).trans (if_neg h), fun h => (keeps (·.bc)).trans (if_neg h),
      fun h => ⟨(keeps (·.outb)).trans (if_neg h), (keeps (·.olen)).trans (if_neg h)⟩,
      fun h => (keeps (·.ipos)).trans (if_neg h),
      fun h => ⟨(keeps (·.bits)).trans (if_neg h), (keeps (·.blen)).trans (if_neg h)⟩,
      fun h => (keeps (·.cnt)).trans (if_neg h),
      fun h => ⟨(keeps (·.prev)).trans (if_neg h), (keeps (·.plen)).trans (if_neg h)⟩,
      fun h => (keeps (·.prevV)).trans (if_neg h),
      fun h => ⟨(keeps (·.curw)).trans (if_neg h), (keeps (·.clen)).trans (if_neg h)⟩,
      fun _ => ⟨keeps (·.err), keeps (·.errInfo0), keeps (·.errInfo1)⟩,
      keeps (·.inb), keeps (·.ilen), keeps (·.cfg), keeps (·.epoch), keeps (·.hostQueue), keeps (·.rdata)⟩
  · simp

/-! ### UNPACK reads only the bits counted (rules R105 and R170) -/

theorem inBytes_getD (s : State) (k : Nat) {n i : Nat} (h : i < n) : (inBytes s k n).getD i 0 = inByte s (k + i) := by
  simp [inBytes, List.getD_eq_getElem?_getD, h]

/-- The unpacked bits are those counted, each at its place in the data bytes (rule R171). -/
theorem unpackBits_inBytes (s : State) (k n : Nat) : unpackBits (inBytes s k (ceil8 n)) n =
    (List.range n).map fun j => (inByte s (k + j / 8)).getLsbD (7 - j % 8) := by
  refine List.map_congr_left fun j hj => ?_
  have hbyte : j / 8 < ceil8 n := by
    have := List.mem_range.1 hj
    simp only [ceil8]
    omega
  rw [inBytes_getD s k hbyte]

theorem in32_congr {s t : State} (h : ∀ k < 4, inByte t k = inByte s k) : in32 t 0 = in32 s 0 := by
  simp only [in32, Nat.zero_add, h 0 (by decide), h 1 (by decide), h 2 (by decide), h 3 (by decide)]

/-- UNPACK does the same, fault or success, from a window with the same count field and the same bits counted. -/
theorem effectOf_unpack_inb {s : State} {m : Memory 8} (hcount : ∀ k < 4, inByte { s with inb := m } k = inByte s k)
    (hbits : ∀ k < in32 s 0,
      (inByte { s with inb := m } (4 + k / 8)).getLsbD (7 - k % 8) = (inByte s (4 + k / 8)).getLsbD (7 - k % 8)) :
    effectOf .unpack { s with inb := m } = (fun t : State => { t with inb := m }) <$> effectOf .unpack s := by
  have hunpack : unpackBits (inBytes { s with inb := m } 4 (ceil8 (in32 s 0))) (in32 s 0) =
      unpackBits (inBytes s 4 (ceil8 (in32 s 0))) (in32 s 0) := by
    rw [unpackBits_inBytes, unpackBits_inBytes]
    exact List.map_congr_left fun k hk => hbits k (List.mem_range.1 hk)
  simp only [effectOf, unpackEffect, in32_congr hcount, hunpack, map_bind]
  rfl

/-- Settles O18: the two runs are ignored, raise the same fault, or read the same bits. -/
theorem unpackIgnoresPaddingAndRemainder : Obligations.UnpackIgnoresPaddingAndRemainder := by
  intro s t m hcount hbits he
  have hunpack := effectOf_unpack_inb hcount hbits
  rcases exec_inv (by simp) he with ⟨hf, rfl⟩ | ⟨hs, -, hok⟩ | ⟨hs, r, herr, rfl⟩
  · exact exec_ignored (by simp) hf
  · rw [hok] at hunpack
    exact exec_ok (by simp) hs hunpack
  · rw [herr] at hunpack
    exact exec_error (by simp) hs hunpack

/-! ### The layout of a cell (rules R102 and R103) -/

theorem bits8_ofNat {n : Nat} (h : n ≤ 255) : bits8 (BitVec.ofNat 8 n) = bitsN 8 n := by
  rw [bits8, BitVec.toNat_ofNat, Nat.mod_eq_of_lt (by omega)]

/-- Settles O19: by the definitions of the two formats, and `bitsN_getD` for the order of the bits in a field. -/
theorem cellBitsHaveTheirLayout : Obligations.CellBitsHaveTheirLayout := by
  intro code c k i hk _ hlen _
  have hcell := cellBits_length hk
  refine ⟨?_, hcell, rfl, ?_, fun v j hj => bitsN_getD v.toNat hj, fun j hj => bitsN_getD i hj⟩
  · rw [bits8_ofNat hlen]
    simp only [cellBits, hk, Option.getD_some]
  · rw [deltaBits, List.length_append, bits32_length, hcell]
    omega

/-! ### A frame equal to the previous one (rules R101, R165 and R195) -/

/-- What ENC_DELTA leaves when no cell is changed: the change count 0 appended, and no bits. -/
def State.deltaOfNone (s : State) : State :=
  { (appended s (le32 0)).setBits [] with cnt := 0 }.setPrev (cur s) s.clen

theorem effectOf_encDelta_unchanged {s : State} (h : s.Inv) (hv : s.codeV = true ∧ s.prevV = true) (hlen : s.clen = s.plen)
    (hcur : cur s = s.prev) (hroom : s.olen.toNat + 4 ≤ s.cfg.outCap) : effectOf .encDelta s = .ok s.deltaOfNone := by
  have hnone : changedCells s.prev s.plen.toNat (cur s) = [] := by
    rw [hcur, h.plenIsLength]
    exact changedCells_self s.prev
  refine encDeltaEffect_eq_ok.2 ⟨hv, hlen ▸ h.plenBound, ?_, ?_, hroom, ?_⟩ <;> rw [hnone]
  · simp
  · simp
  · rfl

/-- Settles O23: no cell is changed, so ENC_DELTA appends the four bytes of the count 0 and PACK the five of an empty record. -/
theorem unchangedFrameEncodesToNineZeroBytes : Obligations.UnchangedFrameEncodesToNineZeroBytes := by
  intro s hinv hs hc hp hlen hcur hroom
  have hdelta := effectOf_encDelta_unchanged hinv ⟨hc, hp⟩ hlen hcur (by omega)
  have ht : s.deltaOfNone.fault = false := (effectOf_fault hdelta).trans hs
  have hlt := hinv.room hroom
  have hcount : (le32 0).length = 4 := le32_length 0
  have hrecord : (packRecord 0 []).length = 5 := packRecord_length 0 []
  have holen : s.deltaOfNone.olen.toNat = s.olen.toNat + 4 := appended_olen (bs := le32 0) (by omega)
  have hpack : effectOf .pack s.deltaOfNone = .ok (appended s.deltaOfNone (packRecord 0 [])) :=
    outAppend_room (show s.deltaOfNone.olen.toNat + (packRecord 0 []).length ≤ s.cfg.outCap by omega)
  have hout : out (appended s.deltaOfNone (packRecord 0 [])) = out s ++ List.replicate 9 0x00 := calc
    out (appended s.deltaOfNone (packRecord 0 []))
      = out (appended s (le32 0)) ++ packRecord 0 [] := out_appended (by omega)
    _ = out s ++ le32 0 ++ packRecord 0 [] := by rw [out_appended (by omega)]
    _ = out s ++ List.replicate 9 0x00 := List.append_assoc ..
  exact ⟨_, _, exec_ok (by simp) hs hdelta, exec_ok (by simp) ht hpack, ht, (effectOf_fault hpack).trans ht, rfl, rfl, rfl,
    hout⟩

end Sys2Proof.Machine

/-! SUPPORT. The statements about the Huffman coder (40_huffman_coder.md): the counters, the tree builder, the code table and the walk. -/

namespace Sys2Proof.Machine

/-! ### The counters (rules R120 and R121) -/

/-- Settles O4: the table FREQ_CLR writes has the count 0 at every symbol. -/
theorem freqClrZeroesEveryCounter : Obligations.FreqClrZeroesEveryCounter := by
  intro s hs
  exact ⟨_, exec_ok (by simp) hs (freqClrEffect_eq_ok.2 rfl), Table.at_make _, rfl⟩

/-- The lowest counter that would pass `2^64 - 1` is the one reported. -/
theorem accumulate_overflow {freq : Table (BitVec 64)} {f : Frame} {x : Byte}
    (hx : 2 ^ 64 ≤ (Table.at freq x).toNat + symCount f x)
    (hlow : ∀ y : Byte, y.toNat < x.toNat → (Table.at freq y).toNat + symCount f y < 2 ^ 64) :
    accumulate freq f = .error ⟨.capacityExceeded, (Table.at freq x).toNat + symCount f x, 2 ^ 64 - 1⟩ := by
  have hfirst : (allSymbols.find? fun y => decide (2 ^ 64 ≤ (Table.at freq y).toNat + symCount f y)) = some x :=
    find?_allSymbols (decide_eq_true hx) fun y hy => decide_eq_false (Nat.not_le.2 (hlow y hy))
  simp only [accumulate, hfirst]

/-- FREQ_ACC tests `CLEN` before it counts. -/
theorem freqAccEffect_long {s : State} (h : s.cfg.cellCap < s.clen.toNat) :
    freqAccEffect s = .error ⟨.capacityExceeded, s.clen.toNat, s.cfg.cellCap⟩ := by
  simp only [freqAccEffect, requireFrame, require_false (Nat.not_le.2 h), error_bind']

/-- With `CLEN` within bounds, FREQ_ACC faults as the addition does. -/
theorem freqAccEffect_overflow {s : State} {r : Raise} (h : s.clen.toNat ≤ s.cfg.cellCap)
    (ha : accumulate s.freq (cur s) = .error r) : freqAccEffect s = .error r := by
  simp only [freqAccEffect, requireFrame, require_true h, ok_bind', ha, error_bind']

/-- Settles O5: `CLEN` is tested first, then the sums in ascending order of symbols, and sums that pass fit their counters. -/
theorem freqAccCountsTheSymbolsOfTheFrame : Obligations.FreqAccCountsTheSymbolsOfTheFrame := by
  intro s hs
  simp only [← symCount_cur]
  refine ⟨fun hlong => ?_, fun hlen x hx hlow => ?_, fun hlen hsum => ?_⟩
  · exact exec_error (by simp) hs (freqAccEffect_long hlong)
  · exact exec_error (by simp) hs (freqAccEffect_overflow hlen (accumulate_overflow hx hlow))
  · refine ⟨_, exec_ok (by simp) hs (freqAccEffect_eq_ok.2 ⟨hlen, hsum, rfl⟩), fun x => ?_, rfl⟩
    rw [Table.at_make, BitVec.toNat_ofNat, Nat.mod_eq_of_lt (hsum x)]

/-! ### The tree builder (rules R125 to R129) -/

/-- Settles O6: the loop's tree is a run of both relations, and of the tie rule's the only one. -/
theorem buildTreeFollowsTheTieRule : Obligations.BuildTreeFollowsTheTieRule := by
  intro s hs
  refine ⟨fun hzero => ?_, fun ⟨x, hx⟩ => ?_⟩
  · have hnone := buildDet_none (countedSymbols_eq_nil.2 hzero)
    exact exec_error (by simp) hs (by simp only [effectOf, buildTreeEffect, hnone])
  · have hcounted : countedSymbols s.freq ≠ [] := fun hnil => hx (countedSymbols_eq_nil.1 hnil x)
    obtain ⟨n, hn, hrun, hunique⟩ := buildDet_det hcounted
    obtain ⟨n', hn', hhuffman⟩ := buildDet_huffman hcounted
    obtain rfl : n = n' := Option.some.inj (hn.symm.trans hn')
    exact ⟨n, exec_ok (by simp) hs (buildTreeEffect_eq_ok.2 ⟨n, hn, rfl⟩), hrun, hunique, hhuffman⟩

theorem mem_countedSymbols {freq : Table (BitVec 64)} {x : Byte} : x ∈ countedSymbols freq ↔ Table.at freq x ≠ 0 := by
  rw [countedSymbols, List.mem_filter, and_iff_right (mem_allSymbols x), decide_eq_true_eq, Nat.pos_iff_ne_zero]
  exact not_congr (BitVec.toNat_inj (y := 0))

/-- Only a single leaf has one leaf: both subtrees of an internal node have some (rule R129 (d)). -/
theorem Node.eq_leaf_of_leaves {n : Node} {x : Byte} (h : n.leaves = [x]) : n = .leaf x := by
  cases n with
  | leaf y => rw [List.singleton_inj.1 h]
  | internal l r =>
    have hlen := congrArg List.length h
    have hl := l.leaves_pos
    have hr := r.leaves_pos
    simp only [Node.leaves, List.length_append, List.length_singleton] at hlen
    omega

/-- Settles O7: the leaves are the counted symbols in some order, and the rest is the shape of any binary tree. -/
theorem everyHuffmanTreeHasTheCountedLeaves : Obligations.EveryHuffmanTreeHasTheCountedLeaves := by
  intro freq n h
  exact ⟨h.leaves_nodup, fun x => h.leaves_perm.mem_iff.trans mem_countedSymbols, n.size_add_one, h.size_le, n.depth_lt,
    fun x => Node.eq_leaf_of_leaves⟩

/-! ### The code table (rules R133 to R135) -/

/-- Settles O8: by the table's entries, which are what `visit` leaves at the last leaf of each symbol. -/
theorem genCodesTabulatesTheLeafPaths : Obligations.GenCodesTabulatesTheLeafPaths := by
  intro s hs
  refine ⟨fun hv => ?_, fun n hv hn => ?_⟩
  · have hnone : heldTree s = none := by simp [heldTree, hv]
    exact exec_error (by simp) hs (by simp only [effectOf, genCodesEffect, hnone])
  · have hheld : heldTree s = some n := by simp [heldTree, hv, hn]
    refine ⟨_, exec_ok (by simp) hs (genCodesEffect_eq_ok.2 ⟨n, hheld, rfl⟩), rfl, fun x => ?_⟩
    rw [State.setCode_code]
    cases n with
    | leaf y => exact (genCodes_leaf y x).trans (if_congr eq_comm rfl rfl)
    | internal l r => exact genCodes_internal l r x

/-- A code of a single-leaf tree is the bit `0`; any other is the path to its leaf (rule R135 (b)). -/
theorem path_of_genCodes {n : Node} {x : Byte} {k : Bits} (h : Table.at (genCodes n) x = some k) :
    (∃ y, n = .leaf y ∧ k = [false]) ∨ n.follow k = some (.leaf x) := by
  cases n with
  | leaf y =>
    rw [genCodes_leaf] at h
    obtain ⟨-, hk⟩ := Option.ite_none_right_eq_some.1 h
    exact .inl ⟨y, rfl, (Option.some.inj hk).symm⟩
  | internal l r => exact .inr (symbolAt_internal.1 (symbolAt_of_genCodes h))

/-- In a tree the store can hold a code has 1 to 255 bits (rule R135 (b)). -/
theorem genCodes_length_bounds {n : Node} (hn : n.size ≤ 511) {x : Byte} {k : Bits}
    (h : Table.at (genCodes n) x = some k) : 1 ≤ k.length ∧ k.length ≤ 255 := by
  obtain ⟨hpos, hdepth⟩ := genCodes_length h
  have := Node.depth_le_of_size hn
  omega

/-- Settles O9: a code that begins another code is that code, and its path leads to one leaf only. -/
theorem codeTableIsPrefixFree : Obligations.CodeTableIsPrefixFree := by
  intro n hn _
  refine ⟨fun x => genCodes_isSome, fun x k hk => ?_, fun x y k k' hk hk' hne hprefix => hne ?_, fun y hy => ?_⟩
  · obtain ⟨hpos, hle⟩ := genCodes_length_bounds hn hk
    exact ⟨hpos, hle, path_of_genCodes hk⟩
  · have hx := symbolAt_of_genCodes hk
    have hy := symbolAt_of_genCodes hk'
    obtain rfl := symbolAt_prefix_free hx hy hprefix
    exact Option.some.inj (hx.symm.trans hy)
  · rw [hy, genCodes_leaf, if_pos rfl]

/-! ### The walk (rules R138 to R140) -/

/-- With a tree in place the walk answers exactly for the code paths that lie in `BITS` at the cursor (rule R139). -/
theorem decodeOne_ok_iff {s : State} (h : s.Inv) {n : Node} (hn : s.tree = some n) {c j e : Nat} {x : Byte} :
    decodeOne s c j = .ok (x, e) ↔ ∃ k, n.symbolAt k = some x ∧ e = c + k.length ∧
      c + k.length ≤ s.blen.toNat ∧ bitsRead s c k.length = k := by
  rw [decodeOne_eq_ok h.blenIsLength (h.heldTree_eq.trans hn)]
  exact exists_congr fun k => and_congr_right fun hk => and_congr_right fun _ =>
    prefix_rest_iff h.blenIsLength (symbolAt_ne_nil hk)

/-- The walk answers only with a tree in place. -/
theorem tree_of_decodeOne {s : State} {c j e : Nat} {x : Byte} (h : decodeOne s c j = .ok (x, e)) :
    ∃ n, heldTree s = some n := by
  cases hheld : heldTree s with
  | none => simp [decodeOne, hheld] at h
  | some n => exact ⟨n, rfl⟩

/-- Settles O10: the walk either answers for a code path at `BC`, or ends in its one fault. -/
theorem decodeOneWalksOneCodePath : Obligations.DecodeOneWalksOneCodePath := by
  intro s hinv hs
  refine ⟨fun n k x hn hk hlen hbits => ?_, fun hnone => ?_⟩
  · have hwalk := (decodeOne_ok_iff hinv hn (j := 0)).2 ⟨k, hk, rfl, hlen, hbits⟩
    exact exec_ok (by simp) hs (decodeOneEffect_eq_ok.2 ⟨x, _, hwalk, rfl⟩)
  · cases hwalk : decodeOne s s.bc.toNat 0 with
    | ok a =>
      obtain ⟨x, e⟩ := a
      obtain ⟨n, hheld⟩ := tree_of_decodeOne hwalk
      have hn := hinv.heldTree_eq.symm.trans hheld
      obtain ⟨k, hk, -, hlen, hbits⟩ := (decodeOne_ok_iff hinv hn).1 hwalk
      exact absurd hbits (hnone n k x hn hk hlen)
    | error r =>
      refine exec_error (by simp) hs ?_
      simp only [effectOf, decodeOneEffect, hwalk, error_bind', decodeOne_error hwalk]

/-- Settles O11: with distinct leaf symbols the code paths the walk reads are the codes of the table. -/
theorem walkInvertsTheCodeTable : Obligations.WalkInvertsTheCodeTable := by
  intro s n hinv hn hdistinct
  refine ⟨fun x k c j hk hlen hbits => ?_, fun x c j p hwalk => ?_⟩
  · exact (decodeOne_ok_iff hinv hn).2 ⟨k, symbolAt_of_genCodes hk, rfl, hlen, hbits⟩
  · obtain ⟨k, hk, rfl, -, hbits⟩ := (decodeOne_ok_iff hinv hn).1 hwalk
    have hcode := (genCodes_eq_some hdistinct).2 hk
    obtain ⟨hpos, hle⟩ := genCodes_length_bounds (hinv.treeSize n hn) hcode
    rw [Nat.add_sub_cancel_left, hbits]
    exact ⟨hcode, hk, by omega, by omega⟩

end Sys2Proof.Machine

/-! SUPPORT. The statements about the tree serializer (41_tree_serializer.md): the tree record, its reading back, and the reader's faults. -/

namespace Sys2Proof.Machine

/-! ### The tree record (rules R150 and R151) -/

/-- With a tree in place TREE_WR is the append of its record. -/
theorem treeWrEffect_of_tree {s : State} {n : Node} (h : s.Inv) (hn : s.tree = some n) :
    treeWrEffect s = outAppend s (ser n) := by
  have hheld : heldTree s = some n := h.heldTree_eq.trans hn
  simp only [treeWrEffect, hheld]

/-- Settles O12: without a tree there is nothing to append, and with one TREE_WR is `OutAppend` of its record. -/
theorem treeWrAppendsTheTreeRecord : Obligations.TreeWrAppendsTheTreeRecord := by
  refine ⟨fun s hinv hs => ⟨fun hv => ?_, fun n hn => ⟨fun hfull => ?_, fun hroom => ?_⟩⟩, fun _ => rfl, fun _ _ => rfl, ser_length⟩
  · have hnone : heldTree s = none := by simp [heldTree, hv]
    exact exec_error (by simp) hs (by simp only [effectOf, treeWrEffect, hnone])
  · exact exec_error (by simp) hs ((treeWrEffect_of_tree hinv hn).trans (outAppend_full hfull))
  · have hlt := hinv.room hroom
    exact ⟨_, exec_ok (by simp) hs ((treeWrEffect_of_tree hinv hn).trans (outAppend_room hroom)), out_appended hlt,
      appended_olen hlt, rfl⟩

/-! ### The round trip (rule R161) -/

/-- Settles O13: a TREE_WR that did not fault has appended the record, and a stream that holds the record is read as its tree. -/
theorem treeRecordRoundTrip : Obligations.TreeRecordRoundTrip := by
  intro n hn
  refine ⟨fun s t hinv hs htree he ht => ?_, fun u hu hlen hholds => ?_⟩
  · rcases exec_inv (by simp) he with ⟨hf, -⟩ | ⟨-, -, hok⟩ | ⟨-, r, -, rfl⟩
    · simp [hs] at hf
    · obtain ⟨hroom, rfl⟩ := outAppend_eq_ok.1 ((treeWrEffect_of_tree hinv htree).symm.trans hok)
      exact out_appended (hinv.room hroom)
    · cases ht
  · exact exec_ok (by simp) hu (treeRdEffect_eq_ok.2 ⟨hlen, n, hn, hholds, rfl⟩)

/-! ### The reader's faults (rules R155 and R156) -/

/-- TREE_RD tests `ILEN` before it reads the stream. -/
theorem treeRdEffect_long {s : State} (h : s.cfg.inCap < s.ilen.toNat) :
    treeRdEffect s = .error ⟨.capacityExceeded, s.ilen.toNat, s.cfg.inCap⟩ := by
  simp only [treeRdEffect, requireInput, require_false (Nat.not_le.2 h), error_bind']

/-- With `ILEN` within the window, TREE_RD faults as the parser does at the start of the stream. -/
theorem treeRdEffect_of_parseNode_error {s : State} {r : Raise} (h : s.ilen.toNat ≤ s.cfg.inCap)
    (hp : parseNode s (nodeCap + 1) 0 0 = .error r) : treeRdEffect s = .error r := by
  simp only [treeRdEffect, requireInput, require_true h, ok_bind', hp, error_bind']

/-- On a stream that holds no record the parser faults: whatever it answers is held (rule R156). -/
theorem parseNode_error_of_no_record {s : State} (h : ∀ n : Node, n.size ≤ 511 → ¬ holds s 0 (ser n)) :
    ∃ r, parseNode s (nodeCap + 1) 0 0 = .error r := by
  cases hp : parseNode s (nodeCap + 1) 0 0 with
  | error r => exact ⟨r, rfl⟩
  | ok a =>
    obtain ⟨n, k, m⟩ := a
    obtain ⟨hholds, -, rfl, hsize⟩ := parseNode_sound s _ _ _ (Nat.zero_le _) hp
    rw [Nat.zero_add] at hsize
    exact absurd hholds (h n hsize)

/-- Settles O14: the parser's fault is the one at the first node it cannot read, and on a stream without a record it has one. -/
theorem treeRdFaultsWithoutARecord : Obligations.TreeRdFaultsWithoutARecord := by
  intro s hs
  refine ⟨fun hlong => ?_, fun hlen => ⟨fun ns r hun hholds hcap hfault => ?_, fun hnone => ?_⟩⟩
  · exact exec_error (by simp) hs (treeRdEffect_long hlong)
  · have hp : parseNode s (nodeCap + 1) 0 0 = .error r :=
      parseNode_fault s _ ns _ 0 0 r le_rfl hun hholds ((Nat.zero_add _).trans_le hcap) le_rfl (by simpa using hfault)
    exact exec_error (by simp) hs (treeRdEffect_of_parseNode_error hlen hp)
  · obtain ⟨r, hp⟩ := parseNode_error_of_no_record hnone
    obtain ⟨ns, hun, hholds, hcap, hfault⟩ := parseNode_eq_error (m := 0) (by omega) (Nat.zero_le _) (Nat.zero_le _) hp
    simp only [Nat.zero_add] at hcap hfault
    exact ⟨ns, r, hun, hholds, hcap, hfault⟩

end Sys2Proof.Machine

/-! SUPPORT. The statements about the bit packer (42_bit_packer.md): the record PACK appends, its reading by UNPACK, and the round trip. -/

namespace Sys2Proof.Machine

/-! ### The record (rules R165 and R166) -/

/-- `BLEN` counts `BITS`, so it gives the record's length. -/
theorem packRecord_blen_length {s : State} (h : s.Inv) :
    (packRecord s.blen.toNat s.bits).length = 4 + (s.blen.toNat + 7) / 8 + 1 := by
  rw [packRecord_length, h.blenIsLength, ceil8]

/-- Settles O15: PACK is `OutAppend` of its record, and each of the record's data bytes starts within the bit sequence. -/
theorem packAppendsTheRecord : Obligations.PackAppendsTheRecord := by
  refine ⟨fun s hinv hs => ?_, fun b => ⟨packBytes_length b, fun j i hj hi => ?_⟩⟩
  · rw [← packRecord_blen_length hinv]
    refine ⟨fun hfull => exec_error (by simp) hs (outAppend_full hfull), fun hroom => ?_⟩
    have hlt := hinv.room hroom
    exact ⟨_, exec_ok (by simp) hs (outAppend_room hroom), out_appended hlt, appended_olen hlt, rfl⟩
  · rw [packBytes_getD (by omega), packByte_bit b j i hi]
    split
    · rfl
    · next hpad => exact List.getD_eq_default _ _ (Nat.not_lt.1 hpad)

/-! ### Its reading (rules R170 and R171) -/

/-- UNPACK's fault is that of the first of its five tests that fails. -/
theorem unpackEffect_eq_error {s : State} {r : Raise} : unpackEffect s = .error r ↔
    (s.cfg.inCap < s.ilen.toNat ∧ r = ⟨.capacityExceeded, s.ilen.toNat, s.cfg.inCap⟩) ∨
    s.ilen.toNat ≤ s.cfg.inCap ∧ ((inAvail s < 4 ∧ r = ⟨.truncatedStream, 4, inAvail s⟩) ∨
    4 ≤ inAvail s ∧ ((fieldMax < in32 s 0 ∧ r = ⟨.reservedValue, in32 s 0, s.ipos.toNat⟩) ∨
    in32 s 0 ≤ fieldMax ∧ ((s.cfg.bitCap < in32 s 0 ∧ r = ⟨.capacityExceeded, in32 s 0, s.cfg.bitCap⟩) ∨
    in32 s 0 ≤ s.cfg.bitCap ∧ inAvail s < 4 + ceil8 (in32 s 0) + 1 ∧
      r = ⟨.truncatedStream, 4 + ceil8 (in32 s 0) + 1, inAvail s⟩))) := by
  simp only [unpackEffect, requireInput, requireBytes, requireBitCap, bind_eq_error, require_eq_error, require_eq_ok,
    exists_const, reduceCtorEq, and_false, or_false, Nat.not_le, eq_comm (b := r)]

theorem unpackBits_inBytes_getD (s : State) (k : Nat) {n j : Nat} (h : j < n) :
    (unpackBits (inBytes s k (ceil8 n)) n).getD j false = (inByte s (k + j / 8)).getLsbD (7 - j % 8) := by
  simp [unpackBits_inBytes, List.getD_eq_getElem?_getD, h]

/-- Settles O16: the five tests one inside the other, and past the last of them the bits at their places in the data bytes. -/
theorem unpackReadsTheRecord : Obligations.UnpackReadsTheRecord := by
  intro s hs n size
  have hfault {r : Raise} (h : unpackEffect s = .error r) : exec .unpack s = .next (s.raise r) :=
    exec_error (by simp) hs h
  simp only [unpackEffect_eq_error] at hfault
  refine ⟨fun hlong => ?_, fun hlen => ⟨fun hshort => ?_, fun hcount => ⟨fun hsign => ?_, fun hfield =>
    ⟨fun hlarge => ?_, fun hcap => ⟨fun hcut => ?_, fun hsize => ?_⟩⟩⟩⟩⟩
  · exact hfault (.inl ⟨hlong, rfl⟩)
  · exact hfault (.inr ⟨hlen, .inl ⟨hshort, rfl⟩⟩)
  · exact hfault (.inr ⟨hlen, .inr ⟨hcount, .inl ⟨hsign, rfl⟩⟩⟩)
  · exact hfault (.inr ⟨hlen, .inr ⟨hcount, .inr ⟨hfield, .inl ⟨hlarge, rfl⟩⟩⟩⟩)
  · exact hfault (.inr ⟨hlen, .inr ⟨hcount, .inr ⟨hfield, .inr ⟨hcap, hcut, rfl⟩⟩⟩⟩)
  · refine ⟨_, exec_ok (by simp) hs (unpackEffect_eq_ok.2 ⟨hlen, hfield, hcap, hsize, rfl⟩), unpackBits_length _ n,
      fun k hk => unpackBits_inBytes_getD s 4 hk, ?_⟩
    simp only [State.setBits, State.consume, unpackBits_length]
    rfl

/-! ### The round trip (rule R172) -/

/-- A stream that holds the record of `b` has its bit count and its data bytes. -/
theorem record_of_holds {s : State} {b : Bits} (hb : b.length ≤ fieldMax) (h : holds s 0 (packRecord b.length b)) :
    in32 s 0 = b.length ∧ inBytes s 4 (ceil8 b.length) = packBytes b := by
  obtain ⟨hfields, -⟩ := holds_append h
  obtain ⟨-, -, hdata⟩ := holds_append hfields
  rw [packBytes_length] at hdata
  exact ⟨in32_of_holds (hb.trans_lt (by decide)) hfields, hdata⟩

/-- UNPACK reads the bits back from a stream that holds their record. -/
theorem unpackEffect_of_holds {s : State} {b : Bits} (hlen : s.ilen.toNat ≤ s.cfg.inCap) (hb : b.length ≤ fieldMax)
    (hcap : b.length ≤ s.cfg.bitCap) (h : holds s 0 (packRecord b.length b)) :
    unpackEffect s = .ok ((s.setBits b).consume (packRecord b.length b).length) := by
  obtain ⟨hcount, hdata⟩ := record_of_holds hb h
  obtain ⟨hroom, -⟩ := h
  rw [Nat.zero_add, packRecord_length] at hroom
  rw [unpackEffect_eq_ok, hcount, hdata, unpackBits_packBytes, packRecord_length]
  exact ⟨hlen, hb, hcap, hroom, rfl⟩

/-- Settles O17: a PACK that did not fault has appended the record, and UNPACK reads a record back. -/
theorem packUnpackRoundTrip : Obligations.PackUnpackRoundTrip := by
  intro s t hinv hs he ht
  refine ⟨packRecord s.blen.toNat s.bits, ?_, packRecord_length _ _, fun u hu hlen hcap hholds => ?_⟩
  · rcases exec_inv (by simp) he with ⟨hf, -⟩ | ⟨-, -, hok⟩ | ⟨-, r, -, rfl⟩
    · simp [hs] at hf
    · obtain ⟨hroom, rfl⟩ := outAppend_eq_ok.1 hok
      exact out_appended (hinv.room hroom)
    · cases ht
  · have hblen : s.blen = BitVec.ofNat 32 s.bits.length := by
      rw [← hinv.blenIsLength, BitVec.ofNat_toNat, BitVec.setWidth_eq]
    have hfield : s.bits.length ≤ fieldMax :=
      calc s.bits.length = s.blen.toNat := hinv.blenIsLength.symm
        _ ≤ s.cfg.bitCap := hinv.blenBound
        _ ≤ fieldMax := hinv.cfg.bitCap_le
    rw [hinv.blenIsLength] at hholds ⊢
    rw [hblen]
    exact exec_ok (by simp) hu (unpackEffect_of_holds hlen hfield hcap hholds)

end Sys2Proof.Machine

/-! SUPPORT. The statements about the frame codec (43_frame_codec.md): the changed cells, the two encoders, one cell's decoding, the two decoders, and the round trip. -/

namespace Sys2Proof.Machine

/-! ### The changed cells (rule R196) -/

/-- A cell differs from what a frame has at a position when the frame has none there, or in any of the four numbers. -/
theorem getElem?_ne_some_iff (f : Frame) (i : Nat) (c : Cell) :
    f[i]? ≠ some c ↔ ∀ d, f[i]? = some d → c.sym ≠ d.sym ∨ c.r ≠ d.r ∨ c.g ≠ d.g ∨ c.b ≠ d.b := by
  cases f[i]? with
  | none => simp
  | some d =>
    cases c
    cases d
    simp only [ne_eq, Option.some.injEq, forall_eq', Cell.mk.injEq]
    tauto

theorem mem_changedCells_iff {prev f : Frame} {plen i : Nat} {c : Cell} :
    (c, i) ∈ changedCells prev plen f ↔ f[i]? = some c ∧ (plen ≤ i ∨ prev[i]? ≠ some c) := by
  simp only [changedCells, List.mem_filter, List.mem_zipIdx_iff_getElem?, Bool.or_eq_true, decide_eq_true_eq]

/-- Settles O21: by membership in the filtered list of positions, which ascends as that list does. -/
theorem changedCellsAreThoseThatDiffer : Obligations.ChangedCellsAreThoseThatDiffer := by
  intro prev f plen
  refine ⟨fun c i => ?_, changedCells_ascending prev f plen⟩
  rw [mem_changedCells_iff, getElem?_ne_some_iff]

/-! ### What the encoders share (rule R184) -/

/-- What both encoders do after their flags: test `CLEN`, the codes of the cells `ps`, `BIT_CAP`, and append the count `n`. -/
def encodeCount (s : State) (ps : List (Cell × Nat)) (bits : Bits) (n : Nat) : Except Raise State := do
  requireFrame s
  requireCodes s.code ps
  requireBitCap s bits.length
  outAppend s (le32 n)

theorem encFullEffect_of_ready {s : State} (h : s.codeV = true) : encFullEffect s =
    (fun t => ({ t.setBits ((cur s).flatMap (cellBits s.code)) with cnt := s.clen }.setPrev (cur s) s.clen).markPrev) <$>
      encodeCount s (cur s).zipIdx ((cur s).flatMap (cellBits s.code)) s.clen.toNat := by
  simp only [encFullEffect, encodeCount, require_true h, ok_bind', map_bind]
  rfl

theorem encDeltaEffect_of_ready {s : State} (h : s.codeV = true ∧ s.prevV = true) {ch : List (Cell × Nat)}
    (hch : changedCells s.prev s.plen.toNat (cur s) = ch) : encDeltaEffect s =
    (fun t => { t.setBits (ch.flatMap (deltaBits s.code)) with cnt := BitVec.ofNat 32 ch.length }.setPrev (cur s) s.clen) <$>
      encodeCount s ch (ch.flatMap (deltaBits s.code)) ch.length := by
  subst hch
  simp only [encDeltaEffect, encodeCount, require_true h, ok_bind', map_bind]
  rfl

theorem outAppend_eq_error {s : State} {bs : List Byte} {r : Raise} : outAppend s bs = .error r ↔
    s.cfg.outCap < s.olen.toNat + bs.length ∧ r = ⟨.capacityExceeded, s.olen.toNat + bs.length, s.cfg.outCap⟩ := by
  simp only [outAppend, bind_eq_error, require_eq_error, reduceCtorEq, and_false, exists_false, or_false, Nat.not_le,
    eq_comm (b := r)]

/-- An encoder's fault, its flags set, is that of the first of its four tests that fails. -/
theorem encodeCount_eq_error {s : State} {ps : List (Cell × Nat)} {bits : Bits} {n : Nat} {r : Raise} :
    encodeCount s ps bits n = .error r ↔
    (s.cfg.cellCap < s.clen.toNat ∧ r = ⟨.capacityExceeded, s.clen.toNat, s.cfg.cellCap⟩) ∨
    s.clen.toNat ≤ s.cfg.cellCap ∧ (requireCodes s.code ps = .error r ∨
    (∀ p ∈ ps, (Table.at s.code p.1.sym).isSome = true) ∧
      ((s.cfg.bitCap < bits.length ∧ r = ⟨.capacityExceeded, bits.length, s.cfg.bitCap⟩) ∨
    bits.length ≤ s.cfg.bitCap ∧ s.cfg.outCap < s.olen.toNat + 4 ∧
      r = ⟨.capacityExceeded, s.olen.toNat + 4, s.cfg.outCap⟩)) := by
  simp only [encodeCount, requireFrame, requireBitCap, bind_eq_error, require_eq_error, require_eq_ok, requireCodes_eq_ok,
    outAppend_eq_error, le32_length, exists_const, Nat.not_le, eq_comm (b := r)]

/-! ### ENC_FULL (rule R185) -/

/-- Settles O20: the flag, then the four tests the encoders share, and past the last of them the state ENC_FULL leaves. -/
theorem encFullEncodesTheFrame : Obligations.EncFullEncodesTheFrame := by
  intro s hinv hs bits
  refine ⟨fun hv => exec_error (by simp) hs (effectOf_encFull_of_noCode hv), fun hv => ?_⟩
  have hfault {r : Raise} (h : encodeCount s (cur s).zipIdx bits s.clen.toNat = .error r) :
      exec .encFull s = .next (s.raise r) :=
    exec_error (by simp) hs (by simp only [effectOf, encFullEffect_of_ready hv, bits, h]; rfl)
  simp only [encodeCount_eq_error] at hfault
  refine ⟨fun hlong => ?_, fun hlen => ⟨fun i c hc hnone hlow => ?_, fun hcodes => ?_⟩⟩
  · exact hfault (.inl ⟨hlong, rfl⟩)
  · have hfirst := requireCodes_first (zipIdx_ascending (cur s) 0) (p := (c, i)) (List.mem_zipIdx_iff_getElem?.2 hc) hnone
      fun q hq hlt => hlow q.2 hlt q.1 (List.mem_zipIdx_iff_getElem?.1 hq)
    exact hfault (.inr ⟨hlen, .inl hfirst⟩)
  · have hall : ∀ p ∈ (cur s).zipIdx, (Table.at s.code p.1.sym).isSome = true := fun p hp =>
      Option.isSome_iff_ne_none.2 (hcodes p.1 (List.fst_mem_of_mem_zipIdx hp))
    refine ⟨fun hlarge => ?_, fun hcap => ⟨fun hfull => ?_, fun hroom => ?_⟩⟩
    · exact hfault (.inr ⟨hlen, .inr ⟨hall, .inl ⟨hlarge, rfl⟩⟩⟩)
    · exact hfault (.inr ⟨hlen, .inr ⟨hall, .inr ⟨hcap, hfull, rfl⟩⟩⟩)
    · have hlt := hinv.room hroom
      exact ⟨_, exec_ok (by simp) hs (encFullEffect_eq_ok.2 ⟨hv, hlen, hall, hcap, hroom, rfl⟩),
        out_appended (bs := le32 s.clen.toNat) hlt, appended_olen (bs := le32 s.clen.toNat) hlt,
        (hinv.setBits hcap).blenIsLength, rfl⟩

/-! ### ENC_DELTA (rule R195) -/

theorem length_cur (s : State) : (cur s).length = s.clen.toNat := by simp [cur]

/-- The change count fits `CNT`. -/
theorem toNat_changeCount (s : State) {ch : List (Cell × Nat)} (h : changedCells s.prev s.plen.toNat (cur s) = ch) :
    (BitVec.ofNat 32 ch.length).toNat = ch.length := by
  have hle := changedCells_length s.prev (cur s) s.plen.toNat
  rw [h, length_cur] at hle
  rw [BitVec.toNat_ofNat, Nat.mod_eq_of_lt (hle.trans_lt s.clen.isLt)]

/-- Settles O22: the flags, then the four tests the encoders share, and past the last of them the state ENC_DELTA leaves. -/
theorem encDeltaEncodesTheChangedCells : Obligations.EncDeltaEncodesTheChangedCells := by
  intro s hinv hs ch bits
  refine ⟨fun hv => exec_error (by simp) hs (effectOf_encDelta_of_notReady (by rcases hv with hv | hv <;> simp [hv])),
    fun hv hp => ?_⟩
  have hfault {r : Raise} (h : encodeCount s ch bits ch.length = .error r) : exec .encDelta s = .next (s.raise r) :=
    exec_error (by simp) hs (by simp only [effectOf, encDeltaEffect_of_ready ⟨hv, hp⟩ rfl, bits, ch, h]; rfl)
  simp only [encodeCount_eq_error] at hfault
  refine ⟨fun hlong => ?_, fun hlen => ⟨fun i c hc hnone hlow => ?_, fun hcodes => ?_⟩⟩
  · exact hfault (.inl ⟨hlong, rfl⟩)
  · have hfirst := requireCodes_first (changedCells_ascending _ _ _) hc hnone fun q hq hlt => hlow q.1 q.2 hq hlt
    exact hfault (.inr ⟨hlen, .inl hfirst⟩)
  · have hall : ∀ p ∈ ch, (Table.at s.code p.1.sym).isSome = true := fun p hp => Option.isSome_iff_ne_none.2 (hcodes p hp)
    refine ⟨fun hlarge => ?_, fun hcap => ⟨fun hfull => ?_, fun hroom => ?_⟩⟩
    · exact hfault (.inr ⟨hlen, .inr ⟨hall, .inl ⟨hlarge, rfl⟩⟩⟩)
    · exact hfault (.inr ⟨hlen, .inr ⟨hall, .inr ⟨hcap, hfull, rfl⟩⟩⟩)
    · have hlt := hinv.room hroom
      exact ⟨_, exec_ok (by simp) hs (encDeltaEffect_eq_ok.2 ⟨⟨hv, hp⟩, hlen, hall, hcap, hroom, rfl⟩),
        out_appended (bs := le32 ch.length) hlt, appended_olen (bs := le32 ch.length) hlt,
        (hinv.setBits hcap).blenIsLength, toNat_changeCount s rfl, rfl⟩

/-! ### One cell (rule R182) -/

/-- The part of rule R182 after the walk has found the symbol `x` and stopped at bit `p`: the three colour fields. -/
def decodeColour (s : State) (x : Byte) (p : Nat) : Except Raise (Cell × Nat) := do
  let r ← decodeField8 s p
  let g ← decodeField8 s (p + 8)
  let b ← decodeField8 s (p + 16)
  .ok (⟨x, BitVec.ofNat 8 r, BitVec.ofNat 8 g, BitVec.ofNat 8 b⟩, p + 24)

theorem decodeCell_short {s : State} {c : Nat} (h : s.blen.toNat < c + 8) (j : Nat) :
    decodeCell s c j = .error ⟨.truncatedStream, 8, s.blen.toNat - c⟩ := by
  simp only [decodeCell, decodeField8_short h, error_bind']

theorem decodeCell_of_walk_error {s : State} {c j : Nat} {r : Raise} (h : c + 8 ≤ s.blen.toNat)
    (hw : decodeOne s (c + 8) j = .error r) : decodeCell s c j = .error r := by
  simp only [decodeCell, decodeField8_ok h, ok_bind', hw, error_bind']

/-- A walk that does not consume exactly the bits the length field says is a fault. -/
theorem decodeCell_of_walk_ne {s : State} {c j p : Nat} {x : Byte} (h : c + 8 ≤ s.blen.toNat)
    (hw : decodeOne s (c + 8) j = .ok (x, p)) (hp : p ≠ c + 8 + val (bitsRead s c 8)) :
    decodeCell s c j = .error ⟨.malformedTree, j, c + 8⟩ := by
  have hlen : ¬p - (c + 8) = val (bitsRead s c 8) := by
    have := decodeOne_bounds hw
    omega
  simp only [decodeCell, decodeField8_ok h, ok_bind', hw, require_false hlen, error_bind']

theorem decodeCell_of_walk {s : State} {c j p : Nat} {x : Byte} (h : c + 8 ≤ s.blen.toNat)
    (hw : decodeOne s (c + 8) j = .ok (x, p)) (hp : p = c + 8 + val (bitsRead s c 8)) :
    decodeCell s c j = decodeColour s x p := by
  have hlen : p - (c + 8) = val (bitsRead s c 8) := by omega
  simp only [decodeCell, decodeField8_ok h, ok_bind', hw, require_true hlen]
  rfl

/-- The eight bits of a field within `BITS` are those of the byte decoded. -/
theorem bits8_bitsRead {s : State} (hb : s.blen.toNat = s.bits.length) {p : Nat} (h : p + 8 ≤ s.blen.toNat) :
    bits8 (BitVec.ofNat 8 (val (bitsRead s p 8))) = bitsRead s p 8 :=
  bits8_val (bitsRead_length (hb ▸ h))

/-- Settles O24: each test fails where it stands, and past the last of them the fields are the bits read. -/
theorem decodeCellTestsInOrder : Obligations.DecodeCellTestsInOrder := by
  intro s c j hinv
  refine ⟨fun hshort => decodeCell_short hshort j, fun hlen => ⟨fun r hw => ?_, fun x p hw =>
    ⟨fun hp => decodeCell_of_walk_ne hlen hw hp, fun hp => ?_⟩⟩⟩
  · rw [decodeCell_of_walk_error hlen hw, decodeOne_error hw]
  · rw [decodeCell_of_walk hlen hw hp, decodeColour]
    refine ⟨fun hr => ?_, fun hr hg => ?_, fun hg hb => ?_, fun hb => ?_⟩
    · rw [decodeField8_short hr, error_bind']
    · rw [decodeField8_ok hr, ok_bind', decodeField8_short hg, error_bind']
    · rw [decodeField8_ok (by omega), ok_bind', decodeField8_ok hg, ok_bind', decodeField8_short hb, error_bind']
    · rw [decodeField8_ok (by omega), ok_bind', decodeField8_ok (by omega), ok_bind', decodeField8_ok hb, ok_bind']
      exact ⟨_, _, _, rfl, bits8_bitsRead hinv.blenIsLength (by omega), bits8_bitsRead hinv.blenIsLength (by omega),
        bits8_bitsRead hinv.blenIsLength hb⟩

/-! ### DEC_FULL (rule R190) -/

/-- DEC_FULL's fault is that of its first test of `CNT` that fails, or else that of its loop. -/
theorem decFullEffect_eq_error {s : State} {r : Raise} : decFullEffect s = .error r ↔
    (fieldMax < s.cnt.toNat ∧ r = ⟨.reservedValue, s.cnt.toNat, 0xFFFFFFFF⟩) ∨
    s.cnt.toNat ≤ fieldMax ∧ ((s.cfg.cellCap < s.cnt.toNat ∧ r = ⟨.capacityExceeded, s.cnt.toNat, s.cfg.cellCap⟩) ∨
    s.cnt.toNat ≤ s.cfg.cellCap ∧ decodeCells s s.cnt.toNat 0 0 = .error r) := by
  simp only [decFullEffect, requireCount, bind_eq_error, require_eq_error, require_eq_ok, exists_const, reduceCtorEq,
    and_false, or_false, Nat.not_le, eq_comm (b := r)]

/-- The loop decodes every encoding of a frame at the start of `BITS`, and the empty one without a tree. -/
theorem decodeCells_of_encoding {s : State} (h : s.Inv) {f : Frame} {b : Bits} (hb : b <+: s.bits)
    (he : f = [] ∧ b = [] ∨ ∃ n, s.tree = some n ∧ isFrameEncoding n f b) :
    decodeCells s f.length 0 0 = .ok (f, b.length) := by
  rcases he with ⟨rfl, rfl⟩ | ⟨n, hn, he⟩
  · rfl
  · exact (decodeCells_eq_ok h.blenIsLength (h.heldTree_eq.trans hn)).2 ⟨rfl, b, he, hb, (Nat.zero_add _).symm⟩

/-- DEC_FULL puts in place the frame whose encoding is at the start of `BITS`. -/
theorem decFullEffect_of_encoding {s : State} (h : s.Inv) (hcap : s.cnt.toNat ≤ s.cfg.cellCap) {f : Frame} {b : Bits}
    (hlen : f.length = s.cnt.toNat) (hb : b <+: s.bits)
    (he : f = [] ∧ b = [] ∨ ∃ n, s.tree = some n ∧ isFrameEncoding n f b) :
    decFullEffect s = .ok (s.putFrame f s.cnt b.length).markPrev := by
  have hcells := decodeCells_of_encoding h hb he
  rw [hlen] at hcells
  exact decFullEffect_eq_ok.2 ⟨hcap.trans h.cfg.cellCap_le, hcap, f, _, hcells, rfl⟩

/-- Settles O25: the tests of `CNT`, the first cell at which the loop stops, or the frame in its place. -/
theorem decFullDecodesTheFrame : Obligations.DecFullDecodesTheFrame := by
  intro s hinv hs
  have hfault {r : Raise} (h : decFullEffect s = .error r) : exec .decFull s = .next (s.raise r) :=
    exec_error (by simp) hs h
  simp only [decFullEffect_eq_error] at hfault
  refine ⟨fun hsign => ?_, fun hfield => ⟨fun hlarge => ?_, fun hcap => ⟨fun m f c r hm hcells hcell => ?_,
    fun f b hlen hb he => ?_⟩⟩⟩
  · exact hfault (.inl ⟨hsign, rfl⟩)
  · exact hfault (.inr ⟨hfield, .inl ⟨hlarge, rfl⟩⟩)
  · have hstop := decodeCells_stop (s.cnt.toNat - (m + 1)) hcells (by rwa [Nat.zero_add])
    rw [Nat.add_sub_cancel' hm] at hstop
    exact hfault (.inr ⟨hfield, .inr ⟨hcap, hstop⟩⟩)
  · refine ⟨_, exec_ok (by simp) hs (decFullEffect_of_encoding hinv hcap hlen hb he), ?_, fun i hi => ?_, rfl⟩
    · rw [cur_markPrev, cur_putFrame _ _ hlen.symm]
    · rw [curWord_markPrev, curWord_putFrame, dif_neg (Nat.not_lt.2 hi)]

/-! ### DEC_DELTA (rule R200) -/

/-- DEC_DELTA's fault is that of its flag, or of its test of `CNT`, or else that of its loop. -/
theorem decDeltaEffect_eq_error {s : State} {r : Raise} : decDeltaEffect s = .error r ↔
    (s.prevV = false ∧ r = ⟨.illegalState, 0x43, (status s).toNat⟩) ∨
    s.prevV = true ∧ ((fieldMax < s.cnt.toNat ∧ r = ⟨.reservedValue, s.cnt.toNat, 0xFFFFFFFF⟩) ∨
    s.cnt.toNat ≤ fieldMax ∧ decodeUpdates s s.cnt.toNat 0 0 s.prev = .error r) := by
  simp only [decDeltaEffect, requireCount, bind_eq_error, require_eq_error, require_eq_ok, exists_const, reduceCtorEq,
    and_false, or_false, Nat.not_le, Bool.not_eq_true, eq_comm (b := r)]

/-- `r` is the fault of the update of ordinal `j` at bit `c`: that of the first test of rule R200 that fails there. -/
def updateFault (s : State) (c j : Nat) (r : Raise) : Prop :=
  (s.blen.toNat < c + 32 ∧ r = ⟨.truncatedStream, 32, s.blen.toNat - c⟩) ∨
  c + 32 ≤ s.blen.toNat ∧ ((s.plen.toNat ≤ val (bitsRead s c 32) ∧
    r = ⟨.indexOutOfRange, val (bitsRead s c 32), s.plen.toNat⟩) ∨
  val (bitsRead s c 32) < s.plen.toNat ∧ decodeCell s (c + 32) j = .error r)

theorem decodeUpdates_of_updateFault {s : State} {c j : Nat} {r : Raise} (h : updateFault s c j r) (n : Nat) (w : Frame) :
    decodeUpdates s (n + 1) j c w = .error r := by
  rcases h with ⟨hshort, rfl⟩ | ⟨hlen, ⟨hidx, rfl⟩ | ⟨hidx, hcell⟩⟩
  · simp only [decodeUpdates, requireBits, require_false (Nat.not_le.2 hshort), error_bind', bitsAvail]
  · simp only [decodeUpdates, requireBits, require_true hlen, ok_bind', require_false (Nat.not_lt.2 hidx), error_bind']
  · simp only [decodeUpdates, requireBits, require_true hlen, ok_bind', require_true hidx, hcell, error_bind']

/-- DEC_DELTA faults as the first update that does not decode. -/
theorem decDeltaEffect_of_updateFault {s : State} (hv : s.prevV = true) (hfield : s.cnt.toNat ≤ fieldMax) {m c : Nat}
    {w : Frame} {r : Raise} (hm : m < s.cnt.toNat) (hu : decodeUpdates s m 0 0 s.prev = .ok (w, c))
    (h : updateFault s c m r) : decDeltaEffect s = .error r := by
  have hstop := decodeUpdates_stop (s.cnt.toNat - (m + 1)) (fun w => by
    rw [Nat.add_comm]
    exact decodeUpdates_of_updateFault h _ w) hu (Nat.zero_add m)
  rw [Nat.add_sub_cancel' hm] at hstop
  exact decDeltaEffect_eq_error.2 (.inr ⟨hv, .inr ⟨hfield, hstop⟩⟩)

/-- The loop applies every delta encoding at the start of `BITS`, and the empty one without a tree. -/
theorem decodeUpdates_of_encoding {s : State} (h : s.Inv) {ch : List (Cell × Nat)} {b : Bits} (w : Frame)
    (hi : ∀ p ∈ ch, p.2 < s.plen.toNat) (hb : b <+: s.bits)
    (he : ch = [] ∧ b = [] ∨ ∃ n, s.tree = some n ∧ isDeltaEncoding n ch b) :
    decodeUpdates s ch.length 0 0 w = .ok (applyUpdates w ch, b.length) := by
  rcases he with ⟨rfl, rfl⟩ | ⟨n, hn, he⟩
  · rfl
  · exact (decodeUpdates_eq_ok h.blenIsLength (h.heldTree_eq.trans hn)).2
      ⟨ch, b, rfl, hi, he, hb, (Nat.zero_add _).symm, rfl⟩

/-- DEC_DELTA puts in place the previous frame with the updates whose encoding is at the start of `BITS`. -/
theorem decDeltaEffect_of_encoding {s : State} (h : s.Inv) (hv : s.prevV = true) (hfield : s.cnt.toNat ≤ fieldMax)
    {ch : List (Cell × Nat)} {b : Bits} (hlen : ch.length = s.cnt.toNat) (hi : ∀ p ∈ ch, p.2 < s.plen.toNat)
    (hb : b <+: s.bits) (he : ch = [] ∧ b = [] ∨ ∃ n, s.tree = some n ∧ isDeltaEncoding n ch b) :
    decDeltaEffect s = .ok (s.putFrame (applyUpdates s.prev ch) s.plen b.length) := by
  have hu := decodeUpdates_of_encoding h s.prev hi hb he
  rw [hlen] at hu
  exact decDeltaEffect_eq_ok.2 ⟨hv, hfield, _, _, hu, rfl⟩

/-- Updates keep the length of the frame they are made in. -/
@[simp] theorem applyUpdates_length (w : Frame) (ch : List (Cell × Nat)) : (applyUpdates w ch).length = w.length := by
  induction ch generalizing w with
  | nil => rfl
  | cons p ch ih => exact (ih (w.set p.2 p.1)).trans List.length_set

/-- Settles O26: the flag, the test of `CNT`, the first update at which the loop stops, or the updated frame in its place. -/
theorem decDeltaAppliesTheUpdates : Obligations.DecDeltaAppliesTheUpdates := by
  intro s hinv hs
  have hfault {r : Raise} (h : decDeltaEffect s = .error r) : exec .decDelta s = .next (s.raise r) :=
    exec_error (by simp) hs h
  refine ⟨fun hv => ?_, fun hv => ⟨fun hsign => ?_, fun hfield => ⟨fun m w c hm hu => ?_, fun ch b hlen hi hb he => ?_⟩⟩⟩
  · exact hfault (decDeltaEffect_eq_error.2 (.inl ⟨hv, rfl⟩))
  · exact hfault (decDeltaEffect_eq_error.2 (.inr ⟨hv, .inl ⟨hsign, rfl⟩⟩))
  · have hstop {r : Raise} (h : updateFault s c m r) : exec .decDelta s = .next (s.raise r) :=
      hfault (decDeltaEffect_of_updateFault hv hfield hm hu h)
    exact ⟨fun hshort => hstop (.inl ⟨hshort, rfl⟩), fun hbits hidx => hstop (.inr ⟨hbits, .inl ⟨hidx, rfl⟩⟩),
      fun hbits hidx r hcell => hstop (.inr ⟨hbits, .inr ⟨hidx, hcell⟩⟩)⟩
  · have hframe : s.plen.toNat = (applyUpdates s.prev ch).length := by rw [applyUpdates_length, hinv.plenIsLength]
    exact ⟨_, exec_ok (by simp) hs (decDeltaEffect_of_encoding hinv hv hfield hlen hi hb he), cur_putFrame _ _ hframe,
      fun i hi => by rw [curWord_putFrame, dif_neg (by omega)], rfl⟩

/-! ### The round trip (rule R205) -/

/-- A command that neither was ignored nor faulted has taken its effect. -/
theorem effectOf_of_exec {i : Instr} (hi : i ≠ .reset) {s t : State} (hs : s.fault = false) (ht : t.fault = false)
    (he : exec i s = .next t) : effectOf i s = .ok t := by
  rcases exec_inv hi he with ⟨hf, -⟩ | ⟨-, -, hok⟩ | ⟨-, r, -, rfl⟩
  · simp [hs] at hf
  · exact hok
  · simp at ht

/-- A valid code table is that of the tree in place, so a frame all of whose symbols have codes is encoded by code paths. -/
theorem codesFrom_of_codeV {s : State} (h : s.Inv) (hv : s.codeV = true) : ∃ n, s.tree = some n ∧
    ∀ f : Frame, (∀ c ∈ f, (Table.at s.code c.sym).isSome = true) → codesFrom n s.code f := by
  obtain ⟨-, n, hn, hcode⟩ := h.codeFlag hv
  refine ⟨n, hn, fun f hf => ?_⟩
  rw [hcode] at hf ⊢
  exact codesFrom_genCodes (h.treeSize n hn) hf

/-- What ENC_FULL leaves in `BITS` and `CNT`: an encoding of the frame and its length. -/
theorem encFullEffect_encoding {s t : State} (h : s.Inv) (he : encFullEffect s = .ok t) :
    ∃ n, s.tree = some n ∧ isFrameEncoding n (cur s) t.bits ∧ (cur s).length = t.cnt.toNat := by
  obtain ⟨hv, -, hcodes, -, -, rfl⟩ := encFullEffect_eq_ok.1 he
  obtain ⟨n, hn, hpaths⟩ := codesFrom_of_codeV h hv
  exact ⟨n, hn, isFrameEncoding_flatMap (hpaths _ (forall_zipIdx hcodes)), length_cur s⟩

/-- What ENC_DELTA leaves in `BITS` and `CNT`: a delta encoding of the changed cells and their number, a legal count. -/
theorem encDeltaEffect_encoding {s t : State} (h : s.Inv) (he : encDeltaEffect s = .ok t) :
    ∃ n, s.tree = some n ∧ isDeltaEncoding n (changedCells s.prev s.prev.length (cur s)) t.bits ∧
      (changedCells s.prev s.prev.length (cur s)).length = t.cnt.toNat ∧ t.cnt.toNat ≤ fieldMax := by
  obtain ⟨⟨hv, -⟩, hlen, hcodes, -, -, rfl⟩ := encDeltaEffect_eq_ok.1 he
  obtain ⟨n, hn, hpaths⟩ := codesFrom_of_codeV h hv
  have hcount := toNat_changeCount s rfl
  rw [← h.plenIsLength]
  refine ⟨n, hn, isDeltaEncoding_flatMap (hpaths _ fun c hc => ?_), hcount.symm, ?_⟩
  · obtain ⟨p, hp, rfl⟩ := List.mem_map.1 hc
    exact hcodes p hp
  · calc (BitVec.ofNat 32 (changedCells s.prev s.plen.toNat (cur s)).length).toNat
      _ = (changedCells s.prev s.plen.toNat (cur s)).length := hcount
      _ ≤ (cur s).length := changedCells_length ..
      _ = s.clen.toNat := length_cur s
      _ ≤ s.cfg.cellCap := hlen
      _ ≤ fieldMax := h.cfg.cellCap_le

/-- A delta encoding of two runs of updates is one of the first followed by one of the second. -/
theorem isDeltaEncoding_append {n : Node} {ch ch' : List (Cell × Nat)} {b : Bits} (h : isDeltaEncoding n (ch ++ ch') b) :
    ∃ b1 b2, isDeltaEncoding n ch b1 ∧ isDeltaEncoding n ch' b2 ∧ b = b1 ++ b2 := by
  induction ch generalizing b with
  | nil => exact ⟨[], b, rfl, h, rfl⟩
  | cons p ch ih =>
    obtain ⟨c, d, hc, hd, rfl⟩ := h
    obtain ⟨d1, d2, hd1, hd2, rfl⟩ := ih hd
    exact ⟨bits32 p.2 ++ (c ++ d1), d2, ⟨c, d1, hc, hd1, rfl⟩, hd2, by simp only [List.append_assoc]⟩

/-- The changed cells of a frame are at positions of the frame. -/
theorem changedCells_lt {prev f : Frame} {plen : Nat} {p : Cell × Nat} (h : p ∈ changedCells prev plen f) :
    p.2 < f.length :=
  (List.getElem?_eq_some_iff.1 (mem_changedCells h).1).1

/-- In a frame longer than the previous one, the changes inside it are followed by the cell at its end. -/
theorem changedCells_of_longer {prev f : Frame} (h : prev.length < f.length) : ∃ ch c ch',
    changedCells prev prev.length f = ch ++ (c, prev.length) :: ch' ∧ ∀ p ∈ ch, p.2 < prev.length := by
  have hsplit := changedCells_longer prev f
  rw [List.drop_eq_getElem_cons h, List.zipIdx_cons, Nat.min_eq_right h.le] at hsplit
  exact ⟨_, _, _, hsplit, fun p hp => (changedCells_lt hp).trans_le (by simp)⟩

/-- An index past the previous frame, after updates inside it, is the fault of DEC_DELTA. -/
theorem decDeltaEffect_indexOutOfRange {v : State} (h : v.Inv) (hv : v.prevV = true) {n : Node}
    (hn : v.tree = some n) {ch ch' : List (Cell × Nat)} {q : Cell × Nat} (he : isDeltaEncoding n (ch ++ q :: ch') v.bits)
    (hcnt : (ch ++ q :: ch').length = v.cnt.toNat) (hfield : v.cnt.toNat ≤ fieldMax)
    (hi : ∀ p ∈ ch, p.2 < v.plen.toNat) (hq : v.plen.toNat ≤ q.2) (hq' : q.2 < 2 ^ 32) :
    decDeltaEffect v = .error ⟨.indexOutOfRange, q.2, v.plen.toNat⟩ := by
  obtain ⟨b1, b2, he1, ⟨c, d, -, -, rfl⟩, hbits⟩ := isDeltaEncoding_append he
  have hu := decodeUpdates_of_encoding h v.prev hi ⟨_, hbits.symm⟩ (.inr ⟨n, hn, he1⟩)
  have hindex : bits32 q.2 <+: rest v b1.length := by simp [rest, hbits]
  obtain ⟨hlen, hval⟩ := bitsRead32_of_prefix h.blenIsLength hq' hindex
  have hm : ch.length < v.cnt.toNat := by
    rw [← hcnt]
    simp
  exact decDeltaEffect_of_updateFault hv hfield hm hu (.inr ⟨hlen, .inl (by rw [hval]; exact ⟨hq, rfl⟩)⟩)

/-- DEC_FULL gives back the frame whose encoding is the whole of `BITS` (rule R205 (a)). -/
theorem exec_decFull_of_frame {v : State} (h : v.Inv) (hf : v.fault = false) (hcap : v.cnt.toNat ≤ v.cfg.cellCap) {n : Node}
    (hn : v.tree = some n) {f : Frame} (he : isFrameEncoding n f v.bits) (hlen : f.length = v.cnt.toNat) :
    ∃ u, exec .decFull v = .next u ∧ u.fault = false ∧ cur u = f := by
  have hdec := decFullEffect_of_encoding h hcap hlen List.prefix_rfl (.inr ⟨n, hn, he⟩)
  exact ⟨_, exec_ok (by simp) hf hdec, (effectOf_fault (i := .decFull) hdec).trans hf,
    (cur_markPrev _).trans (cur_putFrame _ _ hlen.symm)⟩

/-- DEC_DELTA gives back a frame no longer than the previous one from its changed cells, and after it what the previous one has beyond it (rule R205 (b) and (c)). -/
theorem exec_decDelta_of_changedCells {v : State} (h : v.Inv) (hf : v.fault = false) (hv : v.prevV = true) {n : Node}
    (hn : v.tree = some n) {f : Frame} (he : isDeltaEncoding n (changedCells v.prev v.prev.length f) v.bits)
    (hcnt : (changedCells v.prev v.prev.length f).length = v.cnt.toNat) (hfield : v.cnt.toNat ≤ fieldMax)
    (hle : f.length ≤ v.prev.length) :
    ∃ u, exec .decDelta v = .next u ∧ u.fault = false ∧ cur u = f ++ v.prev.drop f.length := by
  have hinside : ∀ p ∈ changedCells v.prev v.prev.length f, p.2 < v.plen.toNat := fun p hp =>
    h.plenIsLength ▸ (changedCells_lt hp).trans_le hle
  have hdec := decDeltaEffect_of_encoding h hv hfield hcnt hinside List.prefix_rfl (.inr ⟨n, hn, he⟩)
  refine ⟨_, exec_ok (by simp) hf hdec, (effectOf_fault (i := .decDelta) hdec).trans hf, ?_⟩
  rw [cur_putFrame _ _ (by rw [applyUpdates_length, h.plenIsLength]), applyUpdates_changedCells hle]

/-- DEC_DELTA faults on the changed cells of a longer frame at the first index past the previous one (rule R205 (c)). -/
theorem exec_decDelta_of_longer {v : State} (h : v.Inv) (hf : v.fault = false) (hv : v.prevV = true) {n : Node}
    (hn : v.tree = some n) {f : Frame} (he : isDeltaEncoding n (changedCells v.prev v.prev.length f) v.bits)
    (hcnt : (changedCells v.prev v.prev.length f).length = v.cnt.toNat) (hfield : v.cnt.toNat ≤ fieldMax)
    (hlong : v.prev.length < f.length) :
    exec .decDelta v = .next (v.raise ⟨.indexOutOfRange, v.prev.length, v.prev.length⟩) := by
  obtain ⟨ch, c, ch', hch, hinside⟩ := changedCells_of_longer hlong
  rw [hch] at he hcnt
  rw [← h.plenIsLength] at he hcnt hinside ⊢
  exact exec_error (by simp) hf (decDeltaEffect_indexOutOfRange h hv hn he hcnt hfield hinside le_rfl v.plen.isLt)

/-- Settles O27: each encoder leaves an encoding under the tree both states hold, and its decoder reads that encoding. -/
theorem frameRoundTrip : Obligations.FrameRoundTrip := by
  intro s t v hinv hvinv hs ht hvf htree hbits hcnt
  refine ⟨fun he hcap => ?_, fun he hv hprev => ?_⟩
  · obtain ⟨n, hn, henc, hlen⟩ := encFullEffect_encoding hinv (effectOf_of_exec (by simp) hs ht he)
    rw [← hbits] at henc
    rw [← hcnt] at hcap hlen
    exact exec_decFull_of_frame hvinv hvf hcap (htree.trans hn) henc hlen
  · obtain ⟨n, hn, henc, hcount, hfield⟩ := encDeltaEffect_encoding hinv (effectOf_of_exec (by simp) hs ht he)
    rw [← hbits] at henc
    rw [← hcnt] at hcount hfield
    rw [← hprev] at henc hcount ⊢
    have hshort := exec_decDelta_of_changedCells hvinv hvf hv (htree.trans hn) henc hcount hfield
    refine ⟨fun heq => ?_, exec_decDelta_of_longer hvinv hvf hv (htree.trans hn) henc hcount hfield,
      fun hlt => hshort hlt.le⟩
    simpa only [heq, List.drop_length, List.append_nil] using hshort heq.le

end Sys2Proof.Machine

/-! SUPPORT. The statements about the container (44_container_sequencing.md): its count fields, and the host's calls COMPRESS and DECOMPRESS. -/

namespace Sys2Proof.Machine

/-! ### Count fields (rules R210 and R211) -/

/-- PUT32's fault is that of the count, or else that of the room. -/
theorem put32Effect_eq_error {s : State} {r : Raise} : put32Effect s = .error r ↔
    (fieldMax < s.cnt.toNat ∧ r = ⟨.capacityExceeded, s.cnt.toNat, fieldMax⟩) ∨
    s.cnt.toNat ≤ fieldMax ∧ s.cfg.outCap < s.olen.toNat + 4 ∧ r = ⟨.capacityExceeded, s.olen.toNat + 4, s.cfg.outCap⟩ := by
  simp only [put32Effect, bind_eq_error, require_eq_error, require_eq_ok, outAppend_eq_error, le32_length, exists_const,
    Nat.not_le, eq_comm (b := r)]

/-- Settles O29: the two faults in order, and past them the append of the count field, the four bytes of `CNT`. -/
theorem put32AppendsTheCount : Obligations.Put32AppendsTheCount := by
  intro s hinv hs
  have hfault {r : Raise} (h : put32Effect s = .error r) : exec .put32 s = .next (s.raise r) :=
    exec_error (by simp) hs h
  simp only [put32Effect_eq_error] at hfault
  refine ⟨fun hlarge => hfault (.inl ⟨hlarge, rfl⟩), fun hfield => ⟨fun hfull => hfault (.inr ⟨hfield, hfull, rfl⟩),
    fun hroom => ?_⟩⟩
  have hlt := hinv.room hroom
  exact ⟨_, exec_ok (by simp) hs (put32Effect_eq_ok.2 ⟨hfield, hroom, rfl⟩),
    (out_appended hlt).trans (congrArg (out s ++ ·) (le32_word s.cnt)), appended_olen (bs := le32 s.cnt.toNat) hlt, rfl⟩

/-- GET32's fault is that of the first of its three tests that fails. -/
theorem get32Effect_eq_error {s : State} {r : Raise} : get32Effect s = .error r ↔
    (s.cfg.inCap < s.ilen.toNat ∧ r = ⟨.capacityExceeded, s.ilen.toNat, s.cfg.inCap⟩) ∨
    s.ilen.toNat ≤ s.cfg.inCap ∧ ((inAvail s < 4 ∧ r = ⟨.truncatedStream, 4, inAvail s⟩) ∨
    4 ≤ inAvail s ∧ fieldMax < in32 s 0 ∧ r = ⟨.reservedValue, in32 s 0, s.ipos.toNat⟩) := by
  simp only [get32Effect, requireInput, requireBytes, bind_eq_error, require_eq_error, require_eq_ok, exists_const,
    reduceCtorEq, and_false, or_false, Nat.not_le, eq_comm (b := r)]

/-- Settles O30: the three tests one inside the other, and past the last of them the count read into `CNT`. -/
theorem get32ReadsTheCount : Obligations.Get32ReadsTheCount := by
  intro s hs v
  have hfault {r : Raise} (h : get32Effect s = .error r) : exec .get32 s = .next (s.raise r) :=
    exec_error (by simp) hs h
  simp only [get32Effect_eq_error] at hfault
  refine ⟨fun hlong => ?_, fun hlen => ⟨fun hshort => ?_, fun hcount => ⟨fun hsign => ?_, fun hfield => ?_⟩⟩⟩
  · exact hfault (.inl ⟨hlong, rfl⟩)
  · exact hfault (.inr ⟨hlen, .inl ⟨hshort, rfl⟩⟩)
  · exact hfault (.inr ⟨hlen, .inr ⟨hcount, hsign, rfl⟩⟩)
  · exact exec_ok (by simp) hs (get32Effect_eq_ok.2 ⟨hlen, hcount, hfield, rfl⟩)

/-! ### The container (rules R95 to R101 and R212) -/

/-- The record of a frame: its count field `k` and the PACK record of its bits `b` (rules R100 and R101). -/
def frameRecord (k : Nat) (b : Bits) : List Byte := le32 k ++ packRecord b.length b

/-- `bs` is the delta frame records of `fs`, the first frame against `prev` and each other one against its predecessor, of at most `cap` bits each (rules R101 and R212). -/
def isDeltaRecords (n : Node) (cap : Nat) : Frame → List Frame → List Byte → Prop
  | _, [], bs => bs = []
  | prev, f :: fs, bs => ∃ (b : Bits) (bs' : List Byte),
      isDeltaEncoding n (changedCells prev prev.length f) b ∧ b.length ≤ cap ∧ isDeltaRecords n cap f fs bs' ∧
      bs = frameRecord (changedCells prev prev.length f).length b ++ bs'

/-- `bs` is a container of the video `f :: fs`: the frame count, the record of the tree `n`, the full frame record of `f` and the delta frame records of `fs` (rules R96 and R212). -/
def isContainer (n : Node) (cap : Nat) (f : Frame) (fs : List Frame) (bs : List Byte) : Prop :=
  ∃ (b : Bits) (bs' : List Byte), isFrameEncoding n f b ∧ b.length ≤ cap ∧ isDeltaRecords n cap f fs bs' ∧
    bs = le32 (f :: fs).length ++ (ser n ++ (frameRecord f.length b ++ bs'))

/-! ### Calls that fail only for room (rules R215 and R248) -/

/-- A part of a call that ends in a result with `P`, or has failed with kind CapacityExceeded, code 8. -/
def doneOrFull {α : Type} (P : α → Prop) : Except HostStop α → Prop
  | .ok a => P a
  | .error e => e = .failed 8

theorem doneOrFull_bind {α β : Type} {P : α → Prop} {Q : β → Prop} {x : Except HostStop α} {f : α → Except HostStop β}
    (hx : doneOrFull P x) (hf : ∀ a, P a → doneOrFull Q (f a)) : doneOrFull Q (x >>= f) := by
  cases x with
  | ok a => exact hf a hx
  | error e => exact hx

theorem doneOrFull_mono {α : Type} {P Q : α → Prop} {x : Except HostStop α} (hx : doneOrFull P x)
    (h : ∀ a, P a → Q a) : doneOrFull Q x := by
  cases x with
  | ok a => exact h a hx
  | error e => exact hx

theorem doneOrFull_append {P Q : State → Prop} {l1 l2 : List HostLine} {s : State} (h1 : doneOrFull P (runLines l1 s))
    (h2 : ∀ t, P t → doneOrFull Q (runLines l2 t)) : doneOrFull Q (runLines (l1 ++ l2) s) := by
  rw [runLines_append]
  exact doneOrFull_bind h1 h2

/-- What the host's look at `STATUS` leaves after a command (assumption 8). -/
def State.checked (s : State) : State := { s with rdata := status s }

/-- A command whose effect succeeds: the host goes on from what it leaves. -/
theorem runLines_effect {i : Instr} {s t : State} (hi : i ≠ .reset) (hs : s.fault = false) (h : effectOf i s = .ok t)
    (ls : List HostLine) : runLines (.cmd i :: ls) s = runLines ls t.checked :=
  runLines_cmd_ok ls hi hs h

/-- Any other line has no check after it. -/
theorem runLines_line {l : HostLine} (hl : ∀ i, l ≠ .cmd i) {s t : State} {ws : List Word} (h : runLine l s = .ok (ws, t))
    (ls : List HostLine) : runLines (l :: ls) s = runLines ls t := by
  cases l
  case cmd i => exact absurd rfl (hl i)
  all_goals
    simp only [runLines, h]
    rfl

/-- A command that can only fail for room. -/
theorem doneOrFull_cmd {P : State → Prop} {i : Instr} {ls : List HostLine} {s : State} (hi : i ≠ .reset)
    (hs : s.fault = false) (hfull : ∀ r, effectOf i s = .error r → r.cause = .capacityExceeded)
    (hok : ∀ t, effectOf i s = .ok t → doneOrFull P (runLines ls t.checked)) :
    doneOrFull P (runLines (.cmd i :: ls) s) := by
  cases he : effectOf i s with
  | ok t =>
    rw [runLines_effect hi hs he]
    exact hok t he
  | error r =>
    rw [runLines_cmd_error ls hi hs he, hfull r he]
    rfl

/-! ### The state during a call -/

section

variable {c : Config} {n : Node} {cs : Frame} {s : State}

/-- `s` meets the invariant on the part `c`, with `FAULT = 0`. -/
structure Running (c : Config) (s : State) : Prop where
  inv : s.Inv
  fault : s.fault = false
  cfg : s.cfg = c

theorem Running.checked (h : Running c s) : Running c s.checked :=
  { h with inv := { h.inv with } }

theorem Running.effect {t : State} (h : Running c s) {i : Instr} (he : effectOf i s = .ok t) : Running c t where
  inv := effectOf_inv h.inv he
  fault := (effectOf_fault he).trans h.fault
  cfg := by
    rw [effectOf_withOperands he]
    exact h.cfg

/-- RESET begins both calls, whatever the state before (rule R231). -/
theorem runLines_reset (hc : s.cfg.WellFormed) (ls : List HostLine) :
    runLines (.cmd .reset :: ls) s = runLines ls s.afterReset.checked ∧ Running s.cfg s.afterReset.checked :=
  ⟨runLines_cmd ls (exec_reset s), inv_resetWith hc _ _ _, rfl, rfl⟩

/-! ### COMPRESS: the frames and their counts (rules R120, R121, R214 and R215) -/

/-- What `WRCUR f` leaves (rule R107). -/
def State.wrcur (s : State) (f : Frame) : State :=
  { s with curw := Memory.writeRun s.curw 0 (f.map wordOfCell), clen := BitVec.ofNat 32 f.length }

theorem Running.wrcur (h : Running c s) {f : Frame} (hf : f.length ≤ c.cellCap) :
    Running c (s.wrcur f) :=
  { h with inv := h.inv.wrcur (h.cfg ▸ hf) _ }

theorem Running.runLines_wrcur (h : Running c s) {f : Frame} (hf : f.length ≤ c.cellCap)
    (ls : List HostLine) : runLines (.wrcur f :: ls) s = runLines ls (s.wrcur f) :=
  runLines_line (by simp) (runLine_wrcur h.inv.cfg (h.cfg ▸ hf)) ls

/-- The frame written is the current frame. -/
theorem Running.cur_wrcur (h : Running c s) {f : Frame} (hf : f.length ≤ c.cellCap) :
    cur (s.wrcur f) = f := by
  have hcap := h.inv.cfg.cellCap_le
  rw [h.cfg] at hcap
  exact Machine.cur_wrcur s (by omega)

/-- A state of COMPRESS with nothing output yet, in which the symbol of every cell of `cs` is counted. -/
structure Counted (c : Config) (cs : Frame) (s : State) : Prop extends Running c s where
  output : out s = []
  counted : ∀ x ∈ cs, Table.at s.freq x.sym ≠ 0

theorem accumulate_error {freq : Table (BitVec 64)} {f : Frame} {r : Raise} (h : accumulate freq f = .error r) :
    r.cause = .capacityExceeded := by
  simp only [accumulate] at h
  split at h <;> cases h
  rfl

theorem freqAccEffect_error {r : Raise} (h : freqAccEffect s = .error r) : r.cause = .capacityExceeded := by
  simp only [freqAccEffect, requireFrame, bind_eq_error, require_eq_error] at h
  rcases h with ⟨-, rfl⟩ | ⟨_, -, h | ⟨_, -, h⟩⟩
  · rfl
  · exact accumulate_error h
  · cases h

/-- FREQ_ACC loses no count and counts every cell of the current frame (rule R121). -/
theorem freqAccEffect_counted {t : State} (h : freqAccEffect s = .ok t) {x : Cell}
    (hx : Table.at s.freq x.sym ≠ 0 ∨ x ∈ cur s) : Table.at t.freq x.sym ≠ 0 := by
  obtain ⟨-, hsum, rfl⟩ := freqAccEffect_eq_ok.1 h
  have hpos : 0 < (Table.at s.freq x.sym).toNat + symCount (cur s) x.sym := by
    rcases hx with hx | hx
    · have : (Table.at s.freq x.sym).toNat ≠ 0 := fun h0 => hx (BitVec.eq_of_toNat_eq h0)
      omega
    · have : 0 < symCount (cur s) x.sym := List.countP_pos_iff.2 ⟨x, hx, by simp⟩
      omega
  rw [Table.at_make, ← BitVec.toNat_ne_iff_ne, BitVec.toNat_ofNat, Nat.mod_eq_of_lt (hsum x.sym)]
  exact hpos.ne'

theorem Counted.freqScan (h : Counted c cs s) {f : Frame} (hf : f.length ≤ c.cellCap) :
    doneOrFull (Counted c (cs ++ f)) (runLines (freqScan f) s) := by
  have hw := h.toRunning.wrcur hf
  rw [Machine.freqScan, h.runLines_wrcur hf]
  refine doneOrFull_cmd (by simp) hw.fault (fun r => freqAccEffect_error) fun t ht => ?_
  refine { (hw.effect ht).checked with output := ?_, counted := fun x hx => freqAccEffect_counted ht ?_ }
  · obtain ⟨-, -, rfl⟩ := freqAccEffect_eq_ok.1 ht
    exact h.output
  · rw [h.cur_wrcur hf]
    exact (List.mem_append.1 hx).imp_left (h.counted x)

theorem Counted.freqScans {fs : List Frame} (hfs : ∀ f ∈ fs, f.length ≤ c.cellCap) :
    ∀ {cs : Frame} {s : State}, Counted c cs s →
      doneOrFull (Counted c (cs ++ fs.flatten)) (runLines (fs.flatMap Machine.freqScan) s) := by
  induction fs with
  | nil =>
    intro cs s h
    simpa [runLines, doneOrFull] using h
  | cons f fs ih =>
    intro cs s h
    obtain ⟨hf, hfs⟩ := List.forall_mem_cons.1 hfs
    rw [List.flatMap_cons, List.flatten_cons, ← List.append_assoc]
    exact doneOrFull_append (h.freqScan hf) fun t => ih hfs

/-- RESET and FREQ_CLR leave nothing output and nothing counted. -/
theorem counted_start (hc : s.cfg.WellFormed) :
    doneOrFull (Counted s.cfg []) (runLines [.cmd .reset, .cmd .freqClr] s) := by
  obtain ⟨hrun, hreset⟩ := runLines_reset hc [.cmd .freqClr]
  have hclr : effectOf .freqClr s.afterReset.checked = .ok _ := freqClrEffect_eq_ok.2 rfl
  rw [hrun, runLines_effect (by simp) hreset.fault hclr]
  exact { (hreset.effect hclr).checked with output := rfl, counted := by simp }

/-! ### COMPRESS: the tree, the codes and the head of the container (rules R125, R133, R150 and R215) -/

/-- A state of COMPRESS with the tree `n` in place, in which every cell of `cs` has a code. -/
structure Coded (c : Config) (n : Node) (cs : Frame) (s : State) : Prop extends Running c s where
  tree : s.tree = some n
  codeV : s.codeV = true
  coded : ∀ x ∈ cs, (Table.at s.code x.sym).isSome = true

/-- BUILD_TREE succeeds once a cell is counted, and the tree has a leaf for every symbol counted (rule R129 (a)). -/
theorem buildTreeEffect_of_counted (hne : cs ≠ []) (h : ∀ x ∈ cs, Table.at s.freq x.sym ≠ 0) :
    ∃ n, buildTreeEffect s = .ok (s.setTree n) ∧ ∀ x ∈ cs, x.sym ∈ n.leaves := by
  have hmem : ∀ x ∈ cs, x.sym ∈ countedSymbols s.freq := fun x hx => mem_countedSymbols.2 (h x hx)
  obtain ⟨x, hx⟩ := List.exists_mem_of_ne_nil cs hne
  obtain ⟨n, hn, htree⟩ := buildDet_huffman (List.ne_nil_of_mem (hmem x hx))
  exact ⟨n, buildTreeEffect_eq_ok.2 ⟨n, hn, rfl⟩, fun y hy => htree.leaves_perm.mem_iff.2 (hmem y hy)⟩

/-- BUILD_TREE and GEN_CODES do not fail and give every counted cell a code. -/
theorem Counted.codes (h : Counted c cs s) (hne : cs ≠ []) (ls : List HostLine) :
    ∃ n t, runLines (.cmd .buildTree :: .cmd .genCodes :: ls) s = runLines ls t ∧ Coded c n cs t ∧ out t = [] := by
  obtain ⟨n, hbuild, hleaves⟩ := buildTreeEffect_of_counted hne h.counted
  have ht := (h.effect (i := .buildTree) hbuild).checked
  have hgen : effectOf .genCodes (s.setTree n).checked = .ok _ :=
    genCodesEffect_eq_ok.2 ⟨n, ht.inv.heldTree_eq, rfl⟩
  have hrun : runLines (.cmd .buildTree :: .cmd .genCodes :: ls) s = runLines ls _ :=
    (runLines_effect (i := .buildTree) (by simp) h.fault hbuild _).trans (runLines_effect (by simp) ht.fault hgen ls)
  exact ⟨n, _, hrun, { (ht.effect hgen).checked with
    tree := rfl, codeV := rfl, coded := fun x hx => genCodes_isSome.2 (hleaves x hx) }, h.output⟩

@[simp] theorem appended_tree (s : State) (bs : List Byte) : (appended s bs).tree = s.tree := rfl
@[simp] theorem appended_code (s : State) (bs : List Byte) : (appended s bs).code = s.code := rfl
@[simp] theorem appended_codeV (s : State) (bs : List Byte) : (appended s bs).codeV = s.codeV := rfl
@[simp] theorem appended_prevV (s : State) (bs : List Byte) : (appended s bs).prevV = s.prevV := rfl
@[simp] theorem appended_epoch (s : State) (bs : List Byte) : (appended s bs).epoch = s.epoch := rfl

/-- The output stream is what `OUTB` holds below `OLEN`. -/
theorem out_congr {t : State} (he : t.epoch = s.epoch) (ho : t.outb = s.outb) (hl : t.olen = s.olen) : out t = out s := by
  rw [out, out, hl]
  exact List.map_congr_left fun k _ => outbByte_congr he ho hl k

/-- Appending to the output keeps the tree and the codes. -/
theorem Coded.append (h : Coded c n cs s) {bs : List Byte}
    (hroom : s.olen.toNat + bs.length ≤ s.cfg.outCap) :
    Coded c n cs (appended s bs) ∧ out (appended s bs) = out s ++ bs :=
  ⟨{ h with inv := h.inv.appended hroom }, out_appended (h.inv.room hroom)⟩

theorem Coded.wrcur (h : Coded c n cs s) {f : Frame}
    (hf : f.length ≤ c.cellCap) : Coded c n cs (s.wrcur f) ∧ cur (s.wrcur f) = f :=
  ⟨{ h with toRunning := h.toRunning.wrcur hf }, h.cur_wrcur hf⟩

theorem Coded.checked (h : Coded c n cs s) : Coded c n cs s.checked :=
  { h with toRunning := h.toRunning.checked }

theorem put32Effect_error {r : Raise} (h : put32Effect s = .error r) : r.cause = .capacityExceeded := by
  rcases put32Effect_eq_error.1 h with ⟨-, rfl⟩ | ⟨-, -, rfl⟩ <;> rfl

/-- What `WR CNT, k` leaves. -/
def State.wrcnt (s : State) (k : Nat) : State := { s with cnt := BitVec.ofNat 32 k }

theorem runLines_wrcnt (s : State) (k : Nat) (ls : List HostLine) :
    runLines (.wr .cnt (BitVec.ofNat 32 k) :: ls) s = runLines ls (s.wrcnt k) :=
  runLines_line (by simp) (runLine_wr_cnt _ s) ls

/-- TREE_WR appends the tree's record. -/
theorem Coded.treeWr (h : Coded c n cs s) :
    doneOrFull (fun t => Coded c n cs t ∧ out t = out s ++ ser n) (runLines [.cmd .treeWr] s) := by
  have heff : effectOf .treeWr s = outAppend s (ser n) := treeWrEffect_of_tree h.inv h.tree
  refine doneOrFull_cmd (by simp) h.fault (fun r hr => outAppend_error (heff.symm.trans hr)) fun t ht => ?_
  obtain ⟨hroom, rfl⟩ := outAppend_eq_ok.1 (heff.symm.trans ht)
  obtain ⟨ht, hout⟩ := h.append hroom
  exact ⟨ht.checked, hout⟩

/-- `WR CNT, k`, PUT32 and TREE_WR append the frame count and the tree record. -/
theorem Coded.head (h : Coded c n cs s) {k : Nat} (hk : k ≤ 2147483647) :
    doneOrFull (fun t => Coded c n cs t ∧ out t = out s ++ le32 k ++ ser n)
      (runLines [.wr .cnt (BitVec.ofNat 32 k), .cmd .put32, .cmd .treeWr] s) := by
  have hcnt : Coded c n cs (s.wrcnt k) := { h with inv := h.inv.setCnt _ }
  have hval : (s.wrcnt k).cnt.toNat = k := by
    rw [State.wrcnt, BitVec.toNat_ofNat]
    omega
  rw [runLines_wrcnt]
  refine doneOrFull_cmd (by simp) hcnt.fault (fun r => put32Effect_error) fun t ht => ?_
  obtain ⟨-, hroom, rfl⟩ := put32Effect_eq_ok.1 ht
  obtain ⟨ht, hout⟩ := hcnt.append (bs := le32 (s.wrcnt k).cnt.toNat) hroom
  rw [hval] at ht hout ⊢
  rw [← show out (appended (s.wrcnt k) (le32 k)).checked = out s ++ le32 k from hout]
  exact ht.checked.treeWr

/-- The lines of COMPRESS between the counting of the frames and their encoding, for `k` frames (rule R215). -/
def headLines (k : Nat) : List HostLine :=
  [.cmd .buildTree, .cmd .genCodes, .wr .cnt (BitVec.ofNat 32 k), .cmd .put32, .cmd .treeWr]

theorem compressLines_eq (v : List Frame) : compressLines v =
    [.cmd .reset, .cmd .freqClr] ++ (v.flatMap freqScan ++ (headLines v.length ++ cFrames v)) := by
  simp only [compressLines, headLines, List.append_assoc]

/-- Once a cell is counted, the head of the container is the frame count and the record of the tree built. -/
theorem Counted.head (h : Counted c cs s) (hne : cs ≠ []) {k : Nat}
    (hk : k ≤ 2147483647) :
    doneOrFull (fun t => ∃ n, Coded c n cs t ∧ out t = le32 k ++ ser n) (runLines (headLines k) s) := by
  obtain ⟨n, t, hrun, ht, hout⟩ := h.codes hne [.wr .cnt (BitVec.ofNat 32 k), .cmd .put32, .cmd .treeWr]
  rw [headLines, hrun]
  refine doneOrFull_mono (ht.head hk) fun u ⟨hu, hout'⟩ => ⟨n, hu, ?_⟩
  rw [hout', hout, List.nil_append]

/-! ### COMPRESS: one frame (rules R165, R185, R195 and R214) -/

/-- With every cell coded, an encoder past its flags can only fail for room. -/
theorem encodeCount_error {ps : List (Cell × Nat)} {bits : Bits} {k : Nat} {r : Raise}
    (hcodes : ∀ p ∈ ps, (Table.at s.code p.1.sym).isSome = true) (h : encodeCount s ps bits k = .error r) :
    r.cause = .capacityExceeded := by
  rcases encodeCount_eq_error.1 h with ⟨-, rfl⟩ | ⟨-, h | ⟨-, ⟨-, rfl⟩ | ⟨-, -, rfl⟩⟩⟩
  · rfl
  · have hok : requireCodes s.code ps = .ok () := requireCodes_eq_ok.2 hcodes
    rw [hok] at h
    cases h
  · rfl
  · rfl

theorem map_eq_error {ε α β : Type} {f : α → β} {x : Except ε α} {e : ε} : f <$> x = .error e ↔ x = .error e := by
  cases x <;> simp [Functor.map, Except.map]

theorem Coded.encFull_error (h : Coded c n cs s) (hcur : cur s ⊆ cs)
    {r : Raise} (he : encFullEffect s = .error r) : r.cause = .capacityExceeded := by
  rw [encFullEffect_of_ready h.codeV, map_eq_error] at he
  exact encodeCount_error (fun p hp => h.coded _ (hcur (List.fst_mem_of_mem_zipIdx hp))) he

theorem Coded.encDelta_error (h : Coded c n cs s) (hcur : cur s ⊆ cs)
    (hprev : s.prevV = true) {r : Raise} (he : encDeltaEffect s = .error r) : r.cause = .capacityExceeded := by
  rw [encDeltaEffect_of_ready ⟨h.codeV, hprev⟩ rfl, map_eq_error] at he
  exact encodeCount_error (fun p hp => h.coded _ (hcur (List.mem_of_getElem? (mem_changedCells hp).1))) he

/-- What an encoder leaves of the current frame `f` besides an encoding in `BITS`: the count `k` appended, and `f` in `PREV`. -/
structure Encoded (f : Frame) (k : Nat) (s t : State) : Prop where
  output : out t = out s ++ le32 k
  prev : t.prev = f
  prevV : t.prevV = true
  tree : t.tree = s.tree
  code : t.code = s.code
  codeV : t.codeV = s.codeV

theorem encFullEffect_encoded {t : State} (h : s.Inv) (he : encFullEffect s = .ok t) :
    Encoded (cur s) (cur s).length s t := by
  obtain ⟨-, -, -, -, hroom, rfl⟩ := encFullEffect_eq_ok.1 he
  have hout := out_appended (bs := le32 s.clen.toNat) (h.room hroom)
  rw [length_cur]
  refine ⟨Eq.trans (out_congr ?_ ?_ ?_) hout, ?_, ?_, ?_, ?_, ?_⟩ <;> simp

theorem encDeltaEffect_encoded {t : State} (h : s.Inv) (he : encDeltaEffect s = .ok t) :
    Encoded (cur s) (changedCells s.prev s.prev.length (cur s)).length s t := by
  obtain ⟨⟨-, hv⟩, -, -, -, hroom, rfl⟩ := encDeltaEffect_eq_ok.1 he
  have hout := out_appended (bs := le32 (changedCells s.prev s.plen.toNat (cur s)).length) (h.room hroom)
  rw [← h.plenIsLength]
  refine ⟨Eq.trans (out_congr ?_ ?_ ?_) hout, ?_, ?_, ?_, ?_, ?_⟩ <;> simp [hv]

/-- A state of COMPRESS between two frames, the last one `f`. -/
structure Between (c : Config) (n : Node) (cs f : Frame) (s : State) : Prop extends Coded c n cs s where
  prev : s.prev = f
  prevV : s.prevV = true

theorem Encoded.between {f : Frame} {k : Nat} {t : State} (h : Coded c n cs s)
    (he : Encoded f k s t) (ht : Running c t) : Between c n cs f t :=
  { ht with
    tree := he.tree.trans h.tree
    codeV := he.codeV.trans h.codeV
    coded := he.code ▸ h.coded
    prev := he.prev
    prevV := he.prevV }

/-- PACK appends the record of the bits encoded. -/
theorem Between.pack {f : Frame} (h : Between c n cs f s) :
    doneOrFull (fun t => Between c n cs f t ∧ out t = out s ++ packRecord s.bits.length s.bits) (runLines [.cmd .pack] s) := by
  refine doneOrFull_cmd (by simp) h.fault (fun r => outAppend_error) fun t ht => ?_
  obtain ⟨hroom, rfl⟩ := outAppend_eq_ok.1 ht
  rw [h.inv.blenIsLength] at hroom ⊢
  obtain ⟨ht, hout⟩ := h.append hroom
  exact ⟨{ ht.checked with prev := h.prev, prevV := h.prevV }, hout⟩

/-- An encoder and PACK append the record of a frame, when the encoder can only fail for room and leaves bits with `P`. -/
theorem Coded.encode_pack {f : Frame} (h : Coded c n cs s) {encoder : Instr}
    (hi : encoder ≠ .reset) {k : Nat} {P : Bits → Prop}
    (hfull : ∀ r, effectOf encoder s = .error r → r.cause = .capacityExceeded)
    (hok : ∀ t, effectOf encoder s = .ok t → Encoded f k s t ∧ P t.bits) :
    doneOrFull (fun t => Between c n cs f t ∧ ∃ b, P b ∧ b.length ≤ c.bitCap ∧ out t = out s ++ frameRecord k b)
      (runLines [.cmd encoder, .cmd .pack] s) := by
  refine doneOrFull_cmd hi h.fault hfull fun t ht => ?_
  obtain ⟨henc, hbits⟩ := hok t ht
  have hrun := h.effect ht
  have hcap : t.bits.length ≤ c.bitCap := by
    rw [← hrun.inv.blenIsLength, ← hrun.cfg]
    exact hrun.inv.blenBound
  have hbetween : Between c n cs f t.checked := { henc.between h hrun with toCoded := (henc.between h hrun).checked }
  refine doneOrFull_mono hbetween.pack fun u ⟨hu, hout⟩ => ⟨hu, t.bits, hbits, hcap, ?_⟩
  rw [frameRecord, ← List.append_assoc, ← henc.output]
  exact hout

/-- CFRAME0 appends the full frame (rules R185 and R214). -/
theorem Coded.cFrame0 (h : Coded c n cs s) {f : Frame}
    (hf : f.length ≤ c.cellCap) (hcs : f ⊆ cs) :
    doneOrFull (fun t => Between c n cs f t ∧
      ∃ b, isFrameEncoding n f b ∧ b.length ≤ c.bitCap ∧ out t = out s ++ frameRecord f.length b)
      (runLines (Machine.cFrame0 f) s) := by
  obtain ⟨hw, hcur⟩ := h.wrcur hf
  rw [Machine.cFrame0, h.runLines_wrcur hf]
  refine hw.encode_pack (encoder := .encFull) (by simp) (fun r => hw.encFull_error (hcur.symm ▸ hcs)) fun t ht => ?_
  obtain ⟨n', hn', henc, -⟩ := encFullEffect_encoding hw.inv ht
  obtain rfl : n = n' := Option.some.inj (hw.tree.symm.trans hn')
  have hdone := encFullEffect_encoded hw.inv ht
  rw [hcur] at henc hdone
  exact ⟨hdone, henc⟩

/-- CFRAMEK appends the delta of the frame against the last one (rules R195 and R214). -/
theorem Between.cFrameK {prev : Frame} (h : Between c n cs prev s) {f : Frame}
    (hf : f.length ≤ c.cellCap) (hcs : f ⊆ cs) :
    doneOrFull (fun t => Between c n cs f t ∧ ∃ b, isDeltaEncoding n (changedCells prev prev.length f) b ∧
        b.length ≤ c.bitCap ∧ out t = out s ++ frameRecord (changedCells prev prev.length f).length b)
      (runLines (Machine.cFrameK f) s) := by
  obtain ⟨hw, hcur⟩ := h.toCoded.wrcur hf
  rw [Machine.cFrameK, h.runLines_wrcur hf]
  refine hw.encode_pack (encoder := .encDelta) (by simp) (fun r => hw.encDelta_error (hcur.symm ▸ hcs) h.prevV) fun t ht => ?_
  obtain ⟨n', hn', henc, -⟩ := encDeltaEffect_encoding hw.inv ht
  obtain rfl : n = n' := Option.some.inj (hw.tree.symm.trans hn')
  have hdone := encDeltaEffect_encoded hw.inv ht
  rw [hcur, show (s.wrcur f).prev = prev from h.prev] at henc hdone
  exact ⟨hdone, henc⟩

/-- The delta frames are appended in order (rules R212 and R215). -/
theorem Between.cFramesK {fs : List Frame} (hfs : ∀ f ∈ fs, f.length ≤ c.cellCap ∧ f ⊆ cs) :
    ∀ {prev : Frame} {s : State}, Between c n cs prev s →
      doneOrFull (fun t => Running c t ∧ ∃ bs, isDeltaRecords n c.bitCap prev fs bs ∧ out t = out s ++ bs)
        (runLines (fs.flatMap Machine.cFrameK) s) := by
  induction fs with
  | nil => exact fun {prev s} h => ⟨h.toRunning, [], rfl, by simp⟩
  | cons f fs ih =>
    intro prev s h
    obtain ⟨⟨hf, hcs⟩, hfs⟩ := List.forall_mem_cons.1 hfs
    rw [List.flatMap_cons]
    refine doneOrFull_append (h.cFrameK hf hcs) fun t ⟨ht, b, henc, hcap, hout⟩ => ?_
    refine doneOrFull_mono (ih hfs ht) fun u ⟨hu, bs, hbs, hout'⟩ => ⟨hu, _, ⟨b, bs, henc, hcap, hbs, rfl⟩, ?_⟩
    rw [hout', hout, List.append_assoc]

/-! ### COMPRESS (rule R215) -/

/-- The head and the frames make a container, once the cells of all the frames are counted. -/
theorem Counted.container {f : Frame} {fs : List Frame} (h : Counted c (f :: fs).flatten s)
    (hne : (f :: fs).flatten ≠ []) (hcount : (f :: fs).length ≤ 2147483647) (hcap : ∀ g ∈ f :: fs, g.length ≤ c.cellCap) :
    doneOrFull (fun t => Running c t ∧ ∃ n : Node, n.size ≤ 511 ∧ isContainer n c.bitCap f fs (out t))
      (runLines (headLines (f :: fs).length ++ cFrames (f :: fs)) s) := by
  have hall : ∀ g ∈ f :: fs, g.length ≤ c.cellCap ∧ g ⊆ (f :: fs).flatten := fun g hg =>
    ⟨hcap g hg, fun x hx => List.mem_flatten.2 ⟨g, hg, hx⟩⟩
  obtain ⟨⟨hf, hcs⟩, hfs⟩ := List.forall_mem_cons.1 hall
  refine doneOrFull_append (h.head hne hcount) fun t1 ⟨n, ht1, hout1⟩ => ?_
  refine doneOrFull_append (ht1.cFrame0 hf hcs) fun t2 ⟨ht2, b, henc, hbits, hout2⟩ => ?_
  refine doneOrFull_mono (ht2.cFramesK hfs) fun t3 ⟨ht3, bs, hbs, hout3⟩ => ?_
  refine ⟨ht3, n, ht1.inv.treeSize n ht1.tree, b, bs, henc, hbits, hbs, ?_⟩
  simp only [hout3, hout2, hout1, List.append_assoc]

/-- COMPRESS of a video with a cell fails only for room, and makes a container of it (rule R219). -/
theorem compress_container {f : Frame} {fs : List Frame} (hc : s.cfg.WellFormed) (hne : (f :: fs).flatten ≠ [])
    (hcount : (f :: fs).length ≤ 2147483647) (hcap : ∀ g ∈ f :: fs, g.length ≤ s.cfg.cellCap) :
    doneOrFull (fun p => ∃ n : Node, n.size ≤ 511 ∧ isContainer n s.cfg.bitCap f fs p.1) (compress (f :: fs) s) := by
  have hlines : doneOrFull (fun t => Running s.cfg t ∧ ∃ n : Node, n.size ≤ 511 ∧ isContainer n s.cfg.bitCap f fs (out t))
      (runLines (compressLines (f :: fs)) s) := by
    rw [compressLines_eq]
    refine doneOrFull_append (counted_start hc) fun t ht => doneOrFull_append (ht.freqScans hcap) fun u hu => ?_
    exact Counted.container (f := f) (fs := fs) hu hne hcount hcap
  refine doneOrFull_bind hlines fun t ⟨ht, hcont⟩ => ?_
  obtain ⟨d, hd⟩ := runLine_rdout ht.inv.cfg ht.inv.olenBound
  rw [hd]
  simpa [doneOrFull, Function.comp_def] using hcont

/-! ### DECOMPRESS: reading the container (rules R155, R170, R211 and R216) -/

/-- A state of DECOMPRESS on the part `c` in which the bytes still to be read begin with `bs`. -/
structure Reading (c : Config) (bs : List Byte) (s : State) : Prop extends Running c s where
  ilen : s.ilen.toNat ≤ c.inCap
  stream : holds s 0 bs

theorem Reading.checked {bs : List Byte} (h : Reading c bs s) : Reading c bs s.checked :=
  { h with toRunning := h.toRunning.checked }

theorem Reading.ilen_le {bs : List Byte} (h : Reading c bs s) : s.ilen.toNat ≤ s.cfg.inCap :=
  h.cfg ▸ h.ilen

/-- Past the bytes consumed, the bytes still to be read are those that followed them. -/
theorem holds_consume_append {a b : List Byte} (h : holds s 0 (a ++ b)) (ha : 0 < a.length) :
    holds (s.consume a.length) 0 b := by
  obtain ⟨hfirst, hrest⟩ := holds_append h
  rw [Nat.zero_add] at hrest
  exact holds_consume hrest ha (by simpa using hfirst.1)

/-- GET32 reads the count field the stream begins with. -/
theorem Reading.get32 {k : Nat} {bs : List Byte} (h : Reading c (le32 k ++ bs) s)
    (hk : k ≤ 2147483647) (ls : List HostLine) :
    ∃ t, runLines (.cmd .get32 :: ls) s = runLines ls t ∧ Reading c bs t ∧ t.cnt.toNat = k ∧ t.tree = s.tree ∧
      t.prev = s.prev ∧ t.prevV = s.prevV := by
  have hval : in32 s 0 = k := in32_of_holds (by omega) h.stream
  have hroom := (holds_append h.stream).1.1
  have heff : effectOf .get32 s = .ok ({ s with cnt := BitVec.ofNat 32 k }.consume 4) :=
    get32Effect_eq_ok.2 ⟨h.ilen_le, by simpa using hroom, hval.trans_le hk, by rw [hval]⟩
  refine ⟨_, runLines_effect (by simp) h.fault heff ls, Reading.checked { h.effect heff with
    ilen := h.ilen, stream := holds_consume_append (a := le32 k) h.stream (by simp) }, ?_, rfl, rfl, rfl⟩
  show (BitVec.ofNat 32 k).toNat = k
  rw [BitVec.toNat_ofNat]
  omega

/-- TREE_RD reads the tree record the stream begins with. -/
theorem Reading.treeRd {bs : List Byte} (h : Reading c (ser n ++ bs) s)
    (hn : n.size ≤ 511) (ls : List HostLine) :
    ∃ t, runLines (.cmd .treeRd :: ls) s = runLines ls t ∧ Reading c bs t ∧ t.tree = some n := by
  have heff : effectOf .treeRd s = .ok ((s.setTree n).consume (ser n).length) :=
    treeRdEffect_eq_ok.2 ⟨h.ilen_le, n, hn, (holds_append h.stream).1, rfl⟩
  exact ⟨_, runLines_effect (by simp) h.fault heff ls, Reading.checked { h.effect heff with
    ilen := h.ilen, stream := holds_consume_append (s := s.setTree n) h.stream (ser_pos n) }, rfl⟩

/-- UNPACK reads the PACK record the stream begins with. -/
theorem Reading.unpack {b : Bits} {bs : List Byte} (h : Reading c (packRecord b.length b ++ bs) s)
    (hb : b.length ≤ c.bitCap) (ls : List HostLine) :
    ∃ t, runLines (.cmd .unpack :: ls) s = runLines ls t ∧ Reading c bs t ∧ t.bits = b ∧ t.cnt = s.cnt ∧ t.tree = s.tree ∧
      t.prev = s.prev ∧ t.prevV = s.prevV := by
  have hcap : b.length ≤ s.cfg.bitCap := h.cfg.symm ▸ hb
  have heff : effectOf .unpack s = .ok ((s.setBits b).consume (packRecord b.length b).length) :=
    unpackEffect_of_holds h.ilen_le (hcap.trans h.inv.cfg.bitCap_le) hcap (holds_append h.stream).1
  exact ⟨_, runLines_effect (by simp) h.fault heff ls, Reading.checked { h.effect heff with
    ilen := h.ilen, stream := holds_consume_append (s := s.setBits b) h.stream (by simp) }, rfl, rfl, rfl, rfl, rfl⟩

/-- A state of DECOMPRESS before a decoder: the frame's count `k` in `CNT` and its bits `b` in `BITS`. -/
structure Loaded (c : Config) (n : Node) (k : Nat) (b : Bits) (bs : List Byte) (s : State) : Prop extends Reading c bs s where
  tree : s.tree = some n
  bits : s.bits = b
  cnt : s.cnt.toNat = k

/-- GET32 and UNPACK read the record of a frame. -/
theorem Reading.load {k : Nat} {b : Bits} {bs : List Byte}
    (h : Reading c (frameRecord k b ++ bs) s) (hn : s.tree = some n) (hk : k ≤ 2147483647) (hb : b.length ≤ c.bitCap)
    (ls : List HostLine) :
    ∃ t, runLines (.cmd .get32 :: .cmd .unpack :: ls) s = runLines ls t ∧ Loaded c n k b bs t ∧
      t.prev = s.prev ∧ t.prevV = s.prevV := by
  rw [frameRecord, List.append_assoc] at h
  obtain ⟨t, hget, ht, hcnt, htree, hprev, hprevV⟩ := h.get32 hk (.cmd .unpack :: ls)
  obtain ⟨u, hunpack, hu, hbits, hcnt', htree', hprev', hprevV'⟩ := ht.unpack hb ls
  exact ⟨u, hget.trans hunpack, { hu with
    tree := htree'.trans (htree.trans hn), bits := hbits, cnt := hcnt' ▸ hcnt }, hprev'.trans hprev, hprevV'.trans hprevV⟩

/-- A state of DECOMPRESS between two frames, the last one `f`. -/
structure Decoded (c : Config) (n : Node) (f : Frame) (bs : List Byte) (s : State) : Prop extends Reading c bs s where
  tree : s.tree = some n
  prev : s.prev = f
  prevV : s.prevV = true

/-- The host reads out the frame a decoder has put in its place (rules R107 and R214). -/
theorem Loaded.readOut {k : Nat} {b : Bits} {bs : List Byte} (h : Loaded c n k b bs s)
    {decoder : Instr} (hi : decoder ≠ .reset) {f : Frame} {w : Word} {e : Nat} (hw : w.toNat = f.length)
    (heff : effectOf decoder s = .ok (s.putFrame f w e).markPrev) :
    ∃ t ws u, runLines [.cmd decoder] s = .ok t ∧ runLine .rdcur t = .ok (ws, u) ∧ ws.tail.map cellOfWord = f ∧
      Decoded c n f bs u := by
  have ht := (h.effect heff).checked
  obtain ⟨d, ws, hrun, hws⟩ := runLine_rdcur ht.inv.cfg ht.inv.plenBound
  exact ⟨_, ws, _, runLines_effect hi h.fault heff [], hrun, hws.trans (cur_putFrame s e hw), { ht with
    inv := { ht.inv with }, ilen := h.ilen, stream := h.stream, tree := h.tree, prev := rfl, prevV := rfl }⟩

/-- A frame's lines give the frame that the decoder makes of its record. -/
theorem Reading.dFrame {k : Nat} {b : Bits} {bs : List Byte}
    (h : Reading c (frameRecord k b ++ bs) s) (hn : s.tree = some n) (hk : k ≤ 2147483647) (hb : b.length ≤ c.bitCap)
    {decoder : Instr} (hi : decoder ≠ .reset) {f : Frame}
    (hdec : ∀ t, Loaded c n k b bs t → t.prev = s.prev → t.prevV = s.prevV →
      ∃ w e, w.toNat = f.length ∧ effectOf decoder t = .ok (t.putFrame f w e).markPrev) :
    ∃ u, dFrame decoder s = .ok (f, u) ∧ Decoded c n f bs u := by
  obtain ⟨t, hrun, ht, hprev, hprevV⟩ := h.load hn hk hb [.cmd decoder]
  obtain ⟨w, e, hw, heff⟩ := hdec t ht hprev hprevV
  obtain ⟨t', ws, u, hcmd, hrd, rfl, hu⟩ := ht.readOut hi hw heff
  refine ⟨u, ?_, hu⟩
  simp only [Machine.dFrame, hrun, hcmd, ok_bind', hrd]

/-- DFRAME0 gives back the full frame (rule R205 (a)). -/
theorem Reading.dFrame0 {f : Frame} {b : Bits} {bs : List Byte}
    (h : Reading c (frameRecord f.length b ++ bs) s) (hn : s.tree = some n) (hf : f.length ≤ c.cellCap)
    (hb : b.length ≤ c.bitCap) (henc : isFrameEncoding n f b) :
    ∃ u, Machine.dFrame .decFull s = .ok (f, u) ∧ Decoded c n f bs u := by
  have hfield : f.length ≤ 2147483647 := hf.trans (h.cfg ▸ h.inv.cfg.cellCap_le)
  refine h.dFrame hn hfield hb (by simp) fun t ht _ _ => ⟨t.cnt, b.length, ht.cnt, ?_⟩
  exact decFullEffect_of_encoding ht.inv (by rw [ht.cnt, ht.cfg]; exact hf) ht.cnt.symm
    (ht.bits ▸ List.prefix_rfl) (.inr ⟨n, ht.tree, henc⟩)

theorem markPrev_of_prevV (h : s.prevV = true) : s.markPrev = s := by
  rw [State.markPrev, ← h]

/-- DFRAMEK gives back a frame of the size of the last one from its changed cells (rule R205 (b)). -/
theorem Decoded.dFrameK {prev f : Frame} {b : Bits} {bs : List Byte}
    (h : Decoded c n prev (frameRecord (changedCells prev prev.length f).length b ++ bs) s)
    (hsize : f.length = prev.length) (hf : f.length ≤ c.cellCap)
    (hb : b.length ≤ c.bitCap) (henc : isDeltaEncoding n (changedCells prev prev.length f) b) :
    ∃ u, dFrame .decDelta s = .ok (f, u) ∧ Decoded c n f bs u := by
  have hfield : (changedCells prev prev.length f).length ≤ 2147483647 :=
    (changedCells_length ..).trans (hf.trans (h.cfg ▸ h.inv.cfg.cellCap_le))
  refine h.dFrame h.tree hfield hb (by simp) fun t ht hprev hprevV => ?_
  rw [h.prev] at hprev
  rw [h.prevV] at hprevV
  have hplen : t.plen.toNat = f.length := by rw [ht.inv.plenIsLength, hprev, hsize]
  have hframe : applyUpdates t.prev (changedCells prev prev.length f) = f := by
    rw [hprev, applyUpdates_changedCells hsize.le, hsize, List.drop_length, List.append_nil]
  have heff := decDeltaEffect_of_encoding ht.inv hprevV (ht.cnt.trans_le hfield) ht.cnt.symm
    (fun p hp => hplen ▸ changedCells_lt hp) (ht.bits ▸ List.prefix_rfl) (.inr ⟨n, ht.tree, henc⟩)
  refine ⟨t.plen, b.length, hplen, ?_⟩
  rw [markPrev_of_prevV (show (t.putFrame f t.plen b.length).prevV = true from hprevV)]
  rwa [hframe] at heff

/-- The delta frames are given back in order (rule R216). -/
theorem Decoded.dFrames {m cap : Nat} {fs : List Frame} (hm : ∀ f ∈ fs, f.length = m)
    (hcell : m ≤ c.cellCap) (hcap : cap ≤ c.bitCap) : ∀ {prev : Frame} {bs : List Byte} {s : State},
    prev.length = m → isDeltaRecords n cap prev fs bs → Decoded c n prev bs s →
      ∃ u, dFrames fs.length s = .ok (fs, u) := by
  induction fs with
  | nil => exact fun {_ _ s} _ _ _ => ⟨s, rfl⟩
  | cons f fs ih =>
    intro prev bs s hprev hrec h
    obtain ⟨hf, hm⟩ := List.forall_mem_cons.1 hm
    obtain ⟨b, bs', henc, hb, hrec', rfl⟩ := hrec
    obtain ⟨t, hframe, ht⟩ := h.dFrameK (hf.trans hprev.symm) (hf.trans_le hcell) (hb.trans hcap) henc
    obtain ⟨u, hframes⟩ := ih hm hf hrec' ht
    refine ⟨u, ?_⟩
    simp only [List.length_cons, Machine.dFrames, hframe, ok_bind', hframes]

/-! ### DECOMPRESS (rule R216) -/

/-- RESET and `WRIN` leave the whole container to be read. -/
theorem reading_start (hc : s.cfg.WellFormed) {bs : List Byte} (hb : bs.length ≤ s.cfg.inCap) (ls : List HostLine) :
    ∃ t, runLines (.cmd .reset :: .wrin bs :: ls) s = runLines ls t ∧ Reading s.cfg bs t := by
  obtain ⟨hrun, hreset⟩ := runLines_reset hc (.wrin bs :: ls)
  have hlt : bs.length < 2 ^ 32 := by
    have := hc.inCap_le
    omega
  have hlen : (BitVec.ofNat 32 bs.length).toNat = bs.length := by rw [BitVec.toNat_ofNat, Nat.mod_eq_of_lt hlt]
  have hwrin := runLines_line (by simp) (runLine_wrin (s := s.afterReset.checked) hc hb) ls
  exact ⟨_, hrun.trans hwrin, { hreset with
    inv := hreset.inv.wrin hb _, ilen := hlen.trans_le hb, stream := holds_wrin _ hlt rfl }⟩

/-- The host reads the frame count from `CNT`. -/
theorem Reading.rdCnt {bs : List Byte} (h : Reading c bs s) :
    ∃ t, runLine (.rd .cnt) s = .ok ([s.cnt], t) ∧ Reading c bs t ∧ t.rdata = s.cnt :=
  ⟨_, runLine_rd .cnt s, { h with inv := { h.inv with } }, rfl⟩

/-- DECOMPRESS of a container of a video whose frames have one size gives the video (rule R219). -/
theorem decompress_container {cap m : Nat} {f : Frame} {fs : List Frame} {bs : List Byte}
    (hc : s.cfg.WellFormed) (hn : n.size ≤ 511) (hcont : isContainer n cap f fs bs) (hcount : (f :: fs).length ≤ 2147483647)
    (hm : ∀ g ∈ f :: fs, g.length = m) (hcell : m ≤ s.cfg.cellCap) (hcap : cap ≤ s.cfg.bitCap)
    (hroom : bs.length ≤ s.cfg.inCap) : ∃ u, decompress bs s = .ok (f :: fs, u) := by
  obtain ⟨hf, hfs⟩ := List.forall_mem_cons.1 hm
  obtain ⟨b, bs', henc, hb, hrec, hbs⟩ := hcont
  obtain ⟨t0, hstart, ht0⟩ := reading_start hc hroom [.cmd .get32]
  rw [hbs] at ht0
  obtain ⟨t1, hget, ht1, hcnt, -⟩ := ht0.get32 hcount []
  obtain ⟨t2, hrd, ht2, hread⟩ := ht1.rdCnt
  obtain ⟨t3, htree, ht3, hheld⟩ := ht2.treeRd hn []
  obtain ⟨t4, hframe, ht4⟩ := ht3.dFrame0 hheld (hf.trans_le hcell) (hb.trans hcap) henc
  obtain ⟨u, hframes⟩ := ht4.dFrames hfs hcell hcap hf hrec
  have hhead : runLines [.cmd .reset, .wrin bs, .cmd .get32] s = .ok t1 := hstart.trans hget
  have htail : runLines [.cmd .treeRd] t2 = .ok t3 := htree
  exact ⟨u, by simp only [decompress, hhead, ok_bind', hrd, htail, hread, hcnt, List.length_cons, hframe, hframes]⟩

end

/-- Settles O50: what COMPRESS makes, when it does not fail for room, is a container, and DECOMPRESS reads a container back. -/
theorem compressThenDecompressIsTheVideo : Obligations.CompressThenDecompressIsTheVideo := by
  intro v m s u hs hu hcell hm hcount hscap hucap hbits
  obtain ⟨g, hg, hne⟩ := hcell
  have hflat : v.flatten ≠ [] := fun h => hne (List.flatten_eq_nil_iff.1 h g hg)
  cases v with
  | nil => cases hg
  | cons f fs =>
    have hdone := compress_container hs hflat hcount fun g hg => (hm g hg).trans_le hscap
    refine ⟨fun e he => ?_, fun b t he hroom => ?_⟩
    · rwa [he] at hdone
    · rw [he] at hdone
      obtain ⟨n, hn, hcont⟩ := hdone
      exact decompress_container hu hn hcont hcount hm hucap hbits hroom

end Sys2Proof.Machine

/-! SUPPORT. The statements about the system commands (45_system.md): RESET and NOP. -/

namespace Sys2Proof.Machine

/-! ### RESET (rules R231 and R256) -/

/-- Settles O2: RESET leaves the reset values under the part's parameters and the host's side, and while `FAULT = 1` every other command is ignored, so the flag stays. -/
theorem resetAlwaysRunsAndAloneClearsAFault : Obligations.ResetAlwaysRunsAndAloneClearsAFault := by
  refine ⟨fun s => ?_, fun i s t he hs ht => ?_⟩
  · exact ⟨s.afterReset, exec_reset s, hasResetValues_resetWith s.cfg (s.epoch + 1) s.hostQueue s.rdata,
      s.afterReset_cfg, s.afterReset_hostQueue, s.afterReset_rdata, s.afterReset_epoch⟩
  · by_contra hi
    have hkept : s = t := by simpa [exec_ignored hi hs] using he
    simp [← hkept, hs] at ht

/-! ### NOP (rule R230) -/

/-- Settles O3: while `FAULT = 1` NOP is ignored, and otherwise its effect is the state it is given. -/
theorem nopChangesNothing : Obligations.NopChangesNothing := by
  intro s
  cases hs : s.fault with
  | true => exact exec_ignored (by simp) hs
  | false => exact exec_ok (by simp) hs rfl

end Sys2Proof.Machine

/-! SUPPORT. The statements about exceptions (60_exceptions.md): fault entry, the order of the tests of lengths and of missing state, and the idle engine. -/

namespace Sys2Proof.Machine

/-! ### Fault entry (rules R240 and R250) -/

/-- All causes but InvalidSource (rule R245) and IllegalCommand (rule R249) have the codes a command can enter. -/
theorem code_mem_of_raised {c : Cause} (h : c ≠ .invalidSource ∧ c ≠ .illegalCommand) :
    c.code ∈ ([1, 2, 3, 4, 6, 7, 8, 10] : List Byte) := by
  revert h
  cases c <;> decide

/-- Settles O31: RESET leaves `FAULT = 0`, and of what any other command can do only fault entry sets it. -/
theorem faultsArePrecise : Obligations.FaultsArePrecise := by
  refine ⟨by decide, fun _ _ => rfl, fun i s t he hs ht => ?_⟩
  have hi : i ≠ .reset := by
    rintro rfl
    cases he
    cases ht
  rcases exec_inv hi he with ⟨hf, -⟩ | ⟨-, hf, -⟩ | ⟨-, r, herr, rfl⟩
  · simp [hs] at hf
  · simp [ht] at hf
  · exact ⟨r, rfl, code_mem_of_raised (effectOf_error herr)⟩

/-! ### Lengths the host writes (rule R253) -/

/-- Past its flag, ENC_FULL tests `CLEN` first. -/
theorem encFullEffect_long {s : State} (hv : s.codeV = true) (h : s.cfg.cellCap < s.clen.toNat) :
    encFullEffect s = .error ⟨.capacityExceeded, s.clen.toNat, s.cfg.cellCap⟩ := by
  rw [encFullEffect_of_ready hv, map_eq_error]
  exact encodeCount_eq_error.2 (.inl ⟨h, rfl⟩)

/-- Past its flags, ENC_DELTA tests `CLEN` first. -/
theorem encDeltaEffect_long {s : State} (hv : s.codeV = true ∧ s.prevV = true) (h : s.cfg.cellCap < s.clen.toNat) :
    encDeltaEffect s = .error ⟨.capacityExceeded, s.clen.toNat, s.cfg.cellCap⟩ := by
  rw [encDeltaEffect_of_ready hv rfl, map_eq_error]
  exact encodeCount_eq_error.2 (.inl ⟨h, rfl⟩)

/-- Settles O33: `CLEN` is the first test of what reads the current frame, past the flags, and `ILEN` of what reads the stream. -/
theorem lengthsAreTestedFirst : Obligations.LengthsAreTestedFirst := by
  intro s hs
  refine ⟨fun hclen => ⟨?_, fun hc => ?_, fun hc hp => ?_⟩, fun hilen => ⟨?_, ?_, ?_⟩⟩
  · exact exec_error (by simp) hs (freqAccEffect_long hclen)
  · exact exec_error (by simp) hs (encFullEffect_long hc hclen)
  · exact exec_error (by simp) hs (encDeltaEffect_long ⟨hc, hp⟩ hclen)
  · exact exec_error (by simp) hs (get32Effect_eq_error.2 (.inl ⟨hilen, rfl⟩))
  · exact exec_error (by simp) hs (treeRdEffect_long hilen)
  · exact exec_error (by simp) hs (unpackEffect_eq_error.2 (.inl ⟨hilen, rfl⟩))

/-! ### Missing state (rule R258) -/

section
variable {s : State}

theorem heldTree_of_treeV_false (h : s.treeV = false) : heldTree s = none := by
  simp [heldTree, h]

theorem genCodesEffect_of_treeV_false (h : s.treeV = false) :
    genCodesEffect s = .error ⟨.illegalState, 0x13, (status s).toNat⟩ := by
  simp only [genCodesEffect, heldTree_of_treeV_false h]

theorem treeWrEffect_of_treeV_false (h : s.treeV = false) :
    treeWrEffect s = .error ⟨.illegalState, 0x20, (status s).toNat⟩ := by
  simp only [treeWrEffect, heldTree_of_treeV_false h]

/-- Without a tree the walk faults before it looks at a bit (rule R139). -/
theorem decodeOne_of_treeV_false (h : s.treeV = false) (c j : Nat) :
    decodeOne s c j = .error ⟨.malformedTree, j, c⟩ := by
  simp only [decodeOne, heldTree_of_treeV_false h]

theorem decodeOneEffect_of_treeV_false (h : s.treeV = false) :
    decodeOneEffect s = .error ⟨.malformedTree, 0, s.bc.toNat⟩ := by
  simp only [decodeOneEffect, decodeOne_of_treeV_false h, error_bind']

/-- Without a tree a cell fails at its symbol, once its length field is read (rule R182). -/
theorem decodeCell_of_treeV_false (h : s.treeV = false) {c : Nat} (hlen : c + 8 ≤ s.blen.toNat) (j : Nat) :
    decodeCell s c j = .error ⟨.malformedTree, j, c + 8⟩ :=
  decodeCell_of_walk_error hlen (decodeOne_of_treeV_false h _ j)

/-- Without a tree DEC_FULL fails at the first cell (rule R190). -/
theorem decFullEffect_of_treeV_false (h : s.treeV = false) (hpos : 1 ≤ s.cnt.toNat) (hfield : s.cnt.toNat ≤ fieldMax)
    (hcap : s.cnt.toNat ≤ s.cfg.cellCap) (hbits : 8 ≤ s.blen.toNat) :
    decFullEffect s = .error ⟨.malformedTree, 0, 8⟩ := by
  have hcell : decodeCell s 0 0 = .error ⟨.malformedTree, 0, 8⟩ := decodeCell_of_treeV_false h hbits 0
  have hstop : decodeCells s (1 + (s.cnt.toNat - 1)) 0 0 = .error ⟨.malformedTree, 0, 8⟩ :=
    decodeCells_stop (m := 0) (s.cnt.toNat - 1) rfl hcell
  rw [Nat.add_sub_cancel' hpos] at hstop
  exact decFullEffect_eq_error.2 (.inr ⟨hfield, .inr ⟨hcap, hstop⟩⟩)

/-- Without a tree DEC_DELTA fails at the first cell, once its index has been read and tested (rule R200). -/
theorem decDeltaEffect_of_treeV_false (h : s.treeV = false) (hv : s.prevV = true) (hpos : 1 ≤ s.cnt.toNat)
    (hfield : s.cnt.toNat ≤ fieldMax) (hbits : 40 ≤ s.blen.toNat) (hidx : val (bitsRead s 0 32) < s.plen.toNat) :
    decDeltaEffect s = .error ⟨.malformedTree, 0, 40⟩ := by
  have hcell : decodeCell s (0 + 32) 0 = .error ⟨.malformedTree, 0, 40⟩ := decodeCell_of_treeV_false h hbits 0
  exact decDeltaEffect_of_updateFault hv hfield (m := 0) hpos rfl (.inr ⟨by omega, .inr ⟨hidx, hcell⟩⟩)

end

/-- Settles O32: a flag a command needs is its first test, and the decoders meet the absent tree at their first symbol. -/
theorem missingStateIsIllegalState : Obligations.MissingStateIsIllegalState := by
  intro s _ hs
  refine ⟨fun ht => ⟨?_, ?_⟩, fun hc => ?_, fun hcp => ?_, fun hp => ?_, fun ht => ?_, fun ht hpos hfield hcap hbits => ?_,
    fun ht hp hpos hfield hbits hidx => ?_⟩
  · exact exec_error (by simp) hs (genCodesEffect_of_treeV_false ht)
  · exact exec_error (by simp) hs (treeWrEffect_of_treeV_false ht)
  · exact exec_error (by simp) hs (effectOf_encFull_of_noCode hc)
  · have hnot : ¬(s.codeV = true ∧ s.prevV = true) := by rcases hcp with h | h <;> simp [h]
    exact exec_error (by simp) hs (effectOf_encDelta_of_notReady hnot)
  · exact exec_error (by simp) hs (decDeltaEffect_eq_error.2 (.inl ⟨hp, rfl⟩))
  · exact exec_error (by simp) hs (decodeOneEffect_of_treeV_false ht)
  · exact exec_error (by simp) hs (decFullEffect_of_treeV_false ht hpos hfield hcap hbits)
  · exact exec_error (by simp) hs (decDeltaEffect_of_treeV_false ht hp hpos hfield hbits hidx)

/-! ### The idle engine (rules R263 and R271) -/

/-- Settles O43: with nothing queued a step is the idle one. -/
theorem idleEngineHoldsItsState : Obligations.IdleEngineHoldsItsState := fun _ => step_idle

end Sys2Proof.Machine

/-! SUPPORT. The end of every command (70_reset_and_hazards.md). -/

namespace Sys2Proof.Machine

/-- Settles O38: RESET leaves the reset state, and every other command is run by `runCommand`, which always ends in a next state. -/
theorem everyCommandEnds : Obligations.EveryCommandEnds := exec_next

end Sys2Proof.Machine
